-- ==== Sys2Proof/Word.lean ====
section
/-! DEFINITION. The bit-vector types of ERB-1 (00_scope.md R9, R10). -/

namespace Sys2Proof

/-- A byte of a USB payload (20_memory.md R70). -/
abbrev Byte := BitVec 8

/-- A 16-bit sample: an `i16`, read as a signed value with `toInt` (00_scope.md R8, R10). -/
abbrev Sample := BitVec 16

/-- A 32-bit word: a command word, a `u32` register, or a codec-domain sample
(30_encoding.md R90, 20_memory.md R71). -/
abbrev Word := BitVec 32

end Sys2Proof
end

