-- ==== Sys2Proof/Config.lean ====
section
/-! DEFINITION. The implementation parameters of ERB-1 (00_scope.md R5 to R7). The model holds them in a
constant field of State, so that every statement ranges over every configuration the spec admits
(log entry 1). -/

namespace Sys2Proof

/-- The channel count CH, 2 or 4: no other count is a configuration of this block
(00_scope.md R5, 93_implementation_defined.md U2). -/
inductive Channels where
  | two
  | four
deriving DecidableEq, Repr

/-- CH as a number (R5). -/
def Channels.count : Channels → Nat
  | .two => 2
  | .four => 4

/-- `N`, the samples of one codec block: 32 or 64, that is 16 sample-frames (R5, `BF = N / CH = 16`). -/
def Channels.blockLen (ch : Channels) : Nat := 16 * ch.count

/-- `T`, the samples of one USB frame and of one resampler batch of `K = 3` blocks: 96 or 192 (R5). -/
def Channels.transfer (ch : Channels) : Nat := 3 * ch.blockLen

/-- `NOMINAL`, the codec samples expected per USB frame; equal to `T`, whatever `rate` holds (R5). -/
def Channels.nominal (ch : Channels) : Nat := ch.transfer

/-- The parameters of a session: the open sizes of R6 and the strategy switches of R7, with the
constraints of R6 and R7, so that sizes which break them cannot be written down
(93_implementation_defined.md U1). -/
structure Params where
  /-- `CH` (R5). -/
  ch : Channels
  /-- `NORMAL_SIZE`, the steady-state occupancy of TX, in samples (R6). -/
  normalSize : Nat
  /-- `UNDERFLOW_MARGIN`, in samples (R6). -/
  underflowMargin : Nat
  /-- `RESAMPLED`: which exchange strategy the codec side runs (R7). -/
  resampled : Bool
  /-- `UNDERFLOW_REFILL`: what a TX underflow at a USB frame does (R7, 90_conflicts.md C2). -/
  underflowRefill : Bool
  /-- `MIN_INTERVAL`, the least correction interval (R7). -/
  minInterval : Nat
  /-- NORMAL_SIZE is a multiple of `N` (R6). -/
  normal_blocks : normalSize % ch.blockLen = 0
  /-- NORMAL_SIZE is at least `T` (R6). -/
  normal_ge : ch.transfer ≤ normalSize
  /-- UNDERFLOW_MARGIN is a multiple of `N` (R6). -/
  margin_blocks : underflowMargin % ch.blockLen = 0
  /-- UNDERFLOW_MARGIN is at least `T` (R6). -/
  margin_ge : ch.transfer ≤ underflowMargin
  /-- CAP is at least `3 T` (R6). -/
  cap_ge : 3 * ch.transfer ≤ underflowMargin + normalSize
  /-- CAP is below 2^31 (R6). -/
  cap_lt : underflowMargin + normalSize < 2 ^ 31
  /-- MIN_INTERVAL is at least 1 (R7). -/
  min_pos : 1 ≤ minInterval
  /-- MIN_INTERVAL is a value of the u32 register it is stored in (R31, R154).
  DEDUCED, safe: log entry 2. -/
  min_lt : minInterval < 2 ^ 32
deriving DecidableEq, Repr

/-- `CAP`, the capacity of each ring: UNDERFLOW_MARGIN + NORMAL_SIZE (R6). -/
def Params.cap (p : Params) : Nat := p.underflowMargin + p.normalSize

/-- `CH`, as a number. -/
def Params.chans (p : Params) : Nat := p.ch.count

/-- `N` (R5). -/
def Params.blockLen (p : Params) : Nat := p.ch.blockLen

/-- `T` (R5). -/
def Params.transfer (p : Params) : Nat := p.ch.transfer

/-- `NOMINAL` (R5). -/
def Params.nominal (p : Params) : Nat := p.ch.nominal

/-- The parameters the spec's vectors use: sizes `2 T` and `2 T` (R6), RESAMPLED = 1,
UNDERFLOW_REFILL = 0, MIN_INTERVAL = 1 (R7), CH = 2. DESIGN CHOICE, unsafe: log entry 1. -/
def Params.reference : Params where
  ch := .two
  normalSize := 192
  underflowMargin := 192
  resampled := true
  underflowRefill := false
  minInterval := 1
  normal_blocks := by decide
  normal_ge := by decide
  margin_blocks := by decide
  margin_ge := by decide
  cap_ge := by decide
  cap_lt := by decide
  min_pos := by decide
  min_lt := by decide

end Sys2Proof
end

