-- ==== Sys2Proof/Syntax.lean ====
section
/-! DEFINITION. The commands of ERB-1 (30_encoding.md R90 to R94), one constructor per row of
spec/opcode_table.json, and the payloads a command is presented and answered with. -/

namespace Sys2Proof

/-- The sixteen commands of R92, with the operands R93 reads from the command word. A command's input
payload is presented beside the word (R90) and is no part of its syntax. -/
inductive Instr where
  /-- `NOP` (R220). -/
  | nop
  /-- `CODEC_XCHG` (R173). -/
  | codecXchg
  /-- `USB_SOF` (R180). -/
  | usbSof
  /-- `CNT_ADJ imm16` (R158). -/
  | cntAdj (imm : BitVec 16)
  /-- `REQ_RESET` (R221). -/
  | reqReset
  /-- `OVERLOAD` (R222). -/
  | overload
  /-- `SET_RATE imm24` (R223). -/
  | setRate (imm : BitVec 24)
  /-- `SET_MUTE a, m` (R224). -/
  | setMute (a : BitVec 8) (m : Bool)
  /-- `SET_VOL a, imm16` (R225). -/
  | setVol (a : BitVec 8) (imm : BitVec 16)
  /-- `SET_ALT imm16`: `out = imm16[0]`, `in = imm16[1]` (R226). -/
  | setAlt (out : Bool) (inn : Bool)
  /-- `RD_REG a` (R227). -/
  | rdReg (a : BitVec 8)
  /-- `RD_FLAGS` (R228). -/
  | rdFlags
  /-- `RS_SHRINK16` (R129). -/
  | rsShrink16
  /-- `RS_STRETCH16` (R130). -/
  | rsStretch16
  /-- `RS_SHRINK32` (R131). -/
  | rsShrink32
  /-- `RS_STRETCH32` (R132). -/
  | rsStretch32
deriving DecidableEq, Repr

/-- A payload: a list of elements of one width, element 0 first (R94). -/
inductive Payload where
  /-- No payload. -/
  | none
  /-- USB frames (20_memory.md R70). -/
  | bytes (l : List Byte)
  /-- 16-bit values of `RS_SHRINK16` and `RS_STRETCH16`. -/
  | samples (l : List Sample)
  /-- Codec-domain words (20_memory.md R71). -/
  | words (l : List Word)
deriving DecidableEq, Repr

/-- What the environment presents on the command port: a command word and its input payload (R90). -/
structure Command where
  /-- The 32-bit command word. -/
  cw : Word
  /-- The input payload, `none` for a command that takes none. -/
  payload : Payload
deriving DecidableEq, Repr

end Sys2Proof
end

