-- ==== Sys2Proof/WellFormed.lean ====
section
/-! DEFINITION. The operand-range checks of 30_encoding.md R96 (c) and (e): which terms of `Instr` are
commands of a block with CH channels. The checks (a), (b) and (d) of R96 are about words, not terms:
no term of `Instr` violates them. -/

namespace Sys2Proof

/-- The registers of the `RD_REG` index map (10_state.md R43). -/
inductive Reg where
  | id | state | rate | alt | flags | ovfCount | unfCount | cap | normalSize | underflowMargin
  | txUsed | txRd | txWr | rxUsed | rxRd | rxWr
  | cfsc | sampleOffset | dwso | dwOk | corrInterval | corrCounter | wfc | seq
  | mute (i : Nat)
  | vol (i : Nat)
deriving DecidableEq, Repr

/-- The register at index `a`, `none` for an index that is not in the table (10_state.md R43). -/
def regOfIndex (ch : Channels) (a : BitVec 8) : Option Reg :=
  match a.toNat with
  | 0x00 => some .id
  | 0x01 => some .state
  | 0x02 => some .rate
  | 0x03 => some .alt
  | 0x04 => some .flags
  | 0x05 => some .ovfCount
  | 0x06 => some .unfCount
  | 0x07 => some .cap
  | 0x08 => some .normalSize
  | 0x09 => some .underflowMargin
  | 0x10 => some .txUsed
  | 0x11 => some .txRd
  | 0x12 => some .txWr
  | 0x14 => some .rxUsed
  | 0x15 => some .rxRd
  | 0x16 => some .rxWr
  | 0x20 => some .cfsc
  | 0x21 => some .sampleOffset
  | 0x22 => some .dwso
  | 0x23 => some .dwOk
  | 0x24 => some .corrInterval
  | 0x25 => some .corrCounter
  | 0x26 => some .wfc
  | 0x28 => some .seq
  | n =>
    if 0x40 ≤ n ∧ n ≤ 0x40 + ch.count then some (.mute (n - 0x40))
    else if 0x50 ≤ n ∧ n ≤ 0x50 + ch.count then some (.vol (n - 0x50))
    else none

/-- R96 (c): the index of `SET_MUTE` and `SET_VOL` is in `0 .. CH`. -/
def chanIndexOk (ch : Channels) (a : BitVec 8) : Bool := decide (a.toNat ≤ ch.count)

/-- The operand ranges of R96 (c) and (e). -/
def Instr.wf (ch : Channels) : Instr → Bool
  | .setMute a _ => chanIndexOk ch a
  | .setVol a _ => chanIndexOk ch a
  | .rdReg a => (regOfIndex ch a).isSome
  | .nop | .codecXchg | .usbSof | .cntAdj _ | .reqReset | .overload | .setRate _ | .setAlt _ _
  | .rdFlags | .rsShrink16 | .rsStretch16 | .rsShrink32 | .rsStretch32 => true

end Sys2Proof
end

