-- ==== Sys2Proof/Decode.lean ====
section
/-! DEFINITION. The decoder of 30_encoding.md R91 to R97, total on every 32-bit word and naming the case
of R96 by which a word is illegal, and the encoder written from the same tables. -/

namespace Sys2Proof

/-- Why a word is illegal: the cases of R96. -/
inductive Illegal where
  /-- R96 (a): `op` is one of the 240 reserved values. -/
  | reservedOpcode
  /-- R96 (b), and the zero bits of (c) and (d): a field that must be 0 is not. -/
  | mustBeZero
  /-- R96 (c), (e): an index out of range. -/
  | operandRange
deriving DecidableEq, Repr

/-- What the decoder reads from a word: exactly one of the sixteen commands, or illegal (R96). -/
inductive Decoded where
  | command (i : Instr)
  | illegal (why : Illegal)
deriving DecidableEq, Repr

/-- `op = cw[31:24]` (R91). -/
def fieldOp (cw : Word) : BitVec 8 := cw.extractLsb' 24 8

/-- `a = cw[23:16]` (R91). -/
def fieldA (cw : Word) : BitVec 8 := cw.extractLsb' 16 8

/-- `imm16 = cw[15:0]` (R91). -/
def fieldImm16 (cw : Word) : BitVec 16 := cw.extractLsb' 0 16

/-- `imm24 = cw[23:0]` (R91). -/
def fieldImm24 (cw : Word) : BitVec 24 := cw.extractLsb' 0 24

/-- Format Z: `cw[23:0]` must be 0 (R91). -/
def formatZ (cw : Word) (i : Instr) : Decoded :=
  if fieldImm24 cw = 0 then .command i else .illegal .mustBeZero

/-- Steps (1) and (2) of the decode order R97: look up `op`, then check the zero fields of its format
(R91, and the narrower `SET_MUTE` and `SET_ALT` masks of R92). -/
def decodeFields (cw : Word) : Decoded :=
  match (fieldOp cw).toNat with
  | 0x00 => formatZ cw .nop
  | 0x01 => formatZ cw .codecXchg
  | 0x02 => formatZ cw .usbSof
  | 0x03 =>
    if fieldA cw = 0 then .command (.cntAdj (fieldImm16 cw)) else .illegal .mustBeZero
  | 0x10 => formatZ cw .reqReset
  | 0x11 => formatZ cw .overload
  | 0x20 => .command (.setRate (fieldImm24 cw))
  | 0x21 =>
    if (fieldImm16 cw).extractLsb' 1 15 = 0 then
      .command (.setMute (fieldA cw) ((fieldImm16 cw).getLsbD 0))
    else .illegal .mustBeZero
  | 0x22 => .command (.setVol (fieldA cw) (fieldImm16 cw))
  | 0x23 =>
    if (fieldImm24 cw).extractLsb' 2 22 = 0 then
      .command (.setAlt ((fieldImm16 cw).getLsbD 0) ((fieldImm16 cw).getLsbD 1))
    else .illegal .mustBeZero
  | 0x30 =>
    if fieldImm16 cw = 0 then .command (.rdReg (fieldA cw)) else .illegal .mustBeZero
  | 0x31 => formatZ cw .rdFlags
  | 0x40 => formatZ cw .rsShrink16
  | 0x41 => formatZ cw .rsStretch16
  | 0x42 => formatZ cw .rsShrink32
  | 0x43 => formatZ cw .rsStretch32
  | _ => .illegal .reservedOpcode

/-- The decoder of a block with CH channels, in the order of R97: opcode, zero fields, operand
ranges. -/
def decode (ch : Channels) (cw : Word) : Decoded :=
  match decodeFields cw with
  | .command i => if i.wf ch then .command i else .illegal .operandRange
  | .illegal why => .illegal why

/-- A word of format Z (R91). -/
def wordZ (op : BitVec 8) : Word := op ++ (0 : BitVec 24)

/-- A word of format AI (R91): `op`, `a`, `imm16`. -/
def wordAI (op a : BitVec 8) (imm : BitVec 16) : Word := op ++ a ++ imm

/-- A word of format I24 (R91). -/
def wordI24 (op : BitVec 8) (imm : BitVec 24) : Word := op ++ imm

/-- A bit as the least significant bit of a 16-bit immediate. -/
def bit16 (b : Bool) : BitVec 16 := if b then 1 else 0

/-- The word of a command (R91 to R93). -/
def encode : Instr → Word
  | .nop => wordZ 0x00
  | .codecXchg => wordZ 0x01
  | .usbSof => wordZ 0x02
  | .cntAdj imm => wordAI 0x03 0 imm
  | .reqReset => wordZ 0x10
  | .overload => wordZ 0x11
  | .setRate imm => wordI24 0x20 imm
  | .setMute a m => wordAI 0x21 a (bit16 m)
  | .setVol a imm => wordAI 0x22 a imm
  | .setAlt out inn => wordAI 0x23 0 (bit16 out ||| (bit16 inn <<< 1))
  | .rdReg a => wordAI 0x30 a 0
  | .rdFlags => wordZ 0x31
  | .rsShrink16 => wordZ 0x40
  | .rsStretch16 => wordZ 0x41
  | .rsShrink32 => wordZ 0x42
  | .rsStretch32 => wordZ 0x43

/-- The instruction the decoder reads from an instruction whose bits are `w`, bits at and above
`nbits` taken as 0. A command is one 32-bit word; it is presented on the port as a number, so no byte
order applies (R90). The channel count is that of the reference parameters (log entry 1). -/
def decodeTableWord (nbits w : Nat) : Option Instr :=
  match decode Params.reference.ch (BitVec.ofNat 32 (w % 2 ^ nbits)) with
  | .command i => some i
  | .illegal _ => none

end Sys2Proof
end

