-- ==== Sys2Proof/Machine/State.lean ====
section
/-! DEFINITION. The state of ERB-1 (10_state.md) as plain data, the reasons a step can stop, and the
state after hardware reset. -/

namespace Sys2Proof.Machine

open Sys2Proof

/-- Nothing faults: every rule of the spec is total (70_reset_and_hazards.md section 3), addresses wrap
(20_memory.md R61) and the error actions of 60_exceptions.md are state changes inside a command that
still answers OK (R95, R258). So this type has no constructor, and no step ends in a fault. -/
inductive Fault where
deriving DecidableEq, Repr

/-- Why the model refuses to run a command. -/
inductive Refusal where
  /-- Raised by an arm of `exec` whose command has no meaning yet; no arm is one. Safe: the model
  stops. -/
  | notModelled (mnemonic : String)
  /-- Raised by every command's meaning when the command is presented with a payload of the wrong
  width or length: "a command presented with a payload of the wrong length is not a command of this
  block ... If a model's type can represent it, the model refuses it" (30_encoding.md R94,
  93_implementation_defined.md U10). Safe: the model stops. Log entry 5. -/
  | payloadShape
deriving DecidableEq, Repr

/-- `state`, the six values of 10_state.md R22; the numeric values 6 and 7 are never written and cannot
be represented (93_implementation_defined.md U9, log entry 8). -/
inductive Transport where
  | init
  | fillingUnderflow
  | normal
  | codecRemove
  | codecDuplicate
  | needsReset
deriving DecidableEq, Repr

/-- `batch_mode` (10_state.md R34); the value 3 is never written and cannot be represented. -/
inductive BatchMode where
  | none
  | remove
  | duplicate
deriving DecidableEq, Repr

/-- One location of TXMEM or RXMEM and the sample it holds. The unit of these address spaces is the
16-bit sample: "there is no byte addressing" (20_memory.md R60, R62). Log entry 6. -/
abbrev Cell := Nat × Sample

/-- The storage of one ring: the locations that do not hold 0, in rising order of address. A location
that is not listed holds 0, the spec's reset contents (10_state.md R39, 20_memory.md R66). Log entry
6. -/
abbrev Memory := List Cell

/-- Addresses strictly rising from `lo` on, and no entry equal to what an unlisted location reads
as. -/
def Memory.wfFrom : Nat → Memory → Bool
  | _, [] => true
  | lo, (a, v) :: m => decide (lo ≤ a) && decide (v ≠ 0) && Memory.wfFrom (a + 1) m

/-- The canonical form of a storage, so that equal storages are equal lists. -/
def Memory.wf (m : Memory) : Bool := Memory.wfFrom 0 m

/-- One ring buffer: its cursors, its occupancy and its storage (10_state.md R23, R24). -/
structure Ring where
  /-- Read cursor, u32: address of the oldest live sample. -/
  rd : Word
  /-- Write cursor, u32: address the next sample is written to. -/
  wr : Word
  /-- Live occupancy, u32. -/
  used : Word
  /-- The storage array of CAP samples. -/
  buf : Memory
deriving DecidableEq, Repr

/-- The status of a response (30_encoding.md R95); the value 3 is never returned and cannot be
represented (93_implementation_defined.md U8). -/
inductive Status where
  | ok
  | illegal
  | rejected
deriving DecidableEq, Repr

/-- The answer to a command: the response word, the output payload (30_encoding.md R95), and whether
the wake pulse was given, which "a model may identify with the CODEC_XCHG response" (10_state.md
R42). -/
structure Reply where
  status : Status
  data : Word
  out : Payload
  wake : Bool
deriving DecidableEq, Repr

/-- The state of the block: every field of 10_state.md R39, then the constant parameters (R38, log
entry 1), the command port (log entry 3) and the last answer (log entry 4). -/
structure State where
  /-- The parameters of the session; no step changes them (R38). -/
  cfg : Params
  /-- Transport state (R22). -/
  state : Transport
  /-- The device-to-host ring (R23, R24). -/
  tx : Ring
  /-- The host-to-device ring (R23, R24). -/
  rx : Ring
  /-- `rate`, u32 (R25). -/
  rate : Word
  /-- `mute[0 .. CH]`, 1 bit each (R26). -/
  mute : List Bool
  /-- `volume[0 .. CH]`, i16 each (R26). -/
  volume : List Sample
  /-- `out_active` (R27). -/
  outActive : Bool
  /-- `in_active` (R27). -/
  inActive : Bool
  /-- `cfsc`, u32: samples exchanged with the codec during the current USB frame (R28). -/
  cfsc : Word
  /-- `sample_offset`, i16 (R29). -/
  sampleOffset : BitVec 16
  /-- `dwso`, i16 (R30). -/
  dwso : BitVec 16
  /-- `dw_ok`, u16 (R30). -/
  dwOk : BitVec 16
  /-- `corr_interval`, u32 (R31). -/
  corrInterval : Word
  /-- `corr_counter`, u32 (R31). -/
  corrCounter : Word
  /-- `wfc`, the USB frames seen in the current window, 0 .. 99 (R32). -/
  wfc : Fin 100
  /-- `corr_pending` (R33). -/
  corrPending : Bool
  /-- `bphase`, 0 .. 2 (R34). -/
  bphase : Fin 3
  /-- `batch_mode` (R34). -/
  batchMode : BatchMode
  /-- `bb`, the batch buffer of T samples (R34). -/
  bb : List Sample
  /-- `flags`, 4 sticky bits (R35). -/
  flags : BitVec 4
  /-- `ovf_count`, u32 (R36). -/
  ovfCount : Word
  /-- `unf_count`, u32 (R36). -/
  unfCount : Word
  /-- The commands presented and not yet executed, oldest first: the environment's order (R13, R75). -/
  port : List Command
  /-- The answer to the last command executed, `none` before the first. -/
  reply : Option Reply
deriving DecidableEq, Repr

/-- A ring after `rb_init`: every location 0, both cursors 0, empty (10_state.md R39). -/
def Ring.reset : Ring where
  rd := 0
  wr := 0
  used := 0
  buf := []

/-- The state after hardware reset of a block with parameters `p`: the column "hardware reset" of
10_state.md R39, which R280 repeats. Nothing has been presented and nothing answered (log entries 3
and 4). -/
def State.resetOf (p : Params) : State where
  cfg := p
  state := .init
  tx := Ring.reset
  rx := Ring.reset
  rate := 48000
  mute := List.replicate (p.chans + 1) false
  volume := List.replicate (p.chans + 1) 0
  outActive := false
  inActive := false
  cfsc := 0
  sampleOffset := 0
  dwso := 0
  dwOk := 0
  corrInterval := 0
  corrCounter := 0
  wfc := 0
  corrPending := false
  bphase := 0
  batchMode := .none
  bb := List.replicate p.transfer 0
  flags := 0
  ovfCount := 0
  unfCount := 0
  port := []
  reply := none

/-- The machine right after hardware reset (70_reset_and_hazards.md R280), with the reference
parameters (log entry 1). -/
def State.reset : State := State.resetOf Params.reference

end Sys2Proof.Machine
end

