-- ==== Sys2Proof/Machine/Flags.lean ====
section
/-! DEFINITION. The sticky status field `flags` (10_state.md R35), the causes that set its bits
(60_exceptions.md R250), and the `err` output (R42). -/

namespace Sys2Proof.Machine

open Sys2Proof

/-- The events with a cause code, which is a bit of `flags` (60_exceptions.md R250). -/
inductive Cause where
  | overload
  | overflow
  | underflow
  | consistency
deriving DecidableEq, Repr

/-- The bit of `flags` a cause sets (10_state.md R35). -/
def flagBit : Cause → BitVec 4
  | .overload => 0b0001
  | .overflow => 0b0010
  | .underflow => 0b0100
  | .consistency => 0b1000

/-- Sets a cause's bit and leaves the others: flags accumulate by OR (R35, R260). -/
def setFlag (c : Cause) (f : BitVec 4) : BitVec 4 := f ||| flagBit c

/-- The level output `err`: 1 while `flags ≠ 0` (10_state.md R42). -/
def err (s : State) : Bool := decide (s.flags ≠ 0)

/-- The wake pulse of the last command, given by the answer of CODEC_XCHG only (10_state.md R42). -/
def wake (s : State) : Bool :=
  match s.reply with
  | some r => r.wake
  | none => false

end Sys2Proof.Machine
end

