-- ==== Sys2Proof/Machine/Operands.lean ====
section
/-! DEFINITION. Operand forms: the wrap functions of 00_scope.md R10, sample and word conversions
(40_resampler.md R125, R126), payload forms (20_memory.md R70, 30_encoding.md R94), and the values of
the registers `RD_REG` reads (10_state.md R37, R43). -/

namespace Sys2Proof.Machine

open Sys2Proof

/-- `wrap_i16` (R10): the i16 congruent to `v` modulo 2^16. -/
def wrapI16 (v : Int) : BitVec 16 := BitVec.ofInt 16 v

/-- `wrap_u16` (R10). -/
def wrapU16 (v : Int) : BitVec 16 := BitVec.ofInt 16 v

/-- `wrap_u32` (R10). -/
def wrapU32 (v : Int) : Word := BitVec.ofInt 32 v

/-- `v >>a n`, the arithmetic right shift `floor(v / 2^n)` (R11). -/
def sra (v : Int) (n : Nat) : Int := v / (2 ^ n : Int)

/-- `c2s`: the signed value of bits 31:16 of a codec-domain word; the padding 15:0 is ignored
(40_resampler.md R125). -/
def c2s (x : Word) : Sample := x.extractLsb' 16 16

/-- `s2c`: the sample in bits 31:16, zeros in bits 15:0 (40_resampler.md R126). -/
def s2c (v : Sample) : Word := v ++ (0 : BitVec 16)

/-- Silence: `n` zero samples (R12). -/
def silence (n : Nat) : List Sample := List.replicate n 0

/-- Silence on the codec port: `n` zero words (R12). -/
def silentWords (n : Nat) : List Word := List.replicate n 0

/-- The samples of a USB frame's bytes: sample `k` is bytes `2k` (low) and `2k + 1` (high),
two's complement (20_memory.md R70). -/
def samplesOfBytes : List Byte → List Sample
  | lo :: hi :: rest => (hi ++ lo) :: samplesOfBytes rest
  | _ => []

/-- The bytes of a USB frame's samples, little-endian (20_memory.md R70). -/
def bytesOfSamples : List Sample → List Byte
  | [] => []
  | v :: rest => v.extractLsb' 0 8 :: v.extractLsb' 8 8 :: bytesOfSamples rest

/-- The numbering of `state` (10_state.md R22). -/
def transportCode : Transport → BitVec 3
  | .init => 0
  | .fillingUnderflow => 1
  | .normal => 2
  | .codecRemove => 3
  | .codecDuplicate => 4
  | .needsReset => 5

/-- The numbering of `batch_mode` (10_state.md R34). -/
def batchCode : BatchMode → BitVec 2
  | .none => 0
  | .remove => 1
  | .duplicate => 2

/-- The numbering of the response status (30_encoding.md R95). -/
def statusCode : Status → BitVec 2
  | .ok => 0
  | .illegal => 1
  | .rejected => 2

/-- `ID = {0[31:16], BATCHF[15:8], 0[7:6], UNDERFLOW_REFILL[5], RESAMPLED[4], CH[3:0]}`
with `BATCHF = 48` (10_state.md R37, 00_scope.md R5). -/
def idValue (p : Params) : Word :=
  (0 : BitVec 16) ++ (48 : BitVec 8) ++ (0 : BitVec 2) ++ BitVec.ofBool p.underflowRefill
    ++ BitVec.ofBool p.resampled ++ BitVec.ofNat 4 p.chans

/-- The 32-bit value of a register of the index map: signed fields sign-extended, narrower unsigned
fields zero-extended, concatenations as the table has them (10_state.md R43). -/
def readReg (s : State) : Reg → Word
  | .id => idValue s.cfg
  | .state => (transportCode s.state).setWidth 32
  | .rate => s.rate
  | .alt => (0 : BitVec 30) ++ BitVec.ofBool s.inActive ++ BitVec.ofBool s.outActive
  | .flags => s.flags.setWidth 32
  | .ovfCount => s.ovfCount
  | .unfCount => s.unfCount
  | .cap => BitVec.ofNat 32 s.cfg.cap
  | .normalSize => BitVec.ofNat 32 s.cfg.normalSize
  | .underflowMargin => BitVec.ofNat 32 s.cfg.underflowMargin
  | .txUsed => s.tx.used
  | .txRd => s.tx.rd
  | .txWr => s.tx.wr
  | .rxUsed => s.rx.used
  | .rxRd => s.rx.rd
  | .rxWr => s.rx.wr
  | .cfsc => s.cfsc
  | .sampleOffset => s.sampleOffset.signExtend 32
  | .dwso => s.dwso.signExtend 32
  | .dwOk => s.dwOk.setWidth 32
  | .corrInterval => s.corrInterval
  | .corrCounter => s.corrCounter
  | .wfc => BitVec.ofNat 32 s.wfc.val
  | .seq =>
    (0 : BitVec 27) ++ batchCode s.batchMode ++ BitVec.ofNat 2 s.bphase.val
      ++ BitVec.ofBool s.corrPending
  | .mute i => (BitVec.ofBool (s.mute.getD i false)).setWidth 32
  | .vol i => (s.volume.getD i 0).signExtend 32

/-- The rates `SET_RATE` accepts: exactly 44100, 48000 and 96000 (43_control_status.md R223). -/
def rateSupported (r : BitVec 24) : Bool :=
  decide (r.toNat = 44100) || decide (r.toNat = 48000) || decide (r.toNat = 96000)

/-- The all-zero input payload of the shape a command takes, `none` for one that takes none
(30_encoding.md R92, R94). -/
def zeroInput (p : Params) : Instr → Payload
  | .codecXchg => .words (List.replicate p.blockLen 0)
  | .usbSof => .bytes (List.replicate (2 * p.transfer) 0)
  | .rsShrink16 | .rsStretch16 => .samples (List.replicate p.transfer 0)
  | .rsShrink32 | .rsStretch32 => .words (List.replicate p.transfer 0)
  | .nop | .cntAdj _ | .reqReset | .overload | .setRate _ | .setMute _ _ | .setVol _ _
  | .setAlt _ _ | .rdReg _ | .rdFlags => .none

/-- Two payloads have the same element width and length: the shape of R94. -/
def sameShape : Payload → Payload → Bool
  | .none, .none => true
  | .bytes a, .bytes b => decide (a.length = b.length)
  | .samples a, .samples b => decide (a.length = b.length)
  | .words a, .words b => decide (a.length = b.length)
  | _, _ => false

end Sys2Proof.Machine
end

