-- ==== Sys2Proof/Machine/Interp.lean ====
section
/-! DEFINITION. The interpolation operator of 40_resampler.md R120 to R124 as pure functions: it reads
and writes no field of State. -/

namespace Sys2Proof.Machine

open Sys2Proof

/-- `lerp(a, b, f) = a + (((b - a) * f) >>a 16)`, with the product exact (R120). -/
def lerp (a b f : Int) : Int := a + sra ((b - a) * f) 16

/-- `lerp` on samples: by R120 (c) the value is an i16 for every fraction in `0 .. 65536`, so no wrap
ever acts. -/
def lerpSample (a b : Sample) (f : Nat) : Sample := wrapI16 (lerp a.toInt b.toInt f)

/-- `STEP_SHRINK = floor(65536 / 46)` (R121). -/
def stepShrink : Nat := 1424

/-- `STEP_STRETCH = floor(65536 * 47 / 48)` (R122). -/
def stepStretch : Nat := 64170

/-- The sample of frame `j`, channel `c` of an interleaved list (40_resampler.md section 3). -/
def frameSample (ch : Nat) (src : List Sample) (j c : Nat) : Sample := src.getD (j * ch + c) 0

/-- One output frame: every channel between source frames `j` and `j + 1` at fraction `f`. -/
def lerpFrame (ch : Nat) (src : List Sample) (j f : Nat) : List Sample :=
  (List.range ch).map fun c => lerpSample (frameSample ch src j c) (frameSample ch src (j + 1) c) f

/-- `shrink(src)`: 47 frames from 48 (R123). -/
def shrink (ch : Nat) (src : List Sample) : List Sample :=
  (List.range 47).flatMap fun i => lerpFrame ch src i (stepShrink * i)

/-- `stretch(src)`: 49 frames from 48 (R124). The position `64170 * i` is split into the source frame,
its bits 21:16, and the fraction, its bits 15:0. -/
def stretch (ch : Nat) (src : List Sample) : List Sample :=
  (List.range 49).flatMap fun i =>
    lerpFrame ch src (stepStretch * i / 65536) (stepStretch * i % 65536)

end Sys2Proof.Machine
end

