-- ==== Sys2Proof/Machine/Ops.lean ====
section
/-! DEFINITION. The named operations: ring storage (20_memory.md R61), the ring primitives (R64 to R67),
the error actions (60_exceptions.md R251 to R253) as one operation, the recovery from them
(42_transport.md R172), and the command port (30_encoding.md R90, R94, R95). -/

namespace Sys2Proof.Machine

open Sys2Proof

/-! ## Storage -/

/-- The sample at one location; an unlisted location holds 0 (10_state.md R39, log entry 6). -/
def memRead : Memory → Nat → Sample
  | [], _ => 0
  | (b, w) :: m, a => if a = b then w else memRead m a

/-- Puts a location in front of a storage whose addresses are higher; a location that holds 0 is not
listed. -/
def memCons (a : Nat) (v : Sample) (m : Memory) : Memory := if v = 0 then m else (a, v) :: m

/-- Stores one sample, keeping the canonical form. -/
def memWrite : Memory → Nat → Sample → Memory
  | [], a, v => memCons a v []
  | (b, w) :: m, a, v =>
    if a < b then memCons a v ((b, w) :: m)
    else if a = b then memCons a v m
    else (b, w) :: memWrite m a v

/-- `a mod CAP`, in `0 .. CAP - 1` also for a negative `a` (00_scope.md R10, 20_memory.md R61). -/
def wrapAddr (cap : Nat) (a : Int) : Nat := (a % (cap : Int)).toNat

/-- `MemRead(space, a, n)`: the samples at `(a + k) mod CAP`, `k = 0 .. n - 1` (20_memory.md R61). -/
def memReadRun (cap : Nat) (m : Memory) (a : Int) (n : Nat) : List Sample :=
  (List.range n).map fun k : Nat => memRead m (wrapAddr cap (a + (k : Int)))

/-- `MemWrite(space, a, n, v)`: stores `v[k]` at `(a + k) mod CAP` (20_memory.md R61). -/
def memWriteRun (cap : Nat) (m : Memory) (a : Int) : List Sample → Memory
  | [] => m
  | v :: vs => memWriteRun cap (memWrite m (wrapAddr cap a) v) (a + 1) vs

/-! ## Ring primitives -/

/-- `consistent(rb)`: `used ≤ CAP` and `used mod CAP = (wr - rd) mod CAP` (20_memory.md R67). -/
def consistent (cap : Nat) (r : Ring) : Bool :=
  decide (r.used.toNat ≤ cap)
    && decide ((r.used.toNat : Int) % cap = ((r.wr.toNat : Int) - r.rd.toNat) % cap)

/-- `rb_write(rb, v)` (20_memory.md R64). The caller has checked `used + n ≤ CAP`. -/
def rbWrite (cap : Nat) (r : Ring) (v : List Sample) : Ring :=
  { r with
    buf := memWriteRun cap r.buf r.wr.toNat v
    wr := wrapU32 ((r.wr.toNat + v.length) % cap : Nat)
    used := wrapU32 (r.used.toNat + v.length) }

/-- `rb_peek(rb, n)`: the `n` oldest samples; nothing changes (20_memory.md R65). -/
def rbPeek (cap : Nat) (r : Ring) (n : Nat) : List Sample := memReadRun cap r.buf r.rd.toNat n

/-- The cursor move of `rb_read`: `rd` forward by `n`, `used` down by `n` (20_memory.md R65). The caller
has checked `used ≥ n`. -/
def rbAdvance (cap : Nat) (r : Ring) (n : Nat) : Ring :=
  { r with
    rd := wrapU32 ((r.rd.toNat + n) % cap : Nat)
    used := wrapU32 ((r.used.toNat : Int) - n) }

/-- `rb_read(rb, n)`: the `n` oldest samples and the ring after them; storage is unchanged
(20_memory.md R65). -/
def rbRead (cap : Nat) (r : Ring) (n : Nat) : List Sample × Ring := (rbPeek cap r n, rbAdvance cap r n)

/-- `rb_init(rb)`: every location 0, cursors 0, empty (20_memory.md R66). -/
def rbInit (_ : Ring) : Ring := Ring.reset

/-! ## Error actions and recovery -/

/-- `raise Overflow`, `raise Underflow`, `raise Consistency` (60_exceptions.md R251, R252, R253): the
cause's flag bit, the cause's counter where it has one, and `state <- NeedsReset`. Nothing is saved, no
control is transferred (R258). The cause `overload` is the effect R254 gives the OVERLOAD command: its
flag bit and `NeedsReset`, no counter. -/
def raise (c : Cause) (s : State) : State :=
  { s with
    flags := setFlag c s.flags
    ovfCount := if c = .overflow then wrapU32 (s.ovfCount.toNat + 1) else s.ovfCount
    unfCount := if c = .underflow then wrapU32 (s.unfCount.toNat + 1) else s.unfCount
    state := .needsReset }

/-- `if b: raise c`. -/
def raiseIf (b : Bool) (c : Cause) (s : State) : State := if b then raise c s else s

/-- `transport_reinit()`, the recovery from NeedsReset (42_transport.md R172, 60_exceptions.md R259):
both rings zeroed and emptied, `state = Init`, the sequencing fields cleared; nothing else. -/
def transportReinit (s : State) : State :=
  { s with
    tx := rbInit s.tx
    rx := rbInit s.rx
    state := .init
    corrPending := false
    bphase := 0
    batchMode := .none
    bb := silence s.cfg.transfer }

/-! ## Classes of transport states -/

/-- The priming states, `Init` and `FillingUnderflow` (10_state.md R22). -/
def isPriming : Transport → Bool
  | .init | .fillingUnderflow => true
  | .normal | .codecRemove | .codecDuplicate | .needsReset => false

/-- The steady states, `Normal`, `CodecRemove` and `CodecDuplicate` (10_state.md R22). -/
def isSteady : Transport → Bool
  | .normal | .codecRemove | .codecDuplicate => true
  | .init | .fillingUnderflow | .needsReset => false

/-! ## The command port -/

/-- The command the environment presents next, if any (00_scope.md R13). -/
def fetch (s : State) : Option Command := s.port.head?

/-- The input payload of the command being executed, the oldest of the port (30_encoding.md R90). -/
def inPayload (s : State) : Payload :=
  match fetch s with
  | some c => c.payload
  | none => .none

/-- `resp(status, data)` and the output payload (30_encoding.md R95). -/
def respond (status : Status) (data : Word) (out : Payload) (s : State) : State :=
  { s with reply := some { status := status, data := data, out := out, wake := false } }

/-- The answer of CODEC_XCHG: `resp(OK, 0)`, its output words, and the wake pulse (42_transport.md
R173, 10_state.md R42). -/
def respondWake (out : List Word) (s : State) : State :=
  { s with reply := some { status := .ok, data := 0, out := .words out, wake := true } }

/-- A command that takes no payload: it is presented with none (30_encoding.md R94). -/
def withNone (s : State) (f : State → State) : Host.Outcome State Fault Refusal :=
  match inPayload s with
  | .none => .next (f s)
  | _ => .refused .payloadShape

/-- A command whose payload is `n` words (30_encoding.md R94). -/
def withWords (n : Nat) (s : State) (f : List Word → State → State) :
    Host.Outcome State Fault Refusal :=
  match inPayload s with
  | .words l => if l.length = n then .next (f l s) else .refused .payloadShape
  | _ => .refused .payloadShape

/-- A command whose payload is `n` bytes (30_encoding.md R94). -/
def withBytes (n : Nat) (s : State) (f : List Byte → State → State) :
    Host.Outcome State Fault Refusal :=
  match inPayload s with
  | .bytes l => if l.length = n then .next (f l s) else .refused .payloadShape
  | _ => .refused .payloadShape

/-- A command whose payload is `n` 16-bit values (30_encoding.md R94). -/
def withSamples (n : Nat) (s : State) (f : List Sample → State → State) :
    Host.Outcome State Fault Refusal :=
  match inPayload s with
  | .samples l => if l.length = n then .next (f l s) else .refused .payloadShape
  | _ => .refused .payloadShape

/-- The command has been executed: it leaves the port, and the next one is presented. -/
def retire : Host.Outcome State Fault Refusal → Host.Outcome State Fault Refusal
  | .next t => .next { t with port := t.port.tail }
  | .fault r => .fault r
  | .refused r => .refused r

end Sys2Proof.Machine
end

