-- ==== Sys2Proof/Machine/Codec.lean ====
section
/-! DEFINITION. CODEC_XCHG, the codec-side exchange (42_transport.md R173 to R179). -/

namespace Sys2Proof.Machine

open Sys2Proof

/-- The correction a pending marker asks for: `Remove` if `state = CodecRemove`, else `Duplicate`
(R176, R177). -/
def correctionMode (s : State) : BatchMode :=
  if s.corrPending then (if s.state = .codecRemove then .remove else .duplicate) else .none

/-- The number of samples an exchange of `n` moves under a correction: `n`, `n - CH` or `n + CH`
(R176, R178). -/
def correctedLen (p : Params) (m : BatchMode) (n : Nat) : Nat :=
  match m with
  | .none => n
  | .remove => n - p.chans
  | .duplicate => n + p.chans

/-- CODEC_XCHG in a priming state: fill TX up to NORMAL_SIZE, then hold; the codec gets silence
(R175). -/
def codecPriming (smp : List Sample) (s : State) : State × List Word :=
  let n := min s.cfg.blockLen (s.cfg.normalSize - s.tx.used.toNat)
  ((if 0 < n then { s with tx := rbWrite s.cfg.cap s.tx (smp.take n) } else s),
    silentWords s.cfg.blockLen)

/-- What the non-resampled strategy stores of a block: all of it, without its last frame, or with its
last frame twice (R176). -/
def directBlock (p : Params) (m : BatchMode) (smp : List Sample) : List Sample :=
  match m with
  | .none => smp
  | .remove => smp.take (p.blockLen - p.chans)
  | .duplicate => smp ++ smp.drop (p.blockLen - p.chans)

/-- CODEC_XCHG in a steady state, RESAMPLED = 0 (R176): both ring checks first, then the exchange. -/
def codecDirect (smp : List Sample) (s : State) : State × List Word :=
  let p := s.cfg
  let mode := correctionMode s
  let txd := directBlock p mode smp
  let adv := correctedLen p mode p.blockLen
  let txOk := decide (s.tx.used.toNat + txd.length ≤ p.cap)
  let rxOk := decide (max p.blockLen adv ≤ s.rx.used.toNat)
  if txOk && rxOk then
    ({ s with
        tx := rbWrite p.cap s.tx txd
        rx := rbAdvance p.cap s.rx adv
        corrPending := if mode = .none then s.corrPending else false },
      (rbPeek p.cap s.rx p.blockLen).map s2c)
  else
    (raiseIf (!rxOk) .underflow (raiseIf (!txOk) .overflow s), silentWords p.blockLen)

/-- The batch mode that governs this block: chosen at the batch start, kept for the rest of the batch
(R177). -/
def currentBatchMode (s : State) : BatchMode :=
  if s.bphase = 0 then correctionMode s else s.batchMode

/-- This block starts a batch that carries a correction. -/
def correctingStart (s : State) : Bool :=
  decide (s.bphase = 0) && decide (currentBatchMode s ≠ .none)

/-- The samples of RX the block can read, after the in-place correction if there is one: the `u` of
R179. -/
def availableRx (s : State) : Int :=
  if correctingStart s then
    (if currentBatchMode s = .remove then (s.rx.used.toNat : Int) + s.cfg.chans
      else (s.rx.used.toNat : Int) - s.cfg.chans)
  else s.rx.used.toNat

/-- The underflow check of R179. -/
def resampledUnf (s : State) : Bool :=
  (correctingStart s && decide (s.rx.used.toNat < s.cfg.transfer))
    || decide (availableRx s < s.cfg.blockLen)

/-- The overflow check of R179. -/
def resampledOvf (s : State) : Bool :=
  (correctingStart s && decide (currentBatchMode s = .remove)
      && decide (s.cfg.cap < s.rx.used.toNat + s.cfg.chans))
    || (decide (s.bphase = 2)
      && decide (s.cfg.cap <
          s.tx.used.toNat + correctedLen s.cfg (currentBatchMode s) s.cfg.transfer))

/-- The in-place correction of RX at a batch start (R177, R128): the 48 oldest frames become 49,
written starting one frame before the block, or 47, written one frame after. -/
def rxCorrect (p : Params) (m : BatchMode) (r : Ring) : Ring :=
  match m with
  | .none => r
  | .remove =>
    { r with
      rd := wrapU32 (wrapAddr p.cap ((r.rd.toNat : Int) - p.chans))
      buf := memWriteRun p.cap r.buf (wrapAddr p.cap ((r.rd.toNat : Int) - p.chans))
        (stretch p.chans (rbPeek p.cap r p.transfer))
      used := wrapU32 (r.used.toNat + p.chans) }
  | .duplicate =>
    { r with
      rd := wrapU32 (wrapAddr p.cap ((r.rd.toNat : Int) + p.chans))
      buf := memWriteRun p.cap r.buf (wrapAddr p.cap ((r.rd.toNat : Int) + p.chans))
        (shrink p.chans (rbPeek p.cap r p.transfer))
      used := wrapU32 ((r.used.toNat : Int) - p.chans) }

/-- The batch start (R177), once the checks of R179 have passed: choose the mode, claim the
correction, correct RX in place. -/
def batchStart (s : State) : State :=
  if s.bphase = 0 then
    { s with
      batchMode := correctionMode s
      corrPending := if correctionMode s = .none then s.corrPending else false
      rx := rxCorrect s.cfg (correctionMode s) s.rx }
  else s

/-- What a complete batch puts into TX (R178). -/
def batchOutput (p : Params) (m : BatchMode) (bb : List Sample) : List Sample :=
  match m with
  | .none => bb
  | .remove => shrink p.chans bb
  | .duplicate => stretch p.chans bb

/-- `bb[p*N .. (p+1)*N) <- smp` (R178). -/
def putBlock (n phase : Nat) (bb smp : List Sample) : List Sample :=
  bb.take (phase * n) ++ smp ++ bb.drop ((phase + 1) * n)

/-- Every block of a batch (R178), after the batch start: read RX, collect the block, and at the batch
end write TX. -/
def batchBlock (smp : List Sample) (s : State) : State × List Word :=
  let p := s.cfg
  let bb := putBlock p.blockLen s.bphase.val s.bb smp
  let s1 := { s with rx := rbAdvance p.cap s.rx p.blockLen, bb := bb }
  ((if h : s.bphase.val < 2 then
      { s1 with bphase := ⟨s.bphase.val + 1, by omega⟩ }
    else
      { s1 with
        tx := rbWrite p.cap s.tx (batchOutput p s.batchMode bb)
        bphase := 0
        batchMode := .none }),
    (rbPeek p.cap s.rx p.blockLen).map s2c)

/-- CODEC_XCHG in a steady state, RESAMPLED = 1 (R177 to R179): every check first, then the batch. -/
def codecResampled (smp : List Sample) (s : State) : State × List Word :=
  if resampledOvf s || resampledUnf s then
    (raiseIf (resampledUnf s) .underflow (raiseIf (resampledOvf s) .overflow s),
      silentWords s.cfg.blockLen)
  else batchBlock smp (batchStart s)

/-- The exchange after the `cfsc` update (R173): NeedsReset first, then the consistency check, then the
behaviour of the transport state (priority R257). -/
def codecExchange (d2h : List Word) (s : State) : State × List Word :=
  if s.state = .needsReset then (transportReinit s, silentWords s.cfg.blockLen)
  else if !(consistent s.cfg.cap s.tx && consistent s.cfg.cap s.rx) then
    (raise .consistency s, silentWords s.cfg.blockLen)
  else if isPriming s.state then codecPriming (d2h.map c2s) s
  else if s.cfg.resampled then codecResampled (d2h.map c2s) s
  else codecDirect (d2h.map c2s) s

/-- `cfsc <- wrap_u32(cfsc + N)`, first, in every state (R173). -/
def countBlock (s : State) : State :=
  { s with cfsc := wrapU32 (s.cfsc.toNat + s.cfg.blockLen) }

/-- `CODEC_XCHG` (R173): always answers OK, with the wake pulse. -/
def execCodecXchg (s : State) : Host.Outcome State Fault Refusal :=
  withWords s.cfg.blockLen s fun d2h s =>
    respondWake (codecExchange d2h (countBlock s)).2 (codecExchange d2h (countBlock s)).1

end Sys2Proof.Machine
end

