-- ==== Sys2Proof/Machine/Control.lean ====
section
/-! DEFINITION. The control and status commands (43_control_status.md R220 to R228). Each is legal in
every transport state. -/

namespace Sys2Proof.Machine

open Sys2Proof

/-- `NOP` (R220). -/
def execNop (s : State) : Host.Outcome State Fault Refusal := withNone s (respond .ok 0 .none)

/-- `REQ_RESET` (R221): `state <- NeedsReset`, no flag. -/
def execReqReset (s : State) : Host.Outcome State Fault Refusal :=
  withNone s fun s => respond .ok 0 .none { s with state := .needsReset }

/-- `OVERLOAD` (R222, R254): the OVERLOAD flag and `state <- NeedsReset`. -/
def execOverload (s : State) : Host.Outcome State Fault Refusal :=
  withNone s fun s => respond .ok 0 .none (raise .overload s)

/-- `SET_RATE imm24` (R223): a rate that is not supported is REJECTED, state unchanged (R255). -/
def execSetRate (imm : BitVec 24) (s : State) : Host.Outcome State Fault Refusal :=
  withNone s fun s =>
    if rateSupported imm then respond .ok 0 .none { s with rate := imm.setWidth 32 }
    else respond .rejected 0 .none s

/-- `SET_MUTE a, m` (R224); an index above CH is answered ILLEGAL (R96 c, log entry 12). -/
def execSetMute (a : BitVec 8) (m : Bool) (s : State) : Host.Outcome State Fault Refusal :=
  withNone s fun s =>
    if chanIndexOk s.cfg.ch a then respond .ok 0 .none { s with mute := s.mute.set a.toNat m }
    else respond .illegal 0 .none s

/-- `SET_VOL a, imm16` (R225); an index above CH is answered ILLEGAL (R96 c, log entry 12). -/
def execSetVol (a : BitVec 8) (imm : BitVec 16) (s : State) : Host.Outcome State Fault Refusal :=
  withNone s fun s =>
    if chanIndexOk s.cfg.ch a then
      respond .ok 0 .none { s with volume := s.volume.set a.toNat imm }
    else respond .illegal 0 .none s

/-- `SET_ALT imm16` (R226). -/
def execSetAlt (out inn : Bool) (s : State) : Host.Outcome State Fault Refusal :=
  withNone s fun s => respond .ok 0 .none { s with outActive := out, inActive := inn }

/-- `RD_REG a` (R227): the value of index `a`, no side effect; an index outside the map is answered
ILLEGAL (R96 e, log entry 12). -/
def execRdReg (a : BitVec 8) (s : State) : Host.Outcome State Fault Refusal :=
  withNone s fun s =>
    match regOfIndex s.cfg.ch a with
    | some r => respond .ok (readReg s r) .none s
    | none => respond .illegal 0 .none s

/-- `RD_FLAGS` (R228): returns all four bits and clears all four. -/
def execRdFlags (s : State) : Host.Outcome State Fault Refusal :=
  withNone s fun s => respond .ok (s.flags.setWidth 32) .none { s with flags := 0 }

end Sys2Proof.Machine
end

