-- ==== Sys2Proof/Machine/Resampler.lean ====
section
/-! DEFINITION. The standalone resampler commands (40_resampler.md R129 to R132). They touch no state
field, in any transport state. -/

namespace Sys2Proof.Machine

open Sys2Proof

/-- `RS_SHRINK16` (R129). -/
def execRsShrink16 (s : State) : Host.Outcome State Fault Refusal :=
  withSamples s.cfg.transfer s fun src => respond .ok 0 (.samples (shrink s.cfg.chans src))

/-- `RS_STRETCH16` (R130). -/
def execRsStretch16 (s : State) : Host.Outcome State Fault Refusal :=
  withSamples s.cfg.transfer s fun src => respond .ok 0 (.samples (stretch s.cfg.chans src))

/-- `RS_SHRINK32` (R131). -/
def execRsShrink32 (s : State) : Host.Outcome State Fault Refusal :=
  withWords s.cfg.transfer s fun p =>
    respond .ok 0 (.words ((shrink s.cfg.chans (p.map c2s)).map s2c))

/-- `RS_STRETCH32` (R132). -/
def execRsStretch32 (s : State) : Host.Outcome State Fault Refusal :=
  withWords s.cfg.transfer s fun p =>
    respond .ok 0 (.words ((stretch s.cfg.chans (p.map c2s)).map s2c))

end Sys2Proof.Machine
end

