-- ==== Sys2Proof/Machine/Drift.lean ====
section
/-! DEFINITION. The drift tracker (41_drift.md): the per-frame step run inside every USB_SOF, the window
evaluation, and the command CNT_ADJ. -/

namespace Sys2Proof.Machine

open Sys2Proof

/-- Accumulate and clear: `dwso <- wrap_i16(dwso + (cfsc - NOMINAL))`, then `cfsc <- 0`
(R151, R152). -/
def driftAccumulate (s : State) : State :=
  { s with
    dwso := wrapI16 (s.dwso.toInt + ((s.cfsc.toNat : Int) - s.cfg.nominal))
    cfsc := 0 }

/-- The correction interval of R154 with the guard of R155: the divisor `abs(sample_offset) >>a 1`, 0
replaced by 1; floor division; doubled for four channels; raised to MIN_INTERVAL. -/
def intervalOf (p : Params) (offset dwOk : BitVec 16) : Nat :=
  let d := offset.toInt.natAbs / 2
  let ci := 100 * (dwOk.toNat + 1) / (if d = 0 then 1 else d)
  let ci := if p.ch = .four then 2 * ci else ci
  if ci < p.minInterval then p.minInterval else ci

/-- A dirty window (R154): the sum goes into `sample_offset`, the interval is computed from the new
offset and the old `dw_ok`, and `dw_ok` is cleared. -/
def windowDirty (s : State) : State :=
  let offset := wrapI16 (s.sampleOffset.toInt + s.dwso.toInt)
  { s with
    sampleOffset := offset
    corrInterval := wrapU32 (intervalOf s.cfg offset s.dwOk)
    dwOk := 0 }

/-- A clean window (R156). -/
def windowClean (s : State) : State := { s with dwOk := wrapU16 (s.dwOk.toNat + 1) }

/-- The end of a window (R154 or R156, then R157). -/
def windowEnd (s : State) : State :=
  { (if s.dwso = 0 then windowClean s else windowDirty s) with dwso := 0, wfc := 0 }

/-- `drift_frame()` (R150): accumulate, clear, count the frame, and evaluate the window when it is the
100th frame (R153). -/
def driftFrame (s : State) : State :=
  let s := driftAccumulate s
  if h : s.wfc.val + 1 < 100 then { s with wfc := ⟨s.wfc.val + 1, h⟩ } else windowEnd s

/-- `CNT_ADJ imm16` (R158): `cfsc <- wrap_u32(cfsc + sext_16(imm16))`. -/
def execCntAdj (imm : BitVec 16) (s : State) : Host.Outcome State Fault Refusal :=
  withNone s fun s =>
    respond .ok 0 .none { s with cfsc := wrapU32 ((s.cfsc.toNat : Int) + imm.toInt) }

end Sys2Proof.Machine
end

