-- ==== Sys2Proof/Machine/Usb.lean ====
section
/-! DEFINITION. USB_SOF, the USB-side exchange (42_transport.md R180 to R187). -/

namespace Sys2Proof.Machine

open Sys2Proof

/-- Priming exit and clamp (R183): TX exactly full and at least two frames in RX; the newest `2 T`
samples of RX are kept. -/
def primingExit (s : State) : State :=
  if s.tx.used.toNat = s.cfg.normalSize ∧ 2 * s.cfg.transfer ≤ s.rx.used.toNat then
    { s with
      rx := { s.rx with
        rd := wrapU32 (wrapAddr s.cfg.cap ((s.rx.wr.toNat : Int) - 2 * s.cfg.transfer))
        used := wrapU32 (2 * s.cfg.transfer) }
      state := .normal }
  else s

/-- USB_SOF in a priming state (R182): store the frame or raise Overflow; the host gets silence. -/
def usbPriming (rxf : List Sample) (s : State) : State × List Sample :=
  ((if s.cfg.cap < s.rx.used.toNat + s.cfg.transfer then raise .overflow s
    else primingExit { s with rx := rbWrite s.cfg.cap s.rx rxf }),
    silence s.cfg.transfer)

/-- Leaving a correction state once its correction has been claimed, and counting the frame (R186). -/
def leaveCorrection (s : State) : State :=
  { s with
    state := if (s.state = .codecRemove ∨ s.state = .codecDuplicate) ∧ s.corrPending = false
      then .normal else s.state
    corrCounter := wrapU32 (s.corrCounter.toNat + 1) }

/-- Correction scheduling (R187): a positive offset removes, a negative one duplicates, and the offset
moves by exactly CH. -/
def schedule (s : State) : State :=
  if s.state = .normal ∧ s.sampleOffset ≠ 0 ∧ s.corrInterval.toNat ≤ s.corrCounter.toNat then
    if 0 < s.sampleOffset.toInt then
      { s with
        corrCounter := 0
        corrPending := true
        state := .codecRemove
        sampleOffset := wrapI16 (s.sampleOffset.toInt - s.cfg.chans) }
    else
      { s with
        corrCounter := 0
        corrPending := true
        state := .codecDuplicate
        sampleOffset := wrapI16 (s.sampleOffset.toInt + s.cfg.chans) }
  else s

/-- A steady-state frame whose checks failed (R185): raise what failed, then refill if the parameter
says so and only TX was short. -/
def usbFailed (txOk rxOk : Bool) (s : State) : State :=
  let e := raiseIf (!rxOk) .overflow (raiseIf (!txOk) .underflow s)
  if s.cfg.underflowRefill && !txOk && rxOk then
    { e with
      state := .fillingUnderflow
      corrPending := false
      bphase := 0
      batchMode := .none }
  else e

/-- USB_SOF in a steady state (R184): a frame is transferred both ways or not at all. -/
def usbSteady (rxf : List Sample) (s : State) : State × List Sample :=
  let p := s.cfg
  let txOk := decide (p.transfer ≤ s.tx.used.toNat)
  let rxOk := decide (s.rx.used.toNat + p.transfer ≤ p.cap)
  if txOk && rxOk then
    (schedule (leaveCorrection
        { s with
          tx := (rbRead p.cap s.tx p.transfer).2
          rx := rbWrite p.cap s.rx rxf }),
      (rbRead p.cap s.tx p.transfer).1)
  else (usbFailed txOk rxOk s, silence p.transfer)

/-- The exchange after `drift_frame()` (R180): NeedsReset first (R181), then the consistency check, then
the behaviour of the transport state (priority R257). -/
def usbExchange (rxf : List Sample) (s : State) : State × List Sample :=
  if s.state = .needsReset then (s, silence s.cfg.transfer)
  else if !(consistent s.cfg.cap s.tx && consistent s.cfg.cap s.rx) then
    (raise .consistency s, silence s.cfg.transfer)
  else if isPriming s.state then usbPriming rxf s
  else usbSteady rxf s

/-- `USB_SOF` (R180): `drift_frame()` first, in every state; always answers OK. -/
def execUsbSof (s : State) : Host.Outcome State Fault Refusal :=
  withBytes (2 * s.cfg.transfer) s fun rxb s =>
    respond .ok 0 (.bytes (bytesOfSamples (usbExchange (samplesOfBytes rxb) (driftFrame s)).2))
      (usbExchange (samplesOfBytes rxb) (driftFrame s)).1

end Sys2Proof.Machine
end

