-- ==== Sys2Proof/Machine/Dispatch.lean ====
section
/-! DEFINITION. One arm per command: the meaning of every row of spec/opcode_table.json. -/

namespace Sys2Proof.Machine

open Sys2Proof

def exec (i : Instr) (s : State) : Host.Outcome State Fault Refusal :=
  match i with
  | .nop => Sys2Proof.Machine.execNop s
  | .codecXchg => Sys2Proof.Machine.execCodecXchg s
  | .usbSof => Sys2Proof.Machine.execUsbSof s
  | .cntAdj imm => Sys2Proof.Machine.execCntAdj imm s
  | .reqReset => Sys2Proof.Machine.execReqReset s
  | .overload => Sys2Proof.Machine.execOverload s
  | .setRate imm => Sys2Proof.Machine.execSetRate imm s
  | .setMute a m => Sys2Proof.Machine.execSetMute a m s
  | .setVol a imm => Sys2Proof.Machine.execSetVol a imm s
  | .setAlt out inn => Sys2Proof.Machine.execSetAlt out inn s
  | .rdReg a => Sys2Proof.Machine.execRdReg a s
  | .rdFlags => Sys2Proof.Machine.execRdFlags s
  | .rsShrink16 => Sys2Proof.Machine.execRsShrink16 s
  | .rsStretch16 => Sys2Proof.Machine.execRsStretch16 s
  | .rsShrink32 => Sys2Proof.Machine.execRsShrink32 s
  | .rsStretch32 => Sys2Proof.Machine.execRsStretch32 s

end Sys2Proof.Machine
end

