-- ==== Sys2Proof/Machine/Step.lean ====
section
/-! DEFINITION. One step of the machine: the next command of the port, executed whole
(00_scope.md R13). -/

namespace Sys2Proof.Machine

open Sys2Proof

/-- One command is one step (R13, R296). With nothing presented the block holds its state (60_exceptions.md
R268, log entry 3). An illegal word is answered `resp(ILLEGAL, 0)`, with no state change and no output
payload (30_encoding.md R96). -/
def step (s : State) : Host.Outcome State Fault Refusal :=
  match fetch s with
  | none => .next s
  | some c =>
    match decode s.cfg.ch c.cw with
    | .command i => retire (exec i s)
    | .illegal _ => retire (.next (respond .illegal 0 .none s))

/-- The command whose word has the bits `w`, presented as the next one, with an all-zero payload of the
shape it takes (log entry 10). -/
def State.withFetchWord (s : State) (nbits w : Nat) : State :=
  let cw : Word := BitVec.ofNat 32 (w % 2 ^ nbits)
  let payload :=
    match decode s.cfg.ch cw with
    | .command i => zeroInput s.cfg i
    | .illegal _ => .none
  { s with port := { cw := cw, payload := payload } :: s.port }

end Sys2Proof.Machine
end

