-- ==== Sys2Proof/Safety.lean ====
section
/-! DEFINITION. What a sound state of ERB-1 is (10_state.md R40, R41; 42_transport.md R188), and the
relations in which the statements speak of rings, registers and silence. -/

namespace Sys2Proof.Machine

open Sys2Proof

/-! ## Sound states -/

/-- A ring as every command leaves it (10_state.md R23, R40, R41): occupancy and cursors in range, `used`
in agreement with the cursors, whole frames, and a canonical storage of CAP locations. -/
structure RingOk (p : Params) (r : Ring) : Prop where
  /-- `used` is in `0 .. CAP` (R23, R40). -/
  used_le : r.used.toNat ≤ p.cap
  /-- `rd` is in `0 .. CAP - 1` (R23). -/
  rd_lt : r.rd.toNat < p.cap
  /-- `wr` is in `0 .. CAP - 1` (R23). -/
  wr_lt : r.wr.toNat < p.cap
  /-- `used mod CAP = (wr - rd) mod CAP` (R40, 20_memory.md R67). -/
  cursors : consistent p.cap r = true
  /-- `used` is whole frames (R41). -/
  used_frames : r.used.toNat % p.chans = 0
  /-- `rd` is on a frame boundary (R41). -/
  rd_frames : r.rd.toNat % p.chans = 0
  /-- `wr` is on a frame boundary (R41). -/
  wr_frames : r.wr.toNat % p.chans = 0
  /-- The storage is in its canonical form (log entry 6). -/
  buf_wf : r.buf.wf = true
  /-- The storage has the locations `0 .. CAP - 1` and no other (R24). -/
  buf_lt : ∀ c ∈ r.buf, c.1 < p.cap

/-- The invariant of the machine: what holds at reset and after every command
(10_state.md R22 to R41, 42_transport.md R188). -/
structure Inv (s : State) : Prop where
  /-- TX is sound (R40, R41). -/
  tx : RingOk s.cfg s.tx
  /-- RX is sound (R40, R41). -/
  rx : RingOk s.cfg s.rx
  /-- `mute` has CH + 1 entries (R26). -/
  mute_len : s.mute.length = s.cfg.chans + 1
  /-- `volume` has CH + 1 entries (R26). -/
  volume_len : s.volume.length = s.cfg.chans + 1
  /-- `bb` has T samples (R34). -/
  bb_len : s.bb.length = s.cfg.transfer
  /-- `rate` is one of the three values SET_RATE accepts (R25). -/
  rate_ok : s.rate = 44100 ∨ s.rate = 48000 ∨ s.rate = 96000
  /-- `corr_pending = 1` only in a correction state or in NeedsReset (R188 c). -/
  pending : s.corrPending = true →
    s.state = .codecRemove ∨ s.state = .codecDuplicate ∨ s.state = .needsReset
  /-- A batch mode is held only inside a batch of the resampled strategy (R188 d). -/
  batch : s.batchMode ≠ .none → s.cfg.resampled = true ∧ s.bphase ≠ 0
  /-- With RESAMPLED = 0 the batch window keeps its reset values for ever (R34). -/
  direct : s.cfg.resampled = false →
    s.bphase = 0 ∧ s.batchMode = .none ∧ s.bb = silence s.cfg.transfer
  /-- Priming starts with nothing pending and no batch, and TX never passes NORMAL_SIZE (R172, R175,
  R185). -/
  priming : isPriming s.state = true →
    s.corrPending = false ∧ s.bphase = 0 ∧ s.batchMode = .none ∧
      s.tx.used.toNat ≤ s.cfg.normalSize
  /-- In `Init`, `tx.used` is a multiple of `N` (R175). -/
  init_blocks : s.state = .init → s.tx.used.toNat % s.cfg.blockLen = 0
  /-- `FillingUnderflow` is reachable only with UNDERFLOW_REFILL = 1 (90_conflicts.md C2). -/
  refill : s.state = .fillingUnderflow → s.cfg.underflowRefill = true
  /-- `corr_interval = 0` only before any offset has been measured (R161 e). -/
  interval : s.corrInterval = 0 → s.sampleOffset = 0

/-! ## What the statements say of rings -/

/-- The `n` oldest samples of a ring: the locations from `rd` forward, wrapping (20_memory.md R61,
R65). -/
def oldest (cap : Nat) (r : Ring) (n : Nat) : List Sample :=
  (List.range n).map fun k : Nat => memRead r.buf ((r.rd.toNat + k) % cap)

/-- `r'` is `r` with the samples `v` stored at its write cursor and nothing else changed
(20_memory.md R64): every location outside the run reads as before. -/
def Stored (cap : Nat) (r r' : Ring) (v : List Sample) : Prop :=
  r'.rd = r.rd
    ∧ r'.wr.toNat = (r.wr.toNat + v.length) % cap
    ∧ r'.used.toNat = r.used.toNat + v.length
    ∧ (∀ (k : Nat) (h : k < v.length), memRead r'.buf ((r.wr.toNat + k) % cap) = v[k])
    ∧ (∀ a : Nat, (∀ k < v.length, a ≠ (r.wr.toNat + k) % cap) →
        memRead r'.buf a = memRead r.buf a)

/-- `r'` is `r` with its read cursor moved forward by `n`; storage is unchanged (20_memory.md R65). -/
def Consumed (cap : Nat) (r r' : Ring) (n : Nat) : Prop :=
  r'.wr = r.wr
    ∧ r'.buf = r.buf
    ∧ r'.rd.toNat = (r.rd.toNat + n) % cap
    ∧ r'.used.toNat + n = r.used.toNat

/-- `r'` is `r` with its `T` oldest samples replaced, in place, by the `v` of a correction: the new
read cursor is `rd`, and every location outside the run from `rd` reads as before (42_transport.md
R177). -/
def Corrected (cap : Nat) (r r' : Ring) (rd used : Nat) (v : List Sample) : Prop :=
  r'.wr = r.wr
    ∧ r'.rd.toNat = rd
    ∧ r'.used.toNat = used
    ∧ (∀ (k : Nat) (h : k < v.length), memRead r'.buf ((rd + k) % cap) = v[k])
    ∧ (∀ a : Nat, (∀ k < v.length, a ≠ (rd + k) % cap) → memRead r'.buf a = memRead r.buf a)

/-- Two rings with the same cursors, occupancy and live samples; their free locations may differ
(20_memory.md R68). -/
def SameLive (cap : Nat) (r r' : Ring) : Prop :=
  r'.rd = r.rd ∧ r'.wr = r.wr ∧ r'.used = r.used
    ∧ oldest cap r' r.used.toNat = oldest cap r r.used.toNat

/-- The answer `resp(OK, data)` with output payload `out` and no wake pulse (30_encoding.md R95). -/
def okReply (data : Word) (out : Payload) : Option Reply :=
  some { status := .ok, data := data, out := out, wake := false }

/-- The answer of CODEC_XCHG: `resp(OK, 0)`, the words `out`, the wake pulse (42_transport.md R173). -/
def codecReply (out : List Word) : Option Reply :=
  some { status := .ok, data := 0, out := .words out, wake := true }

/-- The command words of 30_encoding.md R92 with the operand ranges of R96, as numbers: `n` is the word,
`n / 2^24` its opcode. -/
def legalWord (ch : Channels) (n : Nat) : Prop :=
  (n / 2 ^ 24 ∈ [0x00, 0x01, 0x02, 0x10, 0x11, 0x31, 0x40, 0x41, 0x42, 0x43]
      ∧ n % 2 ^ 24 = 0)
    ∨ (n / 2 ^ 24 = 0x03 ∧ n / 2 ^ 16 % 2 ^ 8 = 0)
    ∨ n / 2 ^ 24 = 0x20
    ∨ (n / 2 ^ 24 = 0x21 ∧ n / 2 ^ 16 % 2 ^ 8 ≤ ch.count ∧ n % 2 ^ 16 < 2)
    ∨ (n / 2 ^ 24 = 0x22 ∧ n / 2 ^ 16 % 2 ^ 8 ≤ ch.count)
    ∨ (n / 2 ^ 24 = 0x23 ∧ n % 2 ^ 24 < 4)
    ∨ (n / 2 ^ 24 = 0x30 ∧ n % 2 ^ 16 = 0
      ∧ (n / 2 ^ 16 % 2 ^ 8 ≤ 0x09
        ∨ n / 2 ^ 16 % 2 ^ 8 ∈ [0x10, 0x11, 0x12, 0x14, 0x15, 0x16,
            0x20, 0x21, 0x22, 0x23, 0x24, 0x25, 0x26, 0x28]
        ∨ (0x40 ≤ n / 2 ^ 16 % 2 ^ 8 ∧ n / 2 ^ 16 % 2 ^ 8 ≤ 0x40 + ch.count)
        ∨ (0x50 ≤ n / 2 ^ 16 % 2 ^ 8 ∧ n / 2 ^ 16 % 2 ^ 8 ≤ 0x50 + ch.count)))

/-! ## What the statements say of a correction -/

/-- The correction a pending marker asks for (42_transport.md R176, R177). -/
def pendingMode (s : State) : BatchMode :=
  match s.corrPending, s.state with
  | false, _ => .none
  | true, .codecRemove => .remove
  | true, _ => .duplicate

/-- The mode that governs a block of the resampled strategy (42_transport.md R177). -/
def blockMode (s : State) : BatchMode :=
  if s.bphase.val = 0 then pendingMode s else s.batchMode

/-- A batch that carries a correction starts with this block (42_transport.md R177). -/
def startsCorrection (s : State) : Prop := s.bphase.val = 0 ∧ pendingMode s ≠ .none

/-- The samples a batch writes into TX: `T`, `T - CH` or `T + CH` (42_transport.md R179). -/
def batchLength (s : State) : Nat :=
  match blockMode s with
  | .none => s.cfg.transfer
  | .remove => s.cfg.transfer - s.cfg.chans
  | .duplicate => s.cfg.transfer + s.cfg.chans

/-- A block of the resampled strategy overflows (42_transport.md R179, 60_exceptions.md R251 c, d). -/
def BlockOverflows (s : State) : Prop :=
  (s.bphase.val = 0 ∧ pendingMode s = .remove ∧ s.cfg.cap < s.rx.used.toNat + s.cfg.chans)
    ∨ (s.bphase.val = 2 ∧ s.cfg.cap < s.tx.used.toNat + batchLength s)

/-- A block of the resampled strategy underflows (42_transport.md R179, 60_exceptions.md R252 c): fewer
than `T` samples at a correcting batch start, or fewer than `N` left to read after the in-place
correction. -/
def BlockUnderflows (s : State) : Prop :=
  (startsCorrection s ∧ s.rx.used.toNat < s.cfg.transfer)
    ∨ (s.bphase.val = 0 ∧ pendingMode s = .remove
        ∧ s.rx.used.toNat + s.cfg.chans < s.cfg.blockLen)
    ∨ (s.bphase.val = 0 ∧ pendingMode s = .duplicate
        ∧ s.rx.used.toNat < s.cfg.blockLen + s.cfg.chans)
    ∨ (¬startsCorrection s ∧ s.rx.used.toNat < s.cfg.blockLen)

/-- The samples a block of the non-resampled strategy writes into TX, and the distance RX moves on by:
`N`, `N - CH` or `N + CH` (42_transport.md R176). -/
def directLength (s : State) : Nat :=
  match pendingMode s with
  | .none => s.cfg.blockLen
  | .remove => s.cfg.blockLen - s.cfg.chans
  | .duplicate => s.cfg.blockLen + s.cfg.chans

/-- A codec block fails a ring check of its strategy (42_transport.md R176, R179): TX has no room for what
it would write, or RX holds too little. -/
def CodecBlockFails (s : State) : Prop :=
  (s.cfg.resampled = false
      ∧ (s.cfg.cap < s.tx.used.toNat + directLength s
        ∨ s.rx.used.toNat < max s.cfg.blockLen (directLength s)))
    ∨ (s.cfg.resampled = true ∧ (BlockOverflows s ∨ BlockUnderflows s))

/-- A bit as a 4-bit number, for the flags. -/
def flagIf (b : Prop) [Decidable b] (f : BitVec 4) : BitVec 4 := if b then f else 0

/-- A bit as a 32-bit number, for the counters. -/
def oneIf (b : Prop) [Decidable b] : Word := if b then 1 else 0

/-- The rows of 10_state.md R43 for the state `s`, below the channel entries: an index and the value it
reads, written as numbers. -/
def registerRows (s : State) : List (BitVec 8 × Word) :=
  [ (0x00, BitVec.ofNat 32 (48 * 256 + s.cfg.underflowRefill.toNat * 32
      + s.cfg.resampled.toNat * 16 + s.cfg.chans)),
    (0x01, BitVec.ofNat 32 (match s.state with
      | .init => 0 | .fillingUnderflow => 1 | .normal => 2
      | .codecRemove => 3 | .codecDuplicate => 4 | .needsReset => 5)),
    (0x02, s.rate),
    (0x03, BitVec.ofNat 32 (s.inActive.toNat * 2 + s.outActive.toNat)),
    (0x04, BitVec.ofNat 32 s.flags.toNat),
    (0x05, s.ovfCount),
    (0x06, s.unfCount),
    (0x07, BitVec.ofNat 32 s.cfg.cap),
    (0x08, BitVec.ofNat 32 s.cfg.normalSize),
    (0x09, BitVec.ofNat 32 s.cfg.underflowMargin),
    (0x10, s.tx.used),
    (0x11, s.tx.rd),
    (0x12, s.tx.wr),
    (0x14, s.rx.used),
    (0x15, s.rx.rd),
    (0x16, s.rx.wr),
    (0x20, s.cfsc),
    (0x21, BitVec.ofInt 32 s.sampleOffset.toInt),
    (0x22, BitVec.ofInt 32 s.dwso.toInt),
    (0x23, BitVec.ofNat 32 s.dwOk.toNat),
    (0x24, s.corrInterval),
    (0x25, s.corrCounter),
    (0x26, BitVec.ofNat 32 s.wfc.val),
    (0x28, BitVec.ofNat 32 ((match s.batchMode with
      | .none => 0 | .remove => 1 | .duplicate => 2) * 8
      + s.bphase.val * 2 + s.corrPending.toNat)) ]

end Sys2Proof.Machine
end

