-- ==== Sys2Proof/Certificates/Slice0/Obligations.lean ====
section
/-! DEFINITION. The statements about the model, for the provers. Each docstring names the rules of spec/ it
formalises. A statement about a command says that `exec` answers a next state and which one; the record
it names leaves every field it does not mention as it was. -/

open Sys2Proof Sys2Proof.Machine

/-! ## Encoding and the port -/

/-- Decoding an encoded command gives it back with every operand at every value, and an operand out of
range is refused by name (30_encoding.md R91 to R97). -/
def Obligations.DecodeEncodeRoundTrip : Prop :=
  ∀ (ch : Channels) (i : Instr),
    decode ch (encode i) = if i.wf ch = true then .command i else .illegal .operandRange

/-- Each word has one meaning: a word that decodes is the encoding of what it decodes to, and that
command's operands are in range (30_encoding.md R96). -/
def Obligations.DecodedWordIsItsEncoding : Prop :=
  ∀ (ch : Channels) (w : Word) (i : Instr),
    decode ch w = .command i → encode i = w ∧ i.wf ch = true

/-- Words of 30_encoding.md R98 and 95_test_vectors.md section 2, written out from the tables. -/
def Obligations.SpecWordsDecode : Prop :=
  decode .two 0x00000000 = .command .nop
    ∧ decode .two 0x01000000 = .command .codecXchg
    ∧ decode .two 0x02000000 = .command .usbSof
    ∧ decode .two 0x0300FFFF = .command (.cntAdj 0xFFFF)
    ∧ decode .two 0x2000BB80 = .command (.setRate 48000)
    ∧ decode .two 0x21010001 = .command (.setMute 1 true)
    ∧ decode .two 0x2200FF00 = .command (.setVol 0 0xFF00)
    ∧ decode .two 0x23000003 = .command (.setAlt true true)
    ∧ decode .two 0x30210000 = .command (.rdReg 0x21)
    ∧ decode .two 0x41000000 = .command .rsStretch16
    ∧ decode .two 0x10000001 = .illegal .mustBeZero
    ∧ decode .two 0x7F000000 = .illegal .reservedOpcode
    ∧ decode .two 0x21030001 = .illegal .operandRange
    ∧ decode .four 0x21030001 = .command (.setMute 3 true)

/-- The words of R92 in the ranges of R96 are commands and no other word is one; every other word is
answered ILLEGAL with data 0, no output payload and no state change (30_encoding.md R96). That the answer
is the same whatever payload stands beside the word is the model's inference, log entry 11 (DEDUCED); that
the word then leaves the port is the model's choice, log entry 3 (DESIGN CHOICE). -/
def Obligations.ExactlyTheListedWordsAreCommands : Prop :=
  (∀ (ch : Channels) (w : Word), (∃ i, decode ch w = .command i) ↔ legalWord ch w.toNat)
    ∧ ∀ (s : State) (c : Command) (rest : List Command), s.port = c :: rest →
        ¬legalWord s.cfg.ch c.cw.toNat →
        step s = .next { s with
          port := rest
          reply := some { status := .illegal, data := 0, out := .none, wake := false } }

/-- A step executes the command the oldest word of the port decodes to, and takes it off the port
(00_scope.md R13). -/
def Obligations.StepRunsDecodedCommand : Prop :=
  ∀ (s : State) (c : Command) (rest : List Command) (i : Instr),
    s.port = c :: rest → decode s.cfg.ch c.cw = .command i →
    step s = match exec i s with
      | .next t => .next { t with port := rest }
      | .fault r => .fault r
      | .refused r => .refused r

/-- With no command presented the block holds its state (60_exceptions.md R268). That such a step exists
is the model's choice, log entry 3. -/
def Obligations.IdlePortHoldsState : Prop :=
  ∀ s : State, s.port = [] → step s = .next s

/-- Every command, with any operands, answers a next state when its payload has the shape of
30_encoding.md R94, and is refused by name when it has not. Nothing faults. -/
def Obligations.OnlyMalformedPayloadsAreRefused : Prop :=
  ∀ (i : Instr) (s : State),
    if sameShape (inPayload s) (zeroInput s.cfg i) = true then ∃ t, exec i s = .next t
    else exec i s = .refused .payloadShape

/-! ## Resampler -/

/-- 40_resampler.md R120: the formula with an exact product and a floor, and its consequences (a) to
(e). -/
def Obligations.LerpLaws : Prop :=
  (∀ a b f : Int, -32768 ≤ a → a ≤ 32767 → -32768 ≤ b → b ≤ 32767 → 0 ≤ f → f ≤ 65536 →
    lerp a b f = a + Int.fdiv ((b - a) * f) 65536
      ∧ lerp a b 0 = a
      ∧ lerp a b 65536 = b
      ∧ lerp a a f = a
      ∧ min a b ≤ lerp a b f
      ∧ lerp a b f ≤ max a b
      ∧ (a ≤ b → lerp a b f = a + (b - a) * f / 65536)
      ∧ (b < a → lerp a b f = a - ((a - b) * f + 65535) / 65536)
      ∧ lerp a b f = lerp b a (65536 - f))
    ∧ lerp 0 1 32768 = 0
    ∧ lerp 0 (-1) 32768 = -1
    ∧ lerp 0 (-1) 1 = -1
    ∧ lerp 0 1 65535 = 0
    ∧ lerp 0 3 21846 = 1
    ∧ lerp 3 0 43690 = 1
    ∧ lerp (-32768) 32767 65504 = 32735

/-- 40_resampler.md R120 (c): the value of `lerp` on samples is always an i16, so bringing it back to 16
bits changes nothing. -/
def Obligations.SampleLerpIsExact : Prop :=
  ∀ (a b : Sample) (f : Nat), f ≤ 65536 →
    (lerpSample a b f).toInt = lerp a.toInt b.toInt f

/-- 40_resampler.md R123: 47 frames, frame `i` between input frames `i` and `i + 1` at `1424 i`; the
first frame is the first input frame and the last falls short of the last by at most the stated bound. -/
def Obligations.ShrinkFrames : Prop :=
  ∀ (ch : Channels) (src : List Sample), src.length = 48 * ch.count →
    (shrink ch.count src).length = 48 * ch.count - ch.count
      ∧ (∀ i c : Nat, i < 47 → c < ch.count →
          frameSample ch.count (shrink ch.count src) i c =
            lerpSample (frameSample ch.count src i c) (frameSample ch.count src (i + 1) c)
              (1424 * i))
      ∧ ∀ c : Nat, c < ch.count →
          frameSample ch.count (shrink ch.count src) 0 c = frameSample ch.count src 0 c
            ∧ ((frameSample ch.count (shrink ch.count src) 46 c).toInt
                - (frameSample ch.count src 47 c).toInt).natAbs
              ≤ (((frameSample ch.count src 47 c).toInt
                  - (frameSample ch.count src 46 c).toInt).natAbs * 32 + 65535) / 65536

/-- 40_resampler.md R124: 49 frames, with the table of source frames and fractions of that rule; no read
is past the 48 input frames. -/
def Obligations.StretchFrames : Prop :=
  ∀ (ch : Channels) (src : List Sample), src.length = 48 * ch.count →
    (stretch ch.count src).length = 48 * ch.count + ch.count
      ∧ ∀ c : Nat, c < ch.count →
          frameSample ch.count (stretch ch.count src) 0 c = frameSample ch.count src 0 c
            ∧ (∀ i : Nat, 1 ≤ i → i ≤ 47 →
                frameSample ch.count (stretch ch.count src) i c =
                  lerpSample (frameSample ch.count src (i - 1) c) (frameSample ch.count src i c)
                    (65536 - 1366 * i))
            ∧ frameSample ch.count (stretch ch.count src) 48 c =
                lerpSample (frameSample ch.count src 46 c) (frameSample ch.count src 47 c) 65504
            ∧ frameSample ch.count (stretch ch.count src) 48 c =
                frameSample ch.count (shrink ch.count src) 46 c

/-- 40_resampler.md R133 (c), (d): every output sample of a channel lies within any bounds that hold of
that channel's 48 input samples; with equal bounds, a constant channel stays constant. -/
def Obligations.ResampledSamplesStayInRange : Prop :=
  ∀ (ch : Channels) (src : List Sample) (c : Nat) (lo hi : Int), c < ch.count →
    (∀ j < 48, lo ≤ (frameSample ch.count src j c).toInt
      ∧ (frameSample ch.count src j c).toInt ≤ hi) →
    (∀ i < 47, lo ≤ (frameSample ch.count (shrink ch.count src) i c).toInt
        ∧ (frameSample ch.count (shrink ch.count src) i c).toInt ≤ hi)
      ∧ ∀ i < 49, lo ≤ (frameSample ch.count (stretch ch.count src) i c).toInt
        ∧ (frameSample ch.count (stretch ch.count src) i c).toInt ≤ hi

/-- 40_resampler.md R133 (e): a channel that is non-decreasing over the 48 frames stays
non-decreasing. -/
def Obligations.ResamplerKeepsOrder : Prop :=
  ∀ (ch : Channels) (src : List Sample) (c : Nat), c < ch.count →
    (∀ j < 47, (frameSample ch.count src j c).toInt ≤ (frameSample ch.count src (j + 1) c).toInt) →
    (∀ i < 46, (frameSample ch.count (shrink ch.count src) i c).toInt
        ≤ (frameSample ch.count (shrink ch.count src) (i + 1) c).toInt)
      ∧ ∀ i < 48, (frameSample ch.count (stretch ch.count src) i c).toInt
        ≤ (frameSample ch.count (stretch ch.count src) (i + 1) c).toInt

/-- 40_resampler.md R127: an output channel depends only on the same input channel. -/
def Obligations.ChannelsAreIndependentLanes : Prop :=
  ∀ (ch : Channels) (src src' : List Sample) (c : Nat), c < ch.count →
    (∀ j < 48, frameSample ch.count src j c = frameSample ch.count src' j c) →
    (∀ i < 47, frameSample ch.count (shrink ch.count src) i c =
        frameSample ch.count (shrink ch.count src') i c)
      ∧ ∀ i < 49, frameSample ch.count (stretch ch.count src) i c =
        frameSample ch.count (stretch ch.count src') i c

/-- 40_resampler.md R125, R126: the signed value of bits 31:16; bits 31:16 set and 15:0 zero; the two
round trips and the examples of the rules. -/
def Obligations.CodecWordConversions : Prop :=
  (∀ x : Word, (c2s x).toInt = x.toInt / 65536 ∧ s2c (c2s x) = x &&& 0xFFFF0000)
    ∧ (∀ v : Sample, (s2c v).toNat = v.toNat * 65536 ∧ c2s (s2c v) = v)
    ∧ (c2s 0x00011234).toInt = 1
    ∧ (c2s 0xFFFF0000).toInt = -1
    ∧ (c2s 0x8000FFFF).toInt = -32768
    ∧ (c2s 0x0000FFFF).toInt = 0
    ∧ s2c 1 = 0x00010000
    ∧ s2c (BitVec.ofInt 16 (-1)) = 0xFFFF0000
    ∧ s2c (BitVec.ofInt 16 (-32768)) = 0x80000000

/-- 20_memory.md R70: sample `k` of a frame is bytes `2k` (low) and `2k + 1` (high), both ways. -/
def Obligations.UsbFramesAreLittleEndian : Prop :=
  (∀ (n : Nat) (l : List Byte), l.length = 2 * n →
    (samplesOfBytes l).length = n
      ∧ (∀ k < n, ((samplesOfBytes l).getD k 0).toInt =
          (((l.getD (2 * k) 0).toNat + 256 * (l.getD (2 * k + 1) 0).toNat : Nat) : Int)
            - (if 128 ≤ (l.getD (2 * k + 1) 0).toNat then 65536 else 0))
      ∧ bytesOfSamples (samplesOfBytes l) = l)
    ∧ ∀ v : List Sample, (bytesOfSamples v).length = 2 * v.length
      ∧ samplesOfBytes (bytesOfSamples v) = v

/-- 40_resampler.md R129, R130: the words of the 16-bit resampler commands; they answer OK with the
operator's result and touch no state field. -/
def Obligations.SixteenBitResamplerCommands : Prop :=
  (∀ ch : Channels, decode ch 0x40000000 = .command .rsShrink16
      ∧ decode ch 0x41000000 = .command .rsStretch16)
    ∧ ∀ (s : State) (p : List Sample), inPayload s = .samples p → p.length = s.cfg.transfer →
      exec .rsShrink16 s =
          .next { s with reply := okReply 0 (.samples (shrink s.cfg.chans p)) }
        ∧ exec .rsStretch16 s =
          .next { s with reply := okReply 0 (.samples (stretch s.cfg.chans p)) }

/-- 40_resampler.md R131, R132: the words of the codec-domain resampler commands; they answer OK with the
operator applied to bits 31:16 of each word, padding 0, and touch no state field. -/
def Obligations.CodecWordResamplerCommands : Prop :=
  (∀ ch : Channels, decode ch 0x42000000 = .command .rsShrink32
      ∧ decode ch 0x43000000 = .command .rsStretch32)
    ∧ ∀ (s : State) (p : List Word), inPayload s = .words p → p.length = s.cfg.transfer →
      exec .rsShrink32 s = .next { s with
          reply := okReply 0 (.words
            ((shrink s.cfg.chans (p.map fun x => x.extractLsb' 16 16)).map
              fun v => BitVec.ofNat 32 (v.toNat * 65536))) }
        ∧ exec .rsStretch32 s = .next { s with
          reply := okReply 0 (.words
            ((stretch s.cfg.chans (p.map fun x => x.extractLsb' 16 16)).map
              fun v => BitVec.ofNat 32 (v.toNat * 65536))) }

/-- 93_implementation_defined.md U14, 40_resampler.md R125: two payloads of codec-domain words that agree
in bits 31:16 have the same effect and the same answer. -/
def Obligations.PaddingBitsNeverMatter : Prop :=
  ∀ (i : Instr) (s t : State) (c : Command) (rest : List Command) (p p' : List Word),
    i = .codecXchg ∨ i = .rsShrink32 ∨ i = .rsStretch32 →
    s.port = { c with payload := .words p } :: rest →
    p.map (fun x => x.extractLsb' 16 16) = p'.map (fun x => x.extractLsb' 16 16) →
    exec i s = .next t →
    exec i { s with port := { c with payload := .words p' } :: rest } =
      .next { t with port := { c with payload := .words p' } :: rest }

/-! ## Rings -/

/-- 20_memory.md R64, R65: a ring is first in, first out. What is written stands behind the live samples;
what is read is taken from their front. -/
def Obligations.RingIsFirstInFirstOut : Prop :=
  ∀ (p : Params) (r : Ring), RingOk p r →
    (∀ v : List Sample, r.used.toNat + v.length ≤ p.cap →
      oldest p.cap (rbWrite p.cap r v) (rbWrite p.cap r v).used.toNat =
        oldest p.cap r r.used.toNat ++ v)
      ∧ ∀ n : Nat, n ≤ r.used.toNat →
        (rbRead p.cap r n).1 = (oldest p.cap r r.used.toNat).take n
          ∧ oldest p.cap (rbRead p.cap r n).2 (rbRead p.cap r n).2.used.toNat =
            (oldest p.cap r r.used.toNat).drop n

/-- 20_memory.md R68: what a free location holds never shows. Two sound states that differ only in free
locations take every command to two such states with the same answer. -/
def Obligations.FreeLocationsNeverMatter : Prop :=
  ∀ (i : Instr) (s s' t : State), Inv s → Inv s' →
    s' = { s with tx := s'.tx, rx := s'.rx } →
    SameLive s.cfg.cap s.tx s'.tx → SameLive s.cfg.cap s.rx s'.rx →
    exec i s = .next t →
    ∃ t', exec i s' = .next t'
      ∧ t' = { t with tx := t'.tx, rx := t'.rx }
      ∧ SameLive s.cfg.cap t.tx t'.tx
      ∧ SameLive s.cfg.cap t.rx t'.rx

/-! ## Drift tracker -/

/-- 41_drift.md R158: the word of CNT_ADJ; it adds its signed immediate to `cfsc`, modulo 2^32, and does
nothing else. -/
def Obligations.CountAdjustAddsSignedImmediate : Prop :=
  ∀ (s : State) (d : BitVec 16),
    decode s.cfg.ch (BitVec.ofNat 32 (0x03000000 + d.toNat)) = .command (.cntAdj d)
      ∧ (inPayload s = .none → exec (.cntAdj d) s = .next { s with
          cfsc := s.cfsc + d.signExtend 32
          reply := okReply 0 .none })

/-- 41_drift.md R150 to R157. The drift tracker, in every state, adds `cfsc - NOMINAL` to the window sum
and clears `cfsc`; the 100th frame of a window folds a non-zero sum into `sample_offset` and computes the
interval from the new offset, or counts a clean window; the sum and the frame count start again; it
changes no other field. Every USB_SOF runs it, in every transport state; a correction scheduled by the
same command (42_transport.md R187), which only a steady state can have, moves `sample_offset` on from
there by `CH`. -/
def Obligations.DriftTrackerRunsEveryFrame : Prop :=
  ∀ s : State,
    let sum : BitVec 16 := s.dwso + (s.cfsc.setWidth 16 - BitVec.ofNat 16 s.cfg.nominal)
    let last := s.wfc.val = 99
    let dirty := s.wfc.val = 99 ∧ sum ≠ 0
    let offset : BitVec 16 := if dirty then s.sampleOffset + sum else s.sampleOffset
    let ch := BitVec.ofNat 16 s.cfg.chans
    (∃ (frames : Fin 100) (interval : Word),
      driftFrame s = { s with
        cfsc := 0
        dwso := if last then 0 else sum
        wfc := frames
        dwOk := if dirty then 0 else if last then s.dwOk + 1 else s.dwOk
        sampleOffset := offset
        corrInterval := interval }
      ∧ frames.val = (if last then 0 else s.wfc.val + 1)
      ∧ (¬dirty → interval = s.corrInterval)
      ∧ (dirty → interval.toNat =
          max s.cfg.minInterval ((if s.cfg.ch = .four then 2 else 1)
            * (100 * (s.dwOk.toNat + 1) / max 1 (offset.toInt.natAbs / 2)))))
      ∧ ∀ rxb : List Byte, inPayload s = .bytes rxb → rxb.length = 2 * s.cfg.transfer →
        ∃ t, exec .usbSof s = .next t
          ∧ t.cfsc = 0
          ∧ t.dwso = (driftFrame s).dwso
          ∧ t.wfc = (driftFrame s).wfc
          ∧ t.dwOk = (driftFrame s).dwOk
          ∧ t.corrInterval = (driftFrame s).corrInterval
          ∧ (isSteady s.state = false → t.sampleOffset = offset)
          ∧ (isSteady s.state = true → t.sampleOffset = offset
            ∨ (0 < offset.toInt ∧ t.sampleOffset = offset - ch)
            ∨ (offset.toInt < 0 ∧ t.sampleOffset = offset + ch))

/-- 42_transport.md R187 (the source's "Bounded correction"): a USB_SOF changes `sample_offset`, after the
drift tracker, by exactly one frame towards or past zero when it schedules a correction, and then it has
entered the correction state of that sign; and by nothing when it schedules none: then it sets no
`corr_pending` and enters no correction state. -/
def Obligations.CorrectionMovesOffsetByOneFrame : Prop :=
  ∀ s t : State, exec .usbSof s = .next t →
    (t.sampleOffset = (driftFrame s).sampleOffset
        ∧ (t.corrPending = true → s.corrPending = true)
        ∧ (t.state = .codecRemove ∨ t.state = .codecDuplicate → t.state = s.state))
      ∨ (0 < (driftFrame s).sampleOffset.toInt ∧ t.state = .codecRemove ∧ t.corrPending = true
        ∧ t.corrCounter = 0
        ∧ t.sampleOffset.toInt = (driftFrame s).sampleOffset.toInt - s.cfg.chans)
      ∨ ((driftFrame s).sampleOffset.toInt < 0 ∧ t.state = .codecDuplicate ∧ t.corrPending = true
        ∧ t.corrCounter = 0
        ∧ t.sampleOffset.toInt = (driftFrame s).sampleOffset.toInt + s.cfg.chans)

/-! ## The codec side -/

/-- 42_transport.md R172, R174: in NeedsReset a CODEC_XCHG re-initialises the rings and the sequencing
fields, discards its block and answers silence; every other field but `cfsc` is kept. -/
def Obligations.NeedsResetIsLeftByReinitialising : Prop :=
  ∀ (s : State) (d2h : List Word), inPayload s = .words d2h → d2h.length = s.cfg.blockLen →
    s.state = .needsReset →
    exec .codecXchg s = .next { s with
      cfsc := s.cfsc + BitVec.ofNat 32 s.cfg.blockLen
      tx := { rd := 0, wr := 0, used := 0, buf := [] }
      rx := { rd := 0, wr := 0, used := 0, buf := [] }
      state := .init
      corrPending := false
      bphase := 0
      batchMode := .none
      bb := List.replicate s.cfg.transfer 0
      reply := codecReply (List.replicate s.cfg.blockLen 0) }

/-- 60_exceptions.md R253: with rings that are not consistent, an exchange command of a state other than
NeedsReset sets the CONS flag and `state = NeedsReset`, counts nothing, moves no sample and answers
silence, after the `cfsc` update or the drift tracker. -/
def Obligations.InconsistentRingsRaiseConsistency : Prop :=
  ∀ s : State, s.state ≠ .needsReset →
    consistent s.cfg.cap s.tx = false ∨ consistent s.cfg.cap s.rx = false →
    (∀ d2h : List Word, inPayload s = .words d2h → d2h.length = s.cfg.blockLen →
      exec .codecXchg s = .next { s with
        cfsc := s.cfsc + BitVec.ofNat 32 s.cfg.blockLen
        flags := s.flags ||| 0b1000
        state := .needsReset
        reply := codecReply (List.replicate s.cfg.blockLen 0) })
      ∧ ∀ rxb : List Byte, inPayload s = .bytes rxb → rxb.length = 2 * s.cfg.transfer →
        exec .usbSof s = .next { driftFrame s with
          flags := s.flags ||| 0b1000
          state := .needsReset
          reply := okReply 0 (.bytes (List.replicate (2 * s.cfg.transfer) 0)) }

/-- 42_transport.md R175: in a priming state a block is stored in TX up to NORMAL_SIZE, the rest of it is
dropped, and the codec gets silence. -/
def Obligations.PrimingBlockFillsTx : Prop :=
  ∀ (s : State) (d2h : List Word), inPayload s = .words d2h → d2h.length = s.cfg.blockLen →
    isPriming s.state = true → RingOk s.cfg s.tx → RingOk s.cfg s.rx →
    ∃ tx', exec .codecXchg s = .next { s with
        cfsc := s.cfsc + BitVec.ofNat 32 s.cfg.blockLen
        tx := tx'
        reply := codecReply (List.replicate s.cfg.blockLen 0) }
      ∧ Stored s.cfg.cap s.tx tx'
          ((d2h.map c2s).take (min s.cfg.blockLen (s.cfg.normalSize - s.tx.used.toNat)))

/-- 42_transport.md R176: the non-resampled exchange. With room in TX and enough in RX, the block goes to
TX (without its last frame in Remove, with its last frame twice in Duplicate), the codec gets the `N`
oldest samples of RX, and RX moves on by `N`, `N - CH` or `N + CH`. -/
def Obligations.DirectExchangeMovesOneBlock : Prop :=
  ∀ (s : State) (d2h : List Word), inPayload s = .words d2h → d2h.length = s.cfg.blockLen →
    isSteady s.state = true → s.cfg.resampled = false →
    RingOk s.cfg s.tx → RingOk s.cfg s.rx →
    let n := s.cfg.blockLen
    let ch := s.cfg.chans
    let smp := d2h.map c2s
    let txd := match pendingMode s with
      | .none => smp
      | .remove => smp.take (n - ch)
      | .duplicate => smp ++ smp.drop (n - ch)
    let adv := match pendingMode s with
      | .none => n
      | .remove => n - ch
      | .duplicate => n + ch
    s.tx.used.toNat + txd.length ≤ s.cfg.cap → max n adv ≤ s.rx.used.toNat →
    ∃ tx' rx', exec .codecXchg s = .next { s with
        cfsc := s.cfsc + BitVec.ofNat 32 n
        tx := tx'
        rx := rx'
        corrPending := false
        reply := codecReply ((oldest s.cfg.cap s.rx n).map s2c) }
      ∧ Stored s.cfg.cap s.tx tx' txd
      ∧ Consumed s.cfg.cap s.rx rx' adv

/-- 60_exceptions.md R251 (b), R252 (b), 42_transport.md R176: a non-resampled exchange that fails a ring
check raises every check that failed, stores nothing and answers silence. -/
def Obligations.DirectExchangeFailsWhole : Prop :=
  ∀ (s : State) (d2h : List Word), inPayload s = .words d2h → d2h.length = s.cfg.blockLen →
    isSteady s.state = true → s.cfg.resampled = false →
    consistent s.cfg.cap s.tx = true → consistent s.cfg.cap s.rx = true →
    let n := s.cfg.blockLen
    let len := match pendingMode s with
      | .none => n
      | .remove => n - s.cfg.chans
      | .duplicate => n + s.cfg.chans
    let ovf := s.cfg.cap < s.tx.used.toNat + len
    let unf := s.rx.used.toNat < max n len
    ovf ∨ unf →
    exec .codecXchg s = .next { s with
      cfsc := s.cfsc + BitVec.ofNat 32 n
      flags := s.flags ||| flagIf ovf 0b0010 ||| flagIf unf 0b0100
      ovfCount := s.ovfCount + oneIf ovf
      unfCount := s.unfCount + oneIf unf
      state := .needsReset
      reply := codecReply (List.replicate n 0) }

/-- 42_transport.md R177, R178: a block of the resampled exchange whose checks pass. At a batch start the
pending correction is claimed and the 48 oldest frames of RX are stretched or shrunk in place; then the
`N` oldest samples of RX go to the codec and the block into the batch buffer; the third block writes the
batch, shrunk or stretched, into TX. -/
def Obligations.ResampledBlockRunsTheBatch : Prop :=
  ∀ (s : State) (d2h : List Word), inPayload s = .words d2h → d2h.length = s.cfg.blockLen →
    isSteady s.state = true → s.cfg.resampled = true →
    RingOk s.cfg s.tx → RingOk s.cfg s.rx → s.bb.length = s.cfg.transfer →
    ¬BlockOverflows s → ¬BlockUnderflows s →
    let n := s.cfg.blockLen
    let ch := s.cfg.chans
    let phase := s.bphase.val
    let bb' := s.bb.take (phase * n) ++ d2h.map c2s ++ s.bb.drop ((phase + 1) * n)
    ∃ tx' rx1 rx', exec .codecXchg s = .next { s with
        cfsc := s.cfsc + BitVec.ofNat 32 n
        tx := tx'
        rx := rx'
        corrPending := if phase = 0 then false else s.corrPending
        bphase := if phase = 0 then 1 else if phase = 1 then 2 else 0
        batchMode := if phase = 2 then .none else blockMode s
        bb := bb'
        reply := codecReply ((oldest s.cfg.cap rx1 n).map s2c) }
      ∧ (¬startsCorrection s → rx1 = s.rx)
      ∧ (phase = 0 → pendingMode s = .remove →
          Corrected s.cfg.cap s.rx rx1 ((s.rx.rd.toNat + s.cfg.cap - ch) % s.cfg.cap)
            (s.rx.used.toNat + ch) (stretch ch (oldest s.cfg.cap s.rx s.cfg.transfer)))
      ∧ (phase = 0 → pendingMode s = .duplicate →
          Corrected s.cfg.cap s.rx rx1 ((s.rx.rd.toNat + ch) % s.cfg.cap)
            (s.rx.used.toNat - ch) (shrink ch (oldest s.cfg.cap s.rx s.cfg.transfer)))
      ∧ Consumed s.cfg.cap rx1 rx' n
      ∧ (phase ≠ 2 → tx' = s.tx)
      ∧ (phase = 2 → Stored s.cfg.cap s.tx tx' (match blockMode s with
          | .none => bb'
          | .remove => shrink ch bb'
          | .duplicate => stretch ch bb'))

/-- 42_transport.md R179: every check is made on the state at the start of the command; every failing one
is raised, and then nothing else is written and the codec gets silence. -/
def Obligations.ResampledBlockFailsWhole : Prop :=
  ∀ (s : State) (d2h : List Word), inPayload s = .words d2h → d2h.length = s.cfg.blockLen →
    isSteady s.state = true → s.cfg.resampled = true →
    consistent s.cfg.cap s.tx = true → consistent s.cfg.cap s.rx = true →
    (∀ (ovf unf : Bool), (ovf = true ↔ BlockOverflows s) → (unf = true ↔ BlockUnderflows s) →
      ovf = true ∨ unf = true →
      exec .codecXchg s = .next { s with
        cfsc := s.cfsc + BitVec.ofNat 32 s.cfg.blockLen
        flags := s.flags ||| flagIf (ovf = true) 0b0010 ||| flagIf (unf = true) 0b0100
        ovfCount := s.ovfCount + oneIf (ovf = true)
        unfCount := s.unfCount + oneIf (unf = true)
        state := .needsReset
        reply := codecReply (List.replicate s.cfg.blockLen 0) })

/-! ## The USB side -/

/-- 42_transport.md R181: in NeedsReset a USB frame is discarded and the host gets silence; only the drift
fields change. -/
def Obligations.UsbFrameInNeedsResetIsDiscarded : Prop :=
  ∀ (s : State) (rxb : List Byte), inPayload s = .bytes rxb → rxb.length = 2 * s.cfg.transfer →
    s.state = .needsReset →
    exec .usbSof s = .next { driftFrame s with
      reply := okReply 0 (.bytes (List.replicate (2 * s.cfg.transfer) 0)) }

/-- 42_transport.md R182, R183: in a priming state the frame is stored in RX, or Overflow is raised when
there is no room; the host gets silence; and once TX holds exactly NORMAL_SIZE and RX at least `2 T`, RX
is clamped to its newest `2 T` samples and the state is Normal. -/
def Obligations.PrimingFrameFillsRx : Prop :=
  ∀ (s : State) (rxb : List Byte), inPayload s = .bytes rxb → rxb.length = 2 * s.cfg.transfer →
    isPriming s.state = true → RingOk s.cfg s.tx → RingOk s.cfg s.rx →
    let t := s.cfg.transfer
    let silentFrame := okReply 0 (.bytes (List.replicate (2 * t) 0))
    (s.cfg.cap < s.rx.used.toNat + t →
      exec .usbSof s = .next { driftFrame s with
        flags := s.flags ||| 0b0010
        ovfCount := s.ovfCount + 1
        state := .needsReset
        reply := silentFrame })
      ∧ (s.rx.used.toNat + t ≤ s.cfg.cap →
        ∃ rx1, Stored s.cfg.cap s.rx rx1 (samplesOfBytes rxb)
          ∧ (¬(s.tx.used.toNat = s.cfg.normalSize ∧ 2 * t ≤ s.rx.used.toNat + t) →
              exec .usbSof s = .next { driftFrame s with rx := rx1, reply := silentFrame })
          ∧ (s.tx.used.toNat = s.cfg.normalSize ∧ 2 * t ≤ s.rx.used.toNat + t →
              ∃ rx2, exec .usbSof s = .next { driftFrame s with
                  rx := rx2
                  state := .normal
                  reply := silentFrame }
                ∧ rx2.wr = rx1.wr
                ∧ rx2.buf = rx1.buf
                ∧ rx2.rd.toNat = (rx1.wr.toNat + s.cfg.cap - 2 * t) % s.cfg.cap
                ∧ rx2.used.toNat = 2 * t))

/-- 42_transport.md R184, R186, R187: in a steady state, with a frame in TX and room in RX, exactly `T`
samples go each way; a correction state whose correction has been claimed is left; the frame is counted;
and a correction is scheduled when the state is then Normal, the offset is not 0 and the counter has
reached the interval. -/
def Obligations.SteadyFrameTransfersBothWays : Prop :=
  ∀ (s : State) (rxb : List Byte), inPayload s = .bytes rxb → rxb.length = 2 * s.cfg.transfer →
    isSteady s.state = true → RingOk s.cfg s.tx → RingOk s.cfg s.rx →
    s.cfg.transfer ≤ s.tx.used.toNat → s.rx.used.toNat + s.cfg.transfer ≤ s.cfg.cap →
    let d := driftFrame s
    let state := if s.corrPending = false then Transport.normal else s.state
    let counter := s.corrCounter + 1
    let fires := state = .normal ∧ d.sampleOffset ≠ 0 ∧ d.corrInterval.toNat ≤ counter.toNat
    let ch := BitVec.ofNat 16 s.cfg.chans
    ∃ tx' rx', exec .usbSof s = .next { d with
        tx := tx'
        rx := rx'
        state := if fires then
            (if 0 < d.sampleOffset.toInt then .codecRemove else .codecDuplicate)
          else state
        corrCounter := if fires then 0 else counter
        corrPending := if fires then true else s.corrPending
        sampleOffset := if fires then
            (if 0 < d.sampleOffset.toInt then d.sampleOffset - ch else d.sampleOffset + ch)
          else d.sampleOffset
        reply := okReply 0 (.bytes (bytesOfSamples (oldest s.cfg.cap s.tx s.cfg.transfer))) }
      ∧ Consumed s.cfg.cap s.tx tx' s.cfg.transfer
      ∧ Stored s.cfg.cap s.rx rx' (samplesOfBytes rxb)

/-- 42_transport.md R185, 60_exceptions.md R251 (a), R252 (a): a steady frame that fails a check raises
every check that failed, stores and sends nothing, and, with UNDERFLOW_REFILL = 1 and only TX short,
primes again instead of waiting in NeedsReset. -/
def Obligations.FailedFrameRaisesOrRefills : Prop :=
  ∀ (s : State) (rxb : List Byte), inPayload s = .bytes rxb → rxb.length = 2 * s.cfg.transfer →
    isSteady s.state = true →
    consistent s.cfg.cap s.tx = true → consistent s.cfg.cap s.rx = true →
    let unf := s.tx.used.toNat < s.cfg.transfer
    let ovf := s.cfg.cap < s.rx.used.toNat + s.cfg.transfer
    let refill := s.cfg.underflowRefill = true ∧ unf ∧ ¬ovf
    unf ∨ ovf →
    exec .usbSof s = .next { driftFrame s with
      flags := s.flags ||| flagIf unf 0b0100 ||| flagIf ovf 0b0010
      ovfCount := s.ovfCount + oneIf ovf
      unfCount := s.unfCount + oneIf unf
      state := if refill then .fillingUnderflow else .needsReset
      corrPending := if refill then false else s.corrPending
      bphase := if refill then 0 else s.bphase
      batchMode := if refill then .none else s.batchMode
      reply := okReply 0 (.bytes (List.replicate (2 * s.cfg.transfer) 0)) }

/-! ## Control and status -/

/-- 43_control_status.md R220: the all-zero word is NOP; it answers OK and changes nothing. -/
def Obligations.NopChangesNothing : Prop :=
  ∀ s : State, decode s.cfg.ch 0x00000000 = .command .nop
    ∧ (inPayload s = .none → exec .nop s = .next { s with reply := okReply 0 .none })

/-- 43_control_status.md R221, R222: the words of REQ_RESET and OVERLOAD; REQ_RESET sets
`state = NeedsReset` and no flag; OVERLOAD sets the OVERLOAD flag as well. -/
def Obligations.ResetRequestsSetNeedsReset : Prop :=
  ∀ s : State, decode s.cfg.ch 0x10000000 = .command .reqReset
    ∧ decode s.cfg.ch 0x11000000 = .command .overload
    ∧ (inPayload s = .none →
      exec .reqReset s = .next { s with state := .needsReset, reply := okReply 0 .none }
        ∧ exec .overload s = .next { s with
            flags := s.flags ||| 0b0001
            state := .needsReset
            reply := okReply 0 .none })

/-- 43_control_status.md R223: the word of SET_RATE; it stores exactly 44100, 48000 and 96000, and any
other rate is REJECTED with no state change. -/
def Obligations.SetRateStoresSupportedRates : Prop :=
  ∀ (s : State) (r : BitVec 24),
    decode s.cfg.ch (BitVec.ofNat 32 (0x20000000 + r.toNat)) = .command (.setRate r)
      ∧ (inPayload s = .none → exec (.setRate r) s =
        if r = 44100 ∨ r = 48000 ∨ r = 96000 then
          .next { s with rate := BitVec.ofNat 32 r.toNat, reply := okReply 0 .none }
        else
          .next { s with
            reply := some { status := .rejected, data := 0, out := .none, wake := false } })

/-- 43_control_status.md R224, R225: the words of SET_MUTE and SET_VOL; they write the entry of their index
and no other; an index above CH, or a SET_MUTE immediate above 1, makes the command illegal. That `exec` of
a term with an index above CH, which no word decodes to, answers ILLEGAL as well is the model's inference,
log entry 12 (DEDUCED). -/
def Obligations.SetMuteAndSetVolWriteOneEntry : Prop :=
  ∀ (s : State) (a : BitVec 8) (m : Bool) (v : BitVec 16),
    let muteWord := BitVec.ofNat 32 (0x21000000 + a.toNat * 2 ^ 16 + m.toNat)
    let volWord := BitVec.ofNat 32 (0x22000000 + a.toNat * 2 ^ 16 + v.toNat)
    let illegal := some
      { status := Status.illegal, data := 0, out := Payload.none, wake := false : Reply }
    (a.toNat ≤ s.cfg.chans →
      decode s.cfg.ch muteWord = .command (.setMute a m)
        ∧ decode s.cfg.ch volWord = .command (.setVol a v)
        ∧ (inPayload s = .none →
          s.mute.length = s.cfg.chans + 1 → s.volume.length = s.cfg.chans + 1 →
          (∃ mute', exec (.setMute a m) s = .next { s with
                mute := mute', reply := okReply 0 .none }
              ∧ mute'.length = s.cfg.chans + 1
              ∧ ∀ j : Nat, mute'.getD j false = if j = a.toNat then m else s.mute.getD j false)
            ∧ ∃ volume', exec (.setVol a v) s = .next { s with
                volume := volume', reply := okReply 0 .none }
              ∧ volume'.length = s.cfg.chans + 1
              ∧ ∀ j : Nat, volume'.getD j 0 = if j = a.toNat then v else s.volume.getD j 0))
      ∧ (s.cfg.chans < a.toNat →
        decode s.cfg.ch muteWord = .illegal .operandRange
          ∧ decode s.cfg.ch volWord = .illegal .operandRange
          ∧ (inPayload s = .none →
            exec (.setMute a m) s = .next { s with reply := illegal }
              ∧ exec (.setVol a v) s = .next { s with reply := illegal }))
      ∧ ∀ k : Nat, 1 < k → k < 2 ^ 16 →
        decode s.cfg.ch (BitVec.ofNat 32 (0x21000000 + a.toNat * 2 ^ 16 + k))
          = .illegal .mustBeZero

/-- 43_control_status.md R226: the word of SET_ALT; it sets both session flags and nothing else. -/
def Obligations.SetAltSetsSessionFlags : Prop :=
  ∀ (s : State) (out inn : Bool),
    decode s.cfg.ch (BitVec.ofNat 32 (0x23000000 + out.toNat + 2 * inn.toNat))
        = .command (.setAlt out inn)
      ∧ (inPayload s = .none → exec (.setAlt out inn) s = .next { s with
          outActive := out, inActive := inn, reply := okReply 0 .none })

/-- 43_control_status.md R227, 10_state.md R37, R43: the word of RD_REG; it returns the value of its index
and has no side effect; an index that is not in the map is illegal. That `exec` of a term with such an
index, which no word decodes to, answers ILLEGAL as well is the model's inference, log entry 12
(DEDUCED). -/
def Obligations.RdRegReadsTheMap : Prop :=
  ∀ s : State,
    let word := fun a : BitVec 8 => BitVec.ofNat 32 (0x30000000 + a.toNat * 2 ^ 16)
    let reads := fun (a : BitVec 8) (v : Word) =>
      decode s.cfg.ch (word a) = .command (.rdReg a)
        ∧ (inPayload s = .none →
          exec (.rdReg a) s = .next { s with reply := okReply v .none })
    (∀ e ∈ registerRows s, reads e.1 e.2)
      ∧ (∀ i : Nat, i ≤ s.cfg.chans →
          reads (BitVec.ofNat 8 (0x40 + i)) (BitVec.ofNat 32 (s.mute.getD i false).toNat)
            ∧ reads (BitVec.ofNat 8 (0x50 + i)) (BitVec.ofInt 32 (s.volume.getD i 0).toInt))
      ∧ ∀ a : BitVec 8, (∀ e ∈ registerRows s, a ≠ e.1) →
          (∀ i ≤ s.cfg.chans, a.toNat ≠ 0x40 + i ∧ a.toNat ≠ 0x50 + i) →
          decode s.cfg.ch (word a) = .illegal .operandRange
            ∧ (inPayload s = .none → exec (.rdReg a) s = .next { s with
              reply := some { status := .illegal, data := 0, out := .none, wake := false } })

/-- 43_control_status.md R228: the word of RD_FLAGS; it returns all four flags and clears them; a second one
returns 0. -/
def Obligations.RdFlagsReturnsAndClears : Prop :=
  ∀ s : State, decode s.cfg.ch 0x31000000 = .command .rdFlags
    ∧ (inPayload s = .none →
      ∃ t, exec .rdFlags s = .next t
        ∧ t = { s with flags := 0, reply := okReply (BitVec.ofNat 32 s.flags.toNat) .none }
        ∧ exec .rdFlags t = .next { t with reply := okReply 0 .none })

/-! ## Reset and recovery -/

/-- 10_state.md R39, 70_reset_and_hazards.md R280: the state after hardware reset, for every
configuration. Every storage location reads 0. -/
def Obligations.ResetLeavesStatedValues : Prop :=
  ∀ p : Params,
    let s := State.resetOf p
    s.state = .init
      ∧ (∀ r, r = s.tx ∨ r = s.rx →
          r.rd = 0 ∧ r.wr = 0 ∧ r.used = 0 ∧ ∀ a : Nat, memRead r.buf a = 0)
      ∧ s.rate = 48000
      ∧ s.mute = List.replicate (p.chans + 1) false
      ∧ s.volume = List.replicate (p.chans + 1) 0
      ∧ s.outActive = false ∧ s.inActive = false
      ∧ s.cfsc = 0 ∧ s.sampleOffset = 0 ∧ s.dwso = 0 ∧ s.dwOk = 0
      ∧ s.corrInterval = 0 ∧ s.corrCounter = 0 ∧ s.wfc = 0
      ∧ s.corrPending = false ∧ s.bphase = 0 ∧ s.batchMode = .none
      ∧ s.bb = List.replicate p.transfer 0
      ∧ s.flags = 0 ∧ s.ovfCount = 0 ∧ s.unfCount = 0
      ∧ err s = false

/-- The source's overload recovery scenario (43_control_status.md R222, 42_transport.md R174,
60_exceptions.md R259): after OVERLOAD or REQ_RESET the next CODEC_XCHG empties both rings, restarts
priming and answers silence; the OVERLOAD flag stays set, and a reset request sets none. -/
def Obligations.NextCodecBlockRecovers : Prop :=
  ∀ (s : State) (w : Word) (b : List Word) (rest : List Command),
    w = 0x11000000 ∨ w = 0x10000000 →
    s.port = { cw := w, payload := .none } :: { cw := 0x01000000, payload := .words b } :: rest →
    b.length = s.cfg.blockLen →
    ∃ t, Host.Core.run Sys2Proof.core 2 s = .next t
      ∧ t.state = .init
      ∧ t.tx.used = 0 ∧ t.rx.used = 0
      ∧ (∀ a : Nat, memRead t.tx.buf a = 0 ∧ memRead t.rx.buf a = 0)
      ∧ t.flags = (if w = 0x11000000 then s.flags ||| 0b0001 else s.flags)
      ∧ t.sampleOffset = s.sampleOffset ∧ t.rate = s.rate ∧ t.wfc = s.wfc
      ∧ t.reply = codecReply (List.replicate s.cfg.blockLen 0)
      ∧ t.port = rest

/-! ## Invariants -/

/-- The state after hardware reset is sound, in every configuration (10_state.md R39, R41). -/
def Obligations.ResetMeetsInvariant : Prop :=
  Inv State.reset ∧ ∀ p : Params, Inv (State.resetOf p)

/-- Every step keeps the invariant (10_state.md R40, R41; 42_transport.md R188): occupancy and cursors in
range and in agreement, whole frames, canonical storage, pending corrections and batches only where the
rules put them. -/
def Obligations.StepKeepsInvariant : Prop :=
  ∀ s t : State, Inv s → step s = .next t → Inv t

/-- From reset, in every configuration and for every sequence of commands, every state reached is sound:
the bounds and the consistency of both rings hold after every command (10_state.md R41,
70_reset_and_hazards.md R295). -/
def Obligations.EveryRunFromResetIsSound : Prop :=
  ∀ (p : Params) (cmds : List Command) (k : Nat) (t : State),
    Host.Core.run Sys2Proof.core k { State.resetOf p with port := cmds } = .next t →
    Inv t ∧ t.cfg = p

/-- 10_state.md R41, 60_exceptions.md R253: from a sound state no step raises a consistency error. -/
def Obligations.NoConsistencyErrorFromSoundState : Prop :=
  ∀ s t : State, Inv s → step s = .next t →
    s.flags.getLsbD 3 = false → t.flags.getLsbD 3 = false

/-! ## Whole-machine rules -/

/-- 42_transport.md R171: the transitions of the transport state. A command that changes `state` is one of
these, under these conditions; no other transition exists. -/
def Obligations.TransportTransitionsAreListed : Prop :=
  ∀ (i : Instr) (s t : State), exec i s = .next t → t.state ≠ s.state →
    let sound := consistent s.cfg.cap s.tx = true ∧ consistent s.cfg.cap s.rx = true
    let d := driftFrame s
    let frameMoves := sound ∧ s.cfg.transfer ≤ s.tx.used.toNat
      ∧ s.rx.used.toNat + s.cfg.transfer ≤ s.cfg.cap
    let due := (s.state = .normal ∨ s.corrPending = false)
      ∧ d.corrInterval.toNat ≤ (s.corrCounter + 1).toNat
    ((i = .reqReset ∨ i = .overload) ∧ t.state = .needsReset)
      ∨ (i = .codecXchg ∧ s.state = .needsReset ∧ t.state = .init)
      ∨ (i = .codecXchg ∧ isPriming s.state = true ∧ t.state = .needsReset ∧ ¬sound)
      ∨ (i = .codecXchg ∧ isSteady s.state = true ∧ t.state = .needsReset
        ∧ (¬sound ∨ CodecBlockFails s))
      ∨ (i = .usbSof ∧ isPriming s.state = true ∧ t.state = .normal ∧ sound
        ∧ s.tx.used.toNat = s.cfg.normalSize ∧ s.cfg.transfer ≤ s.rx.used.toNat)
      ∨ (i = .usbSof ∧ isPriming s.state = true ∧ t.state = .needsReset
        ∧ (¬sound ∨ s.cfg.cap < s.rx.used.toNat + s.cfg.transfer))
      ∨ (i = .usbSof ∧ isSteady s.state = true ∧ t.state = .codecRemove
        ∧ frameMoves ∧ due ∧ 0 < d.sampleOffset.toInt)
      ∨ (i = .usbSof ∧ isSteady s.state = true ∧ t.state = .codecDuplicate
        ∧ frameMoves ∧ due ∧ d.sampleOffset.toInt < 0)
      ∨ (i = .usbSof ∧ (s.state = .codecRemove ∨ s.state = .codecDuplicate) ∧ t.state = .normal
        ∧ frameMoves ∧ s.corrPending = false)
      ∨ (i = .usbSof ∧ isSteady s.state = true ∧ t.state = .needsReset
        ∧ (¬sound ∨ (s.tx.used.toNat < s.cfg.transfer ∧ s.cfg.underflowRefill = false)
          ∨ s.cfg.cap < s.rx.used.toNat + s.cfg.transfer))
      ∨ (i = .usbSof ∧ isSteady s.state = true ∧ t.state = .fillingUnderflow ∧ sound
        ∧ s.cfg.underflowRefill = true ∧ s.tx.used.toNat < s.cfg.transfer
        ∧ s.rx.used.toNat + s.cfg.transfer ≤ s.cfg.cap)

/-- 10_state.md R35, R36: a set flag stays set until RD_FLAGS; bit 0 is set by OVERLOAD only, bits 1 to 3
by the exchange commands only; and the counters count the errors whose flags are set with them. -/
def Obligations.FlagsAreSticky : Prop :=
  ∀ (i : Instr) (s t : State), exec i s = .next t →
    (i ≠ .rdFlags → s.flags &&& t.flags = s.flags)
      ∧ (i = .rdFlags → t.flags = 0)
      ∧ (t.flags.getLsbD 0 = true → s.flags.getLsbD 0 = true ∨ i = .overload)
      ∧ (∀ k : Nat, 1 ≤ k → t.flags.getLsbD k = true →
          s.flags.getLsbD k = true ∨ i = .codecXchg ∨ i = .usbSof)
      ∧ (t.ovfCount = s.ovfCount ∨ (t.ovfCount = s.ovfCount + 1 ∧ t.flags.getLsbD 1 = true))
      ∧ (t.unfCount = s.unfCount ∨ (t.unfCount = s.unfCount + 1 ∧ t.flags.getLsbD 2 = true))
      ∧ (i ≠ .codecXchg → i ≠ .usbSof → t.ovfCount = s.ovfCount ∧ t.unfCount = s.unfCount)

/-- 70_reset_and_hazards.md R295: both exchange commands answer silence, `N` zero words or `2 T` zero bytes,
whenever `state` is not steady at the start of the command, and whenever the command raises an error. -/
def Obligations.SilenceUnlessSteadyAndSound : Prop :=
  ∀ (i : Instr) (s t : State), i = .codecXchg ∨ i = .usbSof → exec i s = .next t →
    isSteady s.state = false ∨ t.flags ≠ s.flags ∨ t.ovfCount ≠ s.ovfCount
      ∨ t.unfCount ≠ s.unfCount ∨ t.state = .needsReset →
    (i = .codecXchg → t.reply = codecReply (List.replicate s.cfg.blockLen 0))
      ∧ (i = .usbSof → t.reply = okReply 0 (.bytes (List.replicate (2 * s.cfg.transfer) 0)))

/-- The frame of the whole machine (10_state.md R25 to R38; 41_drift.md R161 d): each register is written
by the commands its rule names and by no other. -/
def Obligations.OnlyItsCommandsWriteARegister : Prop :=
  ∀ (i : Instr) (s t : State), exec i s = .next t →
    t.cfg = s.cfg
      ∧ t.port = s.port
      ∧ ((∀ r, i ≠ .setRate r) → t.rate = s.rate)
      ∧ ((∀ a m, i ≠ .setMute a m) → t.mute = s.mute)
      ∧ ((∀ a v, i ≠ .setVol a v) → t.volume = s.volume)
      ∧ ((∀ o n, i ≠ .setAlt o n) → t.outActive = s.outActive ∧ t.inActive = s.inActive)
      ∧ (i ≠ .usbSof → t.sampleOffset = s.sampleOffset ∧ t.dwso = s.dwso ∧ t.dwOk = s.dwOk
          ∧ t.corrInterval = s.corrInterval ∧ t.corrCounter = s.corrCounter ∧ t.wfc = s.wfc)
      ∧ ((∀ d, i ≠ .cntAdj d) → i ≠ .codecXchg → i ≠ .usbSof → t.cfsc = s.cfsc)
      ∧ (i ≠ .codecXchg → i ≠ .usbSof → t.tx = s.tx ∧ t.rx = s.rx
          ∧ t.corrPending = s.corrPending ∧ t.bphase = s.bphase ∧ t.batchMode = s.batchMode
          ∧ t.bb = s.bb)

/-- 10_state.md R23: `tx.wr` and the storage of TX are the codec side's, `tx.rd`, `rx.wr` and the storage of
RX the USB side's. USB_SOF writes `rx.rd` only in the clamp of R183; CODEC_XCHG writes the storage of RX
only in the in-place correction at a batch start (42_transport.md R177), and it writes the others only in
the re-initialisation of R172. -/
def Obligations.EachSideWritesItsOwnCursors : Prop :=
  ∀ s t : State,
    (exec .usbSof s = .next t →
      t.tx.wr = s.tx.wr ∧ t.tx.buf = s.tx.buf ∧ t.bb = s.bb
        ∧ (t.rx.rd = s.rx.rd ∨ (isPriming s.state = true ∧ t.state = .normal)))
      ∧ (exec .codecXchg s = .next t →
        (t.tx.rd = s.tx.rd ∧ t.rx.wr = s.rx.wr
          ∧ (t.rx.buf = s.rx.buf
            ∨ (s.cfg.resampled = true ∧ isSteady s.state = true ∧ startsCorrection s)))
        ∨ (s.state = .needsReset ∧ t.state = .init))

/-- 41_drift.md R161 (a), 42_transport.md R188 (e) (the source's "No-drift idempotence"): one nominal
millisecond, three blocks and a USB frame, takes a drift-free steady state to a drift-free steady state
with the same occupancies, with either strategy: no correction and no error ever comes of it. -/
def Obligations.NominalMillisecondIsSteady : Prop :=
  ∀ (s : State) (b1 b2 b3 : List Word) (f : List Byte) (rest : List Command),
    Inv s → s.state = .normal → s.bphase = 0 →
    s.cfsc = 0 → s.dwso = 0 → s.sampleOffset = 0 →
    s.tx.used.toNat = s.cfg.normalSize → s.rx.used.toNat = 2 * s.cfg.transfer →
    b1.length = s.cfg.blockLen → b2.length = s.cfg.blockLen → b3.length = s.cfg.blockLen →
    f.length = 2 * s.cfg.transfer →
    s.port = { cw := 0x01000000, payload := .words b1 }
      :: { cw := 0x01000000, payload := .words b2 }
      :: { cw := 0x01000000, payload := .words b3 }
      :: { cw := 0x02000000, payload := .bytes f } :: rest →
    ∃ t, Host.Core.run Sys2Proof.core 4 s = .next t
      ∧ Inv t ∧ t.state = .normal ∧ t.bphase = 0
      ∧ t.cfsc = 0 ∧ t.dwso = 0 ∧ t.sampleOffset = 0
      ∧ t.tx.used.toNat = s.cfg.normalSize ∧ t.rx.used.toNat = 2 * s.cfg.transfer
      ∧ t.flags = s.flags ∧ t.corrCounter = s.corrCounter + 1
      ∧ t.cfg = s.cfg ∧ t.port = rest

/-- 42_transport.md R189, for a batch with no correction: from a steady state three blocks leave the
resampled and the non-resampled block in the same state, storage included, but for the batch buffer, and
give the codec the same samples. -/
def Obligations.BatchEqualsThreeDirectBlocks : Prop :=
  ∀ (s : State) (b1 b2 b3 : List Word) (rest : List Command),
    Inv s → isSteady s.state = true → s.cfg.resampled = false → s.corrPending = false →
    s.tx.used.toNat + s.cfg.transfer ≤ s.cfg.cap → s.cfg.transfer ≤ s.rx.used.toNat →
    b1.length = s.cfg.blockLen → b2.length = s.cfg.blockLen → b3.length = s.cfg.blockLen →
    s.port = { cw := 0x01000000, payload := .words b1 }
      :: { cw := 0x01000000, payload := .words b2 }
      :: { cw := 0x01000000, payload := .words b3 } :: rest →
    let s' := { s with cfg := { s.cfg with resampled := true } }
    (∀ k ≤ 3, ∃ t t', Host.Core.run Sys2Proof.core k s = .next t
        ∧ Host.Core.run Sys2Proof.core k s' = .next t'
        ∧ t'.reply = t.reply ∧ t'.rx = t.rx)
      ∧ ∃ t t', Host.Core.run Sys2Proof.core 3 s = .next t
        ∧ Host.Core.run Sys2Proof.core 3 s' = .next t'
        ∧ t' = { t with cfg := { s.cfg with resampled := true }, bb := t'.bb }
end

