-- ==== Sys2Proof/Laws/Interp.lean ====
section
/-! SUPPORT. The shape of the interpolation operator's results (40_resampler.md R123, R124): how many
samples, and which pair of input frames and which fraction each output sample is taken from. -/

namespace Sys2Proof.Laws

open Sys2Proof Sys2Proof.Machine

@[simp] theorem lerpFrame_length (ch : Nat) (src : List Sample) (j f : Nat) :
    (lerpFrame ch src j f).length = ch := by simp [lerpFrame]

/-- A list made of `n` frames of `ch` samples. -/
theorem length_flatMap_frames {ch : Nat} (g : Nat → List Sample) (hg : ∀ i, (g i).length = ch)
    (n : Nat) : ((List.range n).flatMap g).length = n * ch := by
  simp [List.length_flatMap, hg]

@[simp] theorem shrink_length (ch : Nat) (src : List Sample) : (shrink ch src).length = 47 * ch :=
  length_flatMap_frames _ (fun i => lerpFrame_length ch src i _) 47

@[simp] theorem stretch_length (ch : Nat) (src : List Sample) :
    (stretch ch src).length = 49 * ch :=
  length_flatMap_frames _ (fun _ => lerpFrame_length ch src _ _) 49

/-- The element at frame `i`, channel `c` of a list made frame by frame. -/
theorem getD_flatMap_frames {ch : Nat} (g : Nat → List Sample) (hg : ∀ i, (g i).length = ch) :
    ∀ (n i c : Nat), i < n → c < ch →
      ((List.range n).flatMap g).getD (i * ch + c) 0 = (g i).getD c 0 := by
  intro n
  induction n with
  | zero => intro i c hi; omega
  | succ n ih =>
    intro i c hi hc
    have hlen := length_flatMap_frames g hg n
    rw [List.range_succ, List.flatMap_append, List.flatMap_singleton]
    by_cases h : i < n
    · have hlt : i * ch + c < n * ch := by nlinarith
      rw [List.getD_append _ _ _ _ (by rw [hlen]; exact hlt), ih i c h hc]
    · have hi' : i = n := by omega
      subst hi'
      rw [List.getD_append_right _ _ _ _ (by rw [hlen]; omega), hlen]
      congr 1
      omega

/-- A sample of an output frame. -/
theorem lerpFrame_getD (ch : Nat) (src : List Sample) (j f c : Nat) (hc : c < ch) :
    (lerpFrame ch src j f).getD c 0 =
      lerpSample (frameSample ch src j c) (frameSample ch src (j + 1) c) f := by
  simp [lerpFrame, List.getD_eq_getElem?_getD, hc]

end Sys2Proof.Laws
end

