-- ==== Sys2Proof/Laws/State.lean ====
section
/-! SUPPORT. One lemma per field per named update of State: what the update leaves in the field, true by
`rfl`. -/

namespace Sys2Proof.Laws

open Sys2Proof Sys2Proof.Machine

/-! ## respond -/

@[simp] theorem respond_cfg (st : Status) (data : Word) (out : Payload) (s : State) :
    (respond st data out s).cfg = s.cfg := rfl

@[simp] theorem respond_state (st : Status) (data : Word) (out : Payload) (s : State) :
    (respond st data out s).state = s.state := rfl

@[simp] theorem respond_tx (st : Status) (data : Word) (out : Payload) (s : State) :
    (respond st data out s).tx = s.tx := rfl

@[simp] theorem respond_rx (st : Status) (data : Word) (out : Payload) (s : State) :
    (respond st data out s).rx = s.rx := rfl

@[simp] theorem respond_rate (st : Status) (data : Word) (out : Payload) (s : State) :
    (respond st data out s).rate = s.rate := rfl

@[simp] theorem respond_mute (st : Status) (data : Word) (out : Payload) (s : State) :
    (respond st data out s).mute = s.mute := rfl

@[simp] theorem respond_volume (st : Status) (data : Word) (out : Payload) (s : State) :
    (respond st data out s).volume = s.volume := rfl

@[simp] theorem respond_outActive (st : Status) (data : Word) (out : Payload) (s : State) :
    (respond st data out s).outActive = s.outActive := rfl

@[simp] theorem respond_inActive (st : Status) (data : Word) (out : Payload) (s : State) :
    (respond st data out s).inActive = s.inActive := rfl

@[simp] theorem respond_cfsc (st : Status) (data : Word) (out : Payload) (s : State) :
    (respond st data out s).cfsc = s.cfsc := rfl

@[simp] theorem respond_sampleOffset (st : Status) (data : Word) (out : Payload) (s : State) :
    (respond st data out s).sampleOffset = s.sampleOffset := rfl

@[simp] theorem respond_dwso (st : Status) (data : Word) (out : Payload) (s : State) :
    (respond st data out s).dwso = s.dwso := rfl

@[simp] theorem respond_dwOk (st : Status) (data : Word) (out : Payload) (s : State) :
    (respond st data out s).dwOk = s.dwOk := rfl

@[simp] theorem respond_corrInterval (st : Status) (data : Word) (out : Payload) (s : State) :
    (respond st data out s).corrInterval = s.corrInterval := rfl

@[simp] theorem respond_corrCounter (st : Status) (data : Word) (out : Payload) (s : State) :
    (respond st data out s).corrCounter = s.corrCounter := rfl

@[simp] theorem respond_wfc (st : Status) (data : Word) (out : Payload) (s : State) :
    (respond st data out s).wfc = s.wfc := rfl

@[simp] theorem respond_corrPending (st : Status) (data : Word) (out : Payload) (s : State) :
    (respond st data out s).corrPending = s.corrPending := rfl

@[simp] theorem respond_bphase (st : Status) (data : Word) (out : Payload) (s : State) :
    (respond st data out s).bphase = s.bphase := rfl

@[simp] theorem respond_batchMode (st : Status) (data : Word) (out : Payload) (s : State) :
    (respond st data out s).batchMode = s.batchMode := rfl

@[simp] theorem respond_bb (st : Status) (data : Word) (out : Payload) (s : State) :
    (respond st data out s).bb = s.bb := rfl

@[simp] theorem respond_flags (st : Status) (data : Word) (out : Payload) (s : State) :
    (respond st data out s).flags = s.flags := rfl

@[simp] theorem respond_ovfCount (st : Status) (data : Word) (out : Payload) (s : State) :
    (respond st data out s).ovfCount = s.ovfCount := rfl

@[simp] theorem respond_unfCount (st : Status) (data : Word) (out : Payload) (s : State) :
    (respond st data out s).unfCount = s.unfCount := rfl

@[simp] theorem respond_port (st : Status) (data : Word) (out : Payload) (s : State) :
    (respond st data out s).port = s.port := rfl

@[simp] theorem respond_reply (st : Status) (data : Word) (out : Payload) (s : State) :
    (respond st data out s).reply =
      some { status := st, data := data, out := out, wake := false } :=
  rfl

/-! ## respondWake -/

@[simp] theorem respondWake_cfg (out : List Word) (s : State) :
    (respondWake out s).cfg = s.cfg := rfl

@[simp] theorem respondWake_state (out : List Word) (s : State) :
    (respondWake out s).state = s.state := rfl

@[simp] theorem respondWake_tx (out : List Word) (s : State) : (respondWake out s).tx = s.tx := rfl

@[simp] theorem respondWake_rx (out : List Word) (s : State) : (respondWake out s).rx = s.rx := rfl

@[simp] theorem respondWake_rate (out : List Word) (s : State) :
    (respondWake out s).rate = s.rate := rfl

@[simp] theorem respondWake_mute (out : List Word) (s : State) :
    (respondWake out s).mute = s.mute := rfl

@[simp] theorem respondWake_volume (out : List Word) (s : State) :
    (respondWake out s).volume = s.volume := rfl

@[simp] theorem respondWake_outActive (out : List Word) (s : State) :
    (respondWake out s).outActive = s.outActive := rfl

@[simp] theorem respondWake_inActive (out : List Word) (s : State) :
    (respondWake out s).inActive = s.inActive := rfl

@[simp] theorem respondWake_cfsc (out : List Word) (s : State) :
    (respondWake out s).cfsc = s.cfsc := rfl

@[simp] theorem respondWake_sampleOffset (out : List Word) (s : State) :
    (respondWake out s).sampleOffset = s.sampleOffset := rfl

@[simp] theorem respondWake_dwso (out : List Word) (s : State) :
    (respondWake out s).dwso = s.dwso := rfl

@[simp] theorem respondWake_dwOk (out : List Word) (s : State) :
    (respondWake out s).dwOk = s.dwOk := rfl

@[simp] theorem respondWake_corrInterval (out : List Word) (s : State) :
    (respondWake out s).corrInterval = s.corrInterval := rfl

@[simp] theorem respondWake_corrCounter (out : List Word) (s : State) :
    (respondWake out s).corrCounter = s.corrCounter := rfl

@[simp] theorem respondWake_wfc (out : List Word) (s : State) :
    (respondWake out s).wfc = s.wfc := rfl

@[simp] theorem respondWake_corrPending (out : List Word) (s : State) :
    (respondWake out s).corrPending = s.corrPending := rfl

@[simp] theorem respondWake_bphase (out : List Word) (s : State) :
    (respondWake out s).bphase = s.bphase := rfl

@[simp] theorem respondWake_batchMode (out : List Word) (s : State) :
    (respondWake out s).batchMode = s.batchMode := rfl

@[simp] theorem respondWake_bb (out : List Word) (s : State) : (respondWake out s).bb = s.bb := rfl

@[simp] theorem respondWake_flags (out : List Word) (s : State) :
    (respondWake out s).flags = s.flags := rfl

@[simp] theorem respondWake_ovfCount (out : List Word) (s : State) :
    (respondWake out s).ovfCount = s.ovfCount := rfl

@[simp] theorem respondWake_unfCount (out : List Word) (s : State) :
    (respondWake out s).unfCount = s.unfCount := rfl

@[simp] theorem respondWake_port (out : List Word) (s : State) :
    (respondWake out s).port = s.port := rfl

@[simp] theorem respondWake_reply (out : List Word) (s : State) :
    (respondWake out s).reply =
      some { status := .ok, data := 0, out := .words out, wake := true } :=
  rfl

/-! ## raise -/

@[simp] theorem raise_cfg (c : Cause) (s : State) : (raise c s).cfg = s.cfg := rfl

@[simp] theorem raise_state (c : Cause) (s : State) : (raise c s).state = .needsReset := rfl

@[simp] theorem raise_tx (c : Cause) (s : State) : (raise c s).tx = s.tx := rfl

@[simp] theorem raise_rx (c : Cause) (s : State) : (raise c s).rx = s.rx := rfl

@[simp] theorem raise_rate (c : Cause) (s : State) : (raise c s).rate = s.rate := rfl

@[simp] theorem raise_mute (c : Cause) (s : State) : (raise c s).mute = s.mute := rfl

@[simp] theorem raise_volume (c : Cause) (s : State) : (raise c s).volume = s.volume := rfl

@[simp] theorem raise_outActive (c : Cause) (s : State) : (raise c s).outActive = s.outActive := rfl

@[simp] theorem raise_inActive (c : Cause) (s : State) : (raise c s).inActive = s.inActive := rfl

@[simp] theorem raise_cfsc (c : Cause) (s : State) : (raise c s).cfsc = s.cfsc := rfl

@[simp] theorem raise_sampleOffset (c : Cause) (s : State) :
    (raise c s).sampleOffset = s.sampleOffset := rfl

@[simp] theorem raise_dwso (c : Cause) (s : State) : (raise c s).dwso = s.dwso := rfl

@[simp] theorem raise_dwOk (c : Cause) (s : State) : (raise c s).dwOk = s.dwOk := rfl

@[simp] theorem raise_corrInterval (c : Cause) (s : State) :
    (raise c s).corrInterval = s.corrInterval := rfl

@[simp] theorem raise_corrCounter (c : Cause) (s : State) :
    (raise c s).corrCounter = s.corrCounter := rfl

@[simp] theorem raise_wfc (c : Cause) (s : State) : (raise c s).wfc = s.wfc := rfl

@[simp] theorem raise_corrPending (c : Cause) (s : State) :
    (raise c s).corrPending = s.corrPending := rfl

@[simp] theorem raise_bphase (c : Cause) (s : State) : (raise c s).bphase = s.bphase := rfl

@[simp] theorem raise_batchMode (c : Cause) (s : State) : (raise c s).batchMode = s.batchMode := rfl

@[simp] theorem raise_bb (c : Cause) (s : State) : (raise c s).bb = s.bb := rfl

@[simp] theorem raise_flags (c : Cause) (s : State) : (raise c s).flags = setFlag c s.flags := rfl

@[simp] theorem raise_ovfCount (c : Cause) (s : State) :
    (raise c s).ovfCount =
      if c = .overflow then wrapU32 (s.ovfCount.toNat + 1) else s.ovfCount :=
  rfl

@[simp] theorem raise_unfCount (c : Cause) (s : State) :
    (raise c s).unfCount =
      if c = .underflow then wrapU32 (s.unfCount.toNat + 1) else s.unfCount :=
  rfl

@[simp] theorem raise_port (c : Cause) (s : State) : (raise c s).port = s.port := rfl

@[simp] theorem raise_reply (c : Cause) (s : State) : (raise c s).reply = s.reply := rfl

/-! ## transportReinit -/

@[simp] theorem transportReinit_cfg (s : State) : (transportReinit s).cfg = s.cfg := rfl

@[simp] theorem transportReinit_state (s : State) : (transportReinit s).state = .init := rfl

@[simp] theorem transportReinit_tx (s : State) : (transportReinit s).tx = Ring.reset := rfl

@[simp] theorem transportReinit_rx (s : State) : (transportReinit s).rx = Ring.reset := rfl

@[simp] theorem transportReinit_rate (s : State) : (transportReinit s).rate = s.rate := rfl

@[simp] theorem transportReinit_mute (s : State) : (transportReinit s).mute = s.mute := rfl

@[simp] theorem transportReinit_volume (s : State) : (transportReinit s).volume = s.volume := rfl

@[simp] theorem transportReinit_outActive (s : State) :
    (transportReinit s).outActive = s.outActive := rfl

@[simp] theorem transportReinit_inActive (s : State) :
    (transportReinit s).inActive = s.inActive := rfl

@[simp] theorem transportReinit_cfsc (s : State) : (transportReinit s).cfsc = s.cfsc := rfl

@[simp] theorem transportReinit_sampleOffset (s : State) :
    (transportReinit s).sampleOffset = s.sampleOffset := rfl

@[simp] theorem transportReinit_dwso (s : State) : (transportReinit s).dwso = s.dwso := rfl

@[simp] theorem transportReinit_dwOk (s : State) : (transportReinit s).dwOk = s.dwOk := rfl

@[simp] theorem transportReinit_corrInterval (s : State) :
    (transportReinit s).corrInterval = s.corrInterval := rfl

@[simp] theorem transportReinit_corrCounter (s : State) :
    (transportReinit s).corrCounter = s.corrCounter := rfl

@[simp] theorem transportReinit_wfc (s : State) : (transportReinit s).wfc = s.wfc := rfl

@[simp] theorem transportReinit_corrPending (s : State) :
    (transportReinit s).corrPending = false := rfl

@[simp] theorem transportReinit_bphase (s : State) : (transportReinit s).bphase = 0 := rfl

@[simp] theorem transportReinit_batchMode (s : State) : (transportReinit s).batchMode = .none := rfl

@[simp] theorem transportReinit_bb (s : State) :
    (transportReinit s).bb = silence s.cfg.transfer := rfl

@[simp] theorem transportReinit_flags (s : State) : (transportReinit s).flags = s.flags := rfl

@[simp] theorem transportReinit_ovfCount (s : State) :
    (transportReinit s).ovfCount = s.ovfCount := rfl

@[simp] theorem transportReinit_unfCount (s : State) :
    (transportReinit s).unfCount = s.unfCount := rfl

@[simp] theorem transportReinit_port (s : State) : (transportReinit s).port = s.port := rfl

@[simp] theorem transportReinit_reply (s : State) : (transportReinit s).reply = s.reply := rfl

/-! ## countBlock -/

@[simp] theorem countBlock_cfg (s : State) : (countBlock s).cfg = s.cfg := rfl

@[simp] theorem countBlock_state (s : State) : (countBlock s).state = s.state := rfl

@[simp] theorem countBlock_tx (s : State) : (countBlock s).tx = s.tx := rfl

@[simp] theorem countBlock_rx (s : State) : (countBlock s).rx = s.rx := rfl

@[simp] theorem countBlock_rate (s : State) : (countBlock s).rate = s.rate := rfl

@[simp] theorem countBlock_mute (s : State) : (countBlock s).mute = s.mute := rfl

@[simp] theorem countBlock_volume (s : State) : (countBlock s).volume = s.volume := rfl

@[simp] theorem countBlock_outActive (s : State) : (countBlock s).outActive = s.outActive := rfl

@[simp] theorem countBlock_inActive (s : State) : (countBlock s).inActive = s.inActive := rfl

@[simp] theorem countBlock_cfsc (s : State) :
    (countBlock s).cfsc = wrapU32 (s.cfsc.toNat + s.cfg.blockLen) := rfl

@[simp] theorem countBlock_sampleOffset (s : State) :
    (countBlock s).sampleOffset = s.sampleOffset := rfl

@[simp] theorem countBlock_dwso (s : State) : (countBlock s).dwso = s.dwso := rfl

@[simp] theorem countBlock_dwOk (s : State) : (countBlock s).dwOk = s.dwOk := rfl

@[simp] theorem countBlock_corrInterval (s : State) :
    (countBlock s).corrInterval = s.corrInterval := rfl

@[simp] theorem countBlock_corrCounter (s : State) :
    (countBlock s).corrCounter = s.corrCounter := rfl

@[simp] theorem countBlock_wfc (s : State) : (countBlock s).wfc = s.wfc := rfl

@[simp] theorem countBlock_corrPending (s : State) :
    (countBlock s).corrPending = s.corrPending := rfl

@[simp] theorem countBlock_bphase (s : State) : (countBlock s).bphase = s.bphase := rfl

@[simp] theorem countBlock_batchMode (s : State) : (countBlock s).batchMode = s.batchMode := rfl

@[simp] theorem countBlock_bb (s : State) : (countBlock s).bb = s.bb := rfl

@[simp] theorem countBlock_flags (s : State) : (countBlock s).flags = s.flags := rfl

@[simp] theorem countBlock_ovfCount (s : State) : (countBlock s).ovfCount = s.ovfCount := rfl

@[simp] theorem countBlock_unfCount (s : State) : (countBlock s).unfCount = s.unfCount := rfl

@[simp] theorem countBlock_port (s : State) : (countBlock s).port = s.port := rfl

@[simp] theorem countBlock_reply (s : State) : (countBlock s).reply = s.reply := rfl

/-! ## driftAccumulate -/

@[simp] theorem driftAccumulate_cfg (s : State) : (driftAccumulate s).cfg = s.cfg := rfl

@[simp] theorem driftAccumulate_state (s : State) : (driftAccumulate s).state = s.state := rfl

@[simp] theorem driftAccumulate_tx (s : State) : (driftAccumulate s).tx = s.tx := rfl

@[simp] theorem driftAccumulate_rx (s : State) : (driftAccumulate s).rx = s.rx := rfl

@[simp] theorem driftAccumulate_rate (s : State) : (driftAccumulate s).rate = s.rate := rfl

@[simp] theorem driftAccumulate_mute (s : State) : (driftAccumulate s).mute = s.mute := rfl

@[simp] theorem driftAccumulate_volume (s : State) : (driftAccumulate s).volume = s.volume := rfl

@[simp] theorem driftAccumulate_outActive (s : State) :
    (driftAccumulate s).outActive = s.outActive := rfl

@[simp] theorem driftAccumulate_inActive (s : State) :
    (driftAccumulate s).inActive = s.inActive := rfl

@[simp] theorem driftAccumulate_cfsc (s : State) : (driftAccumulate s).cfsc = 0 := rfl

@[simp] theorem driftAccumulate_sampleOffset (s : State) :
    (driftAccumulate s).sampleOffset = s.sampleOffset := rfl

@[simp] theorem driftAccumulate_dwso (s : State) :
    (driftAccumulate s).dwso =
      wrapI16 (s.dwso.toInt + ((s.cfsc.toNat : Int) - s.cfg.nominal)) :=
  rfl

@[simp] theorem driftAccumulate_dwOk (s : State) : (driftAccumulate s).dwOk = s.dwOk := rfl

@[simp] theorem driftAccumulate_corrInterval (s : State) :
    (driftAccumulate s).corrInterval = s.corrInterval := rfl

@[simp] theorem driftAccumulate_corrCounter (s : State) :
    (driftAccumulate s).corrCounter = s.corrCounter := rfl

@[simp] theorem driftAccumulate_wfc (s : State) : (driftAccumulate s).wfc = s.wfc := rfl

@[simp] theorem driftAccumulate_corrPending (s : State) :
    (driftAccumulate s).corrPending = s.corrPending := rfl

@[simp] theorem driftAccumulate_bphase (s : State) : (driftAccumulate s).bphase = s.bphase := rfl

@[simp] theorem driftAccumulate_batchMode (s : State) :
    (driftAccumulate s).batchMode = s.batchMode := rfl

@[simp] theorem driftAccumulate_bb (s : State) : (driftAccumulate s).bb = s.bb := rfl

@[simp] theorem driftAccumulate_flags (s : State) : (driftAccumulate s).flags = s.flags := rfl

@[simp] theorem driftAccumulate_ovfCount (s : State) :
    (driftAccumulate s).ovfCount = s.ovfCount := rfl

@[simp] theorem driftAccumulate_unfCount (s : State) :
    (driftAccumulate s).unfCount = s.unfCount := rfl

@[simp] theorem driftAccumulate_port (s : State) : (driftAccumulate s).port = s.port := rfl

@[simp] theorem driftAccumulate_reply (s : State) : (driftAccumulate s).reply = s.reply := rfl

/-! ## leaveCorrection -/

@[simp] theorem leaveCorrection_cfg (s : State) : (leaveCorrection s).cfg = s.cfg := rfl

@[simp] theorem leaveCorrection_state (s : State) :
    (leaveCorrection s).state =
      if (s.state = .codecRemove ∨ s.state = .codecDuplicate) ∧ s.corrPending = false then .normal else s.state :=
  rfl

@[simp] theorem leaveCorrection_tx (s : State) : (leaveCorrection s).tx = s.tx := rfl

@[simp] theorem leaveCorrection_rx (s : State) : (leaveCorrection s).rx = s.rx := rfl

@[simp] theorem leaveCorrection_rate (s : State) : (leaveCorrection s).rate = s.rate := rfl

@[simp] theorem leaveCorrection_mute (s : State) : (leaveCorrection s).mute = s.mute := rfl

@[simp] theorem leaveCorrection_volume (s : State) : (leaveCorrection s).volume = s.volume := rfl

@[simp] theorem leaveCorrection_outActive (s : State) :
    (leaveCorrection s).outActive = s.outActive := rfl

@[simp] theorem leaveCorrection_inActive (s : State) :
    (leaveCorrection s).inActive = s.inActive := rfl

@[simp] theorem leaveCorrection_cfsc (s : State) : (leaveCorrection s).cfsc = s.cfsc := rfl

@[simp] theorem leaveCorrection_sampleOffset (s : State) :
    (leaveCorrection s).sampleOffset = s.sampleOffset := rfl

@[simp] theorem leaveCorrection_dwso (s : State) : (leaveCorrection s).dwso = s.dwso := rfl

@[simp] theorem leaveCorrection_dwOk (s : State) : (leaveCorrection s).dwOk = s.dwOk := rfl

@[simp] theorem leaveCorrection_corrInterval (s : State) :
    (leaveCorrection s).corrInterval = s.corrInterval := rfl

@[simp] theorem leaveCorrection_corrCounter (s : State) :
    (leaveCorrection s).corrCounter = wrapU32 (s.corrCounter.toNat + 1) := rfl

@[simp] theorem leaveCorrection_wfc (s : State) : (leaveCorrection s).wfc = s.wfc := rfl

@[simp] theorem leaveCorrection_corrPending (s : State) :
    (leaveCorrection s).corrPending = s.corrPending := rfl

@[simp] theorem leaveCorrection_bphase (s : State) : (leaveCorrection s).bphase = s.bphase := rfl

@[simp] theorem leaveCorrection_batchMode (s : State) :
    (leaveCorrection s).batchMode = s.batchMode := rfl

@[simp] theorem leaveCorrection_bb (s : State) : (leaveCorrection s).bb = s.bb := rfl

@[simp] theorem leaveCorrection_flags (s : State) : (leaveCorrection s).flags = s.flags := rfl

@[simp] theorem leaveCorrection_ovfCount (s : State) :
    (leaveCorrection s).ovfCount = s.ovfCount := rfl

@[simp] theorem leaveCorrection_unfCount (s : State) :
    (leaveCorrection s).unfCount = s.unfCount := rfl

@[simp] theorem leaveCorrection_port (s : State) : (leaveCorrection s).port = s.port := rfl

@[simp] theorem leaveCorrection_reply (s : State) : (leaveCorrection s).reply = s.reply := rfl

end Sys2Proof.Laws
end

