-- ==== Sys2Proof/Laws/Outcome.lean ====
section
/-! SUPPORT. How a command answers (30_encoding.md R94, R95): the payload forms, the port, and one step,
said once each. -/

namespace Sys2Proof.Laws

open Sys2Proof Sys2Proof.Machine

/-! ## Payload forms -/

/-- A command without payload answers `next` exactly when it is presented with none. -/
theorem withNone_next_iff (s t : State) (f : State → State) :
    withNone s f = .next t ↔ inPayload s = .none ∧ t = f s := by
  unfold withNone
  cases inPayload s <;> simp [eq_comm]

theorem withNone_eq {s : State} (f : State → State) (h : inPayload s = .none) :
    withNone s f = .next (f s) := (withNone_next_iff s _ f).2 ⟨h, rfl⟩

/-- A command with `n` words answers `next` exactly when it is presented with `n` words. -/
theorem withWords_next_iff (n : Nat) (s t : State) (f : List Word → State → State) :
    withWords n s f = .next t ↔ ∃ l, inPayload s = .words l ∧ l.length = n ∧ t = f l s := by
  unfold withWords
  cases inPayload s <;> simp [eq_comm]
  split <;> simp_all

theorem withWords_eq {n : Nat} {s : State} {l : List Word} (f : List Word → State → State)
    (h : inPayload s = .words l) (hl : l.length = n) : withWords n s f = .next (f l s) :=
  (withWords_next_iff n s _ f).2 ⟨l, h, hl, rfl⟩

/-- A command with `n` bytes answers `next` exactly when it is presented with `n` bytes. -/
theorem withBytes_next_iff (n : Nat) (s t : State) (f : List Byte → State → State) :
    withBytes n s f = .next t ↔ ∃ l, inPayload s = .bytes l ∧ l.length = n ∧ t = f l s := by
  unfold withBytes
  cases inPayload s <;> simp [eq_comm]
  split <;> simp_all

theorem withBytes_eq {n : Nat} {s : State} {l : List Byte} (f : List Byte → State → State)
    (h : inPayload s = .bytes l) (hl : l.length = n) : withBytes n s f = .next (f l s) :=
  (withBytes_next_iff n s _ f).2 ⟨l, h, hl, rfl⟩

/-- A command with `n` 16-bit values answers `next` exactly when it is presented with `n` of them. -/
theorem withSamples_next_iff (n : Nat) (s t : State) (f : List Sample → State → State) :
    withSamples n s f = .next t ↔ ∃ l, inPayload s = .samples l ∧ l.length = n ∧ t = f l s := by
  unfold withSamples
  cases inPayload s <;> simp [eq_comm]
  split <;> simp_all

theorem withSamples_eq {n : Nat} {s : State} {l : List Sample} (f : List Sample → State → State)
    (h : inPayload s = .samples l) (hl : l.length = n) : withSamples n s f = .next (f l s) :=
  (withSamples_next_iff n s _ f).2 ⟨l, h, hl, rfl⟩

/-! ## The port and one step -/

@[simp] theorem retire_next (t : State) : retire (.next t) = .next { t with port := t.port.tail } :=
  rfl

theorem retire_next_iff (o : Host.Outcome State Fault Refusal) (t : State) :
    retire o = .next t ↔ ∃ u, o = .next u ∧ t = { u with port := u.port.tail } := by
  cases o <;> simp [retire, eq_comm]

/-- What one step can be: an idle step, an illegal word answered, or one command executed. -/
theorem step_next_cases {s t : State} (h : step s = .next t) :
    (s.port = [] ∧ t = s)
      ∨ (∃ c rest why, s.port = c :: rest ∧ decode s.cfg.ch c.cw = .illegal why
          ∧ t = { respond .illegal 0 .none s with port := rest })
      ∨ (∃ c rest i u, s.port = c :: rest ∧ decode s.cfg.ch c.cw = .command i
          ∧ exec i s = .next u ∧ t = { u with port := u.port.tail }) := by
  cases hp : s.port with
  | nil =>
    simp [step, fetch, hp] at h
    exact .inl ⟨rfl, h.symm⟩
  | cons c rest =>
    cases hd : decode s.cfg.ch c.cw with
    | illegal why =>
      simp [step, fetch, hp, hd] at h
      exact .inr (.inl ⟨c, rest, why, rfl, hd, h.symm⟩)
    | command i =>
      simp only [step, fetch, hp, hd, List.head?_cons, retire_next_iff] at h
      obtain ⟨u, hu, ht⟩ := h
      exact .inr (.inr ⟨c, rest, i, u, rfl, hd, hu, ht⟩)

end Sys2Proof.Laws
end

