-- ==== Sys2Proof/Laws/Memory.lean ====
section
/-! SUPPORT. The laws of ring storage: what a read gives after a write, that every write keeps the
canonical form, and that canonical storages with the same contents are the same list. -/

namespace Sys2Proof.Laws

open Sys2Proof Sys2Proof.Machine

@[simp] theorem wfFrom_nil (lo : Nat) : Memory.wfFrom lo [] = true := rfl

@[simp] theorem wfFrom_cons (lo a : Nat) (v : Sample) (m : Memory) :
    Memory.wfFrom lo ((a, v) :: m) = true ↔ lo ≤ a ∧ v ≠ 0 ∧ Memory.wfFrom (a + 1) m = true := by
  simp [Memory.wfFrom, and_assoc]

theorem wfFrom_mono {lo lo' : Nat} (h : lo' ≤ lo) :
    ∀ {m : Memory}, Memory.wfFrom lo m = true → Memory.wfFrom lo' m = true
  | [], _ => rfl
  | (a, v) :: m, hm => by
    rw [wfFrom_cons] at hm ⊢
    exact ⟨by omega, hm.2⟩

/-- A location below every listed one holds 0. -/
theorem memRead_of_lt {a : Nat} :
    ∀ {lo : Nat} {m : Memory}, Memory.wfFrom lo m = true → a < lo → memRead m a = 0
  | _, [], _, _ => rfl
  | lo, (b, w) :: m, hm, h => by
    rw [wfFrom_cons] at hm
    have hb : a ≠ b := by omega
    simp [memRead, hb, memRead_of_lt hm.2.2 (show a < b + 1 by omega)]

theorem wfFrom_memCons {lo a : Nat} {v : Sample} {m : Memory} (ha : lo ≤ a)
    (hm : Memory.wfFrom (a + 1) m = true) : Memory.wfFrom lo (memCons a v m) = true := by
  unfold memCons
  split
  · exact wfFrom_mono (by omega) hm
  · rw [wfFrom_cons]
    exact ⟨ha, ‹_›, hm⟩

theorem memRead_memCons {a b : Nat} {v : Sample} {m : Memory}
    (hm : Memory.wfFrom (a + 1) m = true) :
    memRead (memCons a v m) b = if b = a then v else memRead m b := by
  unfold memCons
  by_cases hb : b = a
  · subst hb
    split
    · rw [if_pos rfl, memRead_of_lt hm (Nat.lt_succ_self b)]
      exact Eq.symm ‹_›
    · simp [memRead]
  · split <;> simp [hb, memRead]

/-- A store keeps the canonical form. -/
theorem wfFrom_memWrite {a : Nat} {v : Sample} :
    ∀ {lo : Nat} {m : Memory}, lo ≤ a → Memory.wfFrom lo m = true →
      Memory.wfFrom lo (memWrite m a v) = true
  | _, [], ha, _ => wfFrom_memCons ha rfl
  | lo, (b, w) :: m, ha, hm => by
    have hc := (wfFrom_cons ..).1 hm
    unfold memWrite
    split
    · exact wfFrom_memCons ha ((wfFrom_cons ..).2 ⟨by omega, hc.2⟩)
    · split
      · subst ‹a = b›
        exact wfFrom_memCons ha hc.2.2
      · exact (wfFrom_cons ..).2 ⟨hc.1, hc.2.1, wfFrom_memWrite (by omega) hc.2.2⟩

theorem memRead_memWrite_from {a b : Nat} {v : Sample} :
    ∀ {lo : Nat} {m : Memory}, Memory.wfFrom lo m = true →
      memRead (memWrite m a v) b = if b = a then v else memRead m b
  | _, [], _ => memRead_memCons rfl
  | lo, (c, w) :: m, hm => by
    have hc := (wfFrom_cons ..).1 hm
    unfold memWrite
    split
    · exact memRead_memCons ((wfFrom_cons ..).2 ⟨by omega, hc.2⟩)
    · split
      · subst ‹a = c›
        rw [memRead_memCons hc.2.2]
        by_cases hb : b = a <;> simp [hb, memRead]
      · by_cases hb : b = c
        · have : c ≠ a := by omega
          simp [memRead, hb, this]
        · simp [memRead, hb, memRead_memWrite_from hc.2.2]

/-- Every store keeps the canonical form. -/
theorem memWrite_wf {m : Memory} (hm : m.wf = true) (a : Nat) (v : Sample) :
    (memWrite m a v).wf = true := wfFrom_memWrite (Nat.zero_le a) hm

/-- A read after a store gives the value stored at that location, and the old value anywhere else. -/
theorem memRead_memWrite {m : Memory} (hm : m.wf = true) (a b : Nat) (v : Sample) :
    memRead (memWrite m a v) b = if b = a then v else memRead m b := memRead_memWrite_from hm

/-- A store lists no location but its own and the ones listed before. -/
theorem memWrite_mem {a : Nat} {v : Sample} {c : Cell} :
    ∀ {m : Memory}, c ∈ memWrite m a v → c.1 = a ∨ c ∈ m
  | [], h => by
    unfold memWrite memCons at h
    split at h <;> simp_all
  | (b, w) :: m, h => by
    unfold memWrite memCons at h
    split at h
    · split at h <;> simp_all
      rcases h with h | h
      · exact .inl (by rw [h])
      · exact .inr h
    · split at h
      · split at h <;> simp_all
        rcases h with h | h
        · exact .inl (by rw [h])
        · exact .inr (.inr h)
      · rcases List.mem_cons.1 h with h | h
        · exact .inr (by simp [h])
        · rcases memWrite_mem h with h | h
          · exact .inl h
          · exact .inr (by simp [h])

/-- Canonical storages with the same contents are the same list. -/
theorem memory_ext_from :
    ∀ {lo : Nat} {m m' : Memory}, Memory.wfFrom lo m = true → Memory.wfFrom lo m' = true →
      (∀ a, memRead m a = memRead m' a) → m = m'
  | _, [], [], _, _, _ => rfl
  | _, [], (b, w) :: m', _, hm', h => by
    have := h b
    simp [memRead] at this
    exact absurd this.symm ((wfFrom_cons ..).1 hm').2.1
  | _, (b, w) :: m, [], hm, _, h => by
    have := h b
    simp [memRead] at this
    exact absurd this ((wfFrom_cons ..).1 hm).2.1
  | lo, (b, w) :: m, (b', w') :: m', hm, hm', h => by
    have hc := (wfFrom_cons ..).1 hm
    have hc' := (wfFrom_cons ..).1 hm'
    have hb : b = b' := by
      by_contra hne
      rcases Nat.lt_or_gt_of_ne hne with hlt | hlt
      · have h1 := h b
        rw [memRead_of_lt ((wfFrom_cons ..).2 ⟨Nat.le_refl b', hc'.2⟩) hlt] at h1
        simp [memRead] at h1
        exact hc.2.1 h1
      · have h1 := h b'
        rw [memRead_of_lt ((wfFrom_cons ..).2 ⟨Nat.le_refl b, hc.2⟩) hlt] at h1
        simp [memRead] at h1
        exact hc'.2.1 h1.symm
    subst hb
    have hw : w = w' := by simpa [memRead] using h b
    subst hw
    have htail : ∀ a, memRead m a = memRead m' a := by
      intro a
      by_cases ha : a = b
      · subst ha
        rw [memRead_of_lt hc.2.2 (Nat.lt_succ_self a), memRead_of_lt hc'.2.2 (Nat.lt_succ_self a)]
      · simpa [memRead, ha] using h a
    rw [memory_ext_from hc.2.2 hc'.2.2 htail]

theorem memory_ext {m m' : Memory} (hm : m.wf = true) (hm' : m'.wf = true)
    (h : ∀ a, memRead m a = memRead m' a) : m = m' := memory_ext_from hm hm' h

/-! ## Addresses -/

/-- On a natural address, wrapping is `%`. -/
@[simp] theorem wrapAddr_natCast (cap n : Nat) : wrapAddr cap (n : Int) = n % cap := by
  unfold wrapAddr
  omega

theorem wrapAddr_lt {cap : Nat} (h : 0 < cap) (a : Int) : wrapAddr cap a < cap := by
  unfold wrapAddr
  have h1 := Int.emod_lt_of_pos a (show (0 : Int) < cap by omega)
  have h2 := Int.emod_nonneg a (show (cap : Int) ≠ 0 by omega)
  omega

/-- Wrapped addresses agree exactly when the addresses agree modulo the capacity. -/
theorem wrapAddr_eq_iff {cap : Nat} (h : 0 < cap) (a b : Int) :
    wrapAddr cap a = wrapAddr cap b ↔ a % (cap : Int) = b % (cap : Int) := by
  unfold wrapAddr
  have h1 := Int.emod_nonneg a (show (cap : Int) ≠ 0 by omega)
  have h2 := Int.emod_nonneg b (show (cap : Int) ≠ 0 by omega)
  omega

/-- A run no longer than the capacity touches no location twice (20_memory.md R61). -/
theorem wrapAddr_run_inj {cap j k : Nat} (a : Int) (hj : j < cap) (hk : k < cap)
    (h : wrapAddr cap (a + j) = wrapAddr cap (a + k)) : j = k := by
  have h1 : (cap : Int) ∣ (a + k) - (a + j) :=
    Int.ModEq.dvd ((wrapAddr_eq_iff (by omega) _ _).1 h)
  obtain ⟨c, hc⟩ := h1
  have hc0 : c = 0 := by
    by_contra hne
    rcases Int.lt_or_gt_of_ne hne with h2 | h2
    · have : (cap : Int) * c ≤ cap * (-1) := Int.mul_le_mul_of_nonneg_left (by omega) (by omega)
      omega
    · have : (cap : Int) * 1 ≤ cap * c := Int.mul_le_mul_of_nonneg_left (by omega) (by omega)
      omega
  subst hc0
  omega

/-! ## Runs -/

@[simp] theorem memReadRun_length (cap : Nat) (m : Memory) (a : Int) (n : Nat) :
    (memReadRun cap m a n).length = n := by simp [memReadRun]

theorem memReadRun_getElem (cap : Nat) (m : Memory) (a : Int) (n k : Nat)
    (h : k < (memReadRun cap m a n).length) :
    (memReadRun cap m a n)[k] = memRead m (wrapAddr cap (a + k)) := by simp [memReadRun]

/-- Two runs of the same length are equal when they agree location by location. -/
theorem memReadRun_congr {cap cap' : Nat} {m m' : Memory} {a a' : Int} {n : Nat}
    (h : ∀ k : Nat, k < n → memRead m (wrapAddr cap (a + k)) = memRead m' (wrapAddr cap' (a' + k))) :
    memReadRun cap m a n = memReadRun cap' m' a' n := by
  unfold memReadRun
  exact List.map_congr_left fun k hk => h k (List.mem_range.1 hk)

/-- A longer run is the shorter one followed by the rest. -/
theorem memReadRun_add (cap : Nat) (m : Memory) (a : Int) (n k : Nat) :
    memReadRun cap m a (n + k) = memReadRun cap m a n ++ memReadRun cap m (a + n) k := by
  unfold memReadRun
  rw [List.range_add, List.map_append, List.map_map]
  congr 1
  exact List.map_congr_left fun j _ => by simp [add_assoc]

/-- Every run of stores keeps the canonical form. -/
theorem memWriteRun_wf (cap : Nat) :
    ∀ {m : Memory} (a : Int) (vs : List Sample), m.wf = true → (memWriteRun cap m a vs).wf = true
  | _, _, [], hm => hm
  | _, a, v :: vs, hm => memWriteRun_wf cap (a + 1) vs (memWrite_wf hm _ v)

/-- A run of stores lists only wrapped addresses beside the locations listed before. -/
theorem memWriteRun_lt {cap : Nat} (hcap : 0 < cap) :
    ∀ {m : Memory} (a : Int) (vs : List Sample), (∀ c ∈ m, c.1 < cap) →
      ∀ c ∈ memWriteRun cap m a vs, c.1 < cap
  | _, _, [], hm => hm
  | _, a, v :: vs, hm => by
    refine memWriteRun_lt hcap (a + 1) vs fun c hc => ?_
    rcases memWrite_mem hc with h | h
    · rw [h]
      exact wrapAddr_lt hcap a
    · exact hm c h

/-- A run of stores leaves every location outside the run alone. -/
theorem memRead_memWriteRun_other (cap : Nat) (b : Nat) :
    ∀ {m : Memory} (a : Int) (vs : List Sample), m.wf = true →
      (∀ k < vs.length, b ≠ wrapAddr cap (a + k)) →
      memRead (memWriteRun cap m a vs) b = memRead m b
  | _, _, [], _, _ => rfl
  | m, a, v :: vs, hm, h => by
    have hne : b ≠ wrapAddr cap a := by simpa using h 0 (by simp)
    have ih := memRead_memWriteRun_other cap b (a + 1) vs (memWrite_wf hm (wrapAddr cap a) v)
      fun k hk => by
        have h1 := h (k + 1) (by simp; omega)
        rwa [show a + ((k + 1 : Nat) : Int) = a + 1 + k by omega] at h1
    rw [memWriteRun, ih, memRead_memWrite hm, if_neg hne]

/-- A run of stores no longer than the capacity puts each value at its wrapped address. -/
theorem memRead_memWriteRun_at {cap : Nat} :
    ∀ {m : Memory} (a : Int) (vs : List Sample), m.wf = true → vs.length ≤ cap →
      ∀ (k : Nat) (hk : k < vs.length),
        memRead (memWriteRun cap m a vs) (wrapAddr cap (a + k)) = vs[k]
  | _, _, [], _, _, k, hk => absurd hk (by simp)
  | m, a, v :: vs, hm, hlen, k, hk => by
    have hlen' : vs.length + 1 ≤ cap := by simpa using hlen
    have hk' : k < vs.length + 1 := by simpa using hk
    rw [memWriteRun]
    cases k with
    | zero =>
      rw [memRead_memWriteRun_other cap _ (a + 1) vs (memWrite_wf hm _ v), memRead_memWrite hm]
      · simp
      · intro j hj he
        have he' : wrapAddr cap (a + (0 : Nat)) = wrapAddr cap (a + ((j + 1 : Nat) : Int)) := by
          rw [he, show a + 1 + (j : Int) = a + ((j + 1 : Nat) : Int) by omega]
        have := wrapAddr_run_inj a (by omega) (by omega) he'
        omega
    | succ k =>
      have ih := memRead_memWriteRun_at (cap := cap) (a + 1) vs
        (memWrite_wf hm (wrapAddr cap a) v) (by omega) k (by omega)
      rw [show a + 1 + (k : Int) = a + ((k + 1 : Nat) : Int) by omega] at ih
      rw [ih]
      simp

/-- Storing two runs one behind the other is storing them joined (20_memory.md R61). -/
theorem memWriteRun_append (cap : Nat) (v w : List Sample) : ∀ (m : Memory) (a : Int),
    memWriteRun cap m a (v ++ w) = memWriteRun cap (memWriteRun cap m a v) (a + v.length) w := by
  induction v with
  | nil => simp [memWriteRun]
  | cons x v ih =>
    intro m a
    simp only [List.cons_append, memWriteRun, ih, List.length_cons]
    congr 1
    push_cast
    omega

/-- A run may start at any address that is the same modulo CAP (20_memory.md R61). -/
theorem memWriteRun_mod (cap : Nat) (v : List Sample) : ∀ (m : Memory) (a b : Int),
    a % cap = b % cap → memWriteRun cap m a v = memWriteRun cap m b v := by
  induction v with
  | nil => intros; rfl
  | cons x v ih =>
    intro m a b h
    have h1 : (a + 1) % (cap : Int) = (b + 1) % cap := (Int.ModEq.add_right (n := cap) 1 h)
    simp only [memWriteRun, wrapAddr, h]
    exact ih _ _ _ h1

end Sys2Proof.Laws
end

