-- ==== Sys2Proof/Laws/Ring.lean ====
section
/-! SUPPORT. What the ring primitives do (20_memory.md R64 to R67), said once each: the cursors and the
occupancy they leave, the locations they write, and that they keep a ring sound. -/

namespace Sys2Proof.Laws

open Sys2Proof Sys2Proof.Machine

/-! ## Numbers in registers -/

theorem wrapU32_toNat (v : Int) : (wrapU32 v).toNat = (v % 2 ^ 32).toNat := by
  simp [wrapU32, BitVec.toNat_ofInt]

/-- A number that fits the register is stored as it is. -/
theorem wrapU32_toNat_of_lt {v : Int} {n : Nat} (hv : v = n) (hn : n < 2 ^ 32) :
    (wrapU32 v).toNat = n := by
  rw [wrapU32_toNat, hv]
  omega

/-! ## Parameters -/

theorem chans_pos (p : Params) : 0 < p.chans := by
  unfold Params.chans Channels.count
  split <;> omega

theorem chans_le (p : Params) : p.chans ≤ 4 := by
  unfold Params.chans Channels.count
  split <;> omega

theorem blockLen_eq (p : Params) : p.blockLen = 16 * p.chans := rfl

theorem transfer_eq (p : Params) : p.transfer = 48 * p.chans := by
  simp only [Params.transfer, Channels.transfer, Channels.blockLen, Params.chans]
  omega

theorem nominal_eq (p : Params) : p.nominal = p.transfer := rfl

theorem transfer_eq_blocks (p : Params) : p.transfer = 3 * p.blockLen := rfl

theorem cap_ge_transfers (p : Params) : 3 * p.transfer ≤ p.cap := p.cap_ge

theorem cap_lt_pow (p : Params) : p.cap < 2 ^ 31 := p.cap_lt

theorem cap_pos (p : Params) : 0 < p.cap := by
  have h1 := cap_ge_transfers p
  have h2 := transfer_eq p
  have h3 := chans_pos p
  omega

theorem normalSize_le_cap (p : Params) : p.normalSize ≤ p.cap := Nat.le_add_left _ _

theorem normalSize_add_transfer_le_cap (p : Params) : p.normalSize + p.transfer ≤ p.cap := by
  have h1 : p.transfer ≤ p.underflowMargin := p.margin_ge
  unfold Params.cap
  omega

theorem chans_dvd_blockLen (p : Params) : p.chans ∣ p.blockLen := ⟨16, by rw [blockLen_eq]; omega⟩

theorem chans_dvd_transfer (p : Params) : p.chans ∣ p.transfer := ⟨48, by rw [transfer_eq]; omega⟩

theorem blockLen_dvd_normalSize (p : Params) : p.blockLen ∣ p.normalSize :=
  Nat.dvd_of_mod_eq_zero p.normal_blocks

theorem chans_dvd_normalSize (p : Params) : p.chans ∣ p.normalSize :=
  (chans_dvd_blockLen p).trans (blockLen_dvd_normalSize p)

/-- CAP is whole frames (20_memory.md R63). -/
theorem chans_dvd_cap (p : Params) : p.chans ∣ p.cap :=
  Dvd.dvd.add ((chans_dvd_blockLen p).trans (Nat.dvd_of_mod_eq_zero p.margin_blocks))
    (chans_dvd_normalSize p)

/-! ## The consistency predicate -/

/-- On natural numbers: the write cursor is `used` ahead of the read cursor (20_memory.md R67). -/
theorem consistent_iff (cap : Nat) (r : Ring) :
    consistent cap r = true ↔
      r.used.toNat ≤ cap ∧ (r.rd.toNat + r.used.toNat) % cap = r.wr.toNat % cap := by
  have key : ((r.used.toNat : Int) % cap = ((r.wr.toNat : Int) - r.rd.toNat) % cap) ↔
      (r.rd.toNat + r.used.toNat) % cap = r.wr.toNat % cap := by
    rw [← Int.natCast_inj, Int.natCast_mod, Int.natCast_mod]
    push_cast
    change Int.ModEq _ _ _ ↔ Int.ModEq _ _ _
    constructor
    · intro h
      have h1 := h.add_left (r.rd.toNat : Int)
      rwa [show (r.rd.toNat : Int) + ((r.wr.toNat : Int) - r.rd.toNat) = r.wr.toNat by omega] at h1
    · intro h
      have h1 := h.sub_right (r.rd.toNat : Int)
      rwa [show (r.rd.toNat : Int) + r.used.toNat - r.rd.toNat = r.used.toNat by omega] at h1
  simp [consistent, key]

/-! ## rb_write -/

@[simp] theorem rbWrite_rd (cap : Nat) (r : Ring) (v : List Sample) : (rbWrite cap r v).rd = r.rd :=
  rfl

@[simp] theorem rbWrite_buf (cap : Nat) (r : Ring) (v : List Sample) :
    (rbWrite cap r v).buf = memWriteRun cap r.buf r.wr.toNat v := rfl

theorem rbWrite_wr {cap : Nat} (hpos : 0 < cap) (hcap : cap < 2 ^ 31) (r : Ring)
    (v : List Sample) : (rbWrite cap r v).wr.toNat = (r.wr.toNat + v.length) % cap :=
  wrapU32_toNat_of_lt rfl (by have := Nat.mod_lt (r.wr.toNat + v.length) hpos; omega)

theorem rbWrite_used (cap : Nat) (r : Ring) (v : List Sample)
    (h : r.used.toNat + v.length < 2 ^ 32) :
    (rbWrite cap r v).used.toNat = r.used.toNat + v.length :=
  wrapU32_toNat_of_lt (by push_cast; rfl) h

/-- What `rb_write` does, under its precondition (20_memory.md R64). -/
theorem rbWrite_stored {cap : Nat} {r : Ring} {v : List Sample} (hpos : 0 < cap)
    (hcap : cap < 2 ^ 31) (hbuf : r.buf.wf = true) (hroom : r.used.toNat + v.length ≤ cap) :
    Stored cap r (rbWrite cap r v) v := by
  refine ⟨rfl, rbWrite_wr hpos hcap r v, rbWrite_used cap r v (by omega), fun k hk => ?_,
    fun a ha => ?_⟩
  · have h := memRead_memWriteRun_at (cap := cap) (r.wr.toNat : Int) v hbuf (by omega) k hk
    rwa [← Int.natCast_add, wrapAddr_natCast] at h
  · refine memRead_memWriteRun_other cap a _ v hbuf fun k hk => ?_
    rw [← Int.natCast_add, wrapAddr_natCast]
    exact ha k hk

/-! ## rb_peek, rb_read -/

/-- `rb_peek` reads the oldest samples (20_memory.md R65). -/
theorem rbPeek_eq_oldest (cap : Nat) (r : Ring) (n : Nat) : rbPeek cap r n = oldest cap r n := by
  unfold rbPeek oldest memReadRun
  refine List.map_congr_left fun k _ => ?_
  rw [← Int.natCast_add, wrapAddr_natCast]

@[simp] theorem rbPeek_length (cap : Nat) (r : Ring) (n : Nat) : (rbPeek cap r n).length = n := by
  simp [rbPeek]

@[simp] theorem oldest_length (cap : Nat) (r : Ring) (n : Nat) : (oldest cap r n).length = n := by
  simp [oldest]

@[simp] theorem rbAdvance_wr (cap : Nat) (r : Ring) (n : Nat) : (rbAdvance cap r n).wr = r.wr := rfl

@[simp] theorem rbAdvance_buf (cap : Nat) (r : Ring) (n : Nat) : (rbAdvance cap r n).buf = r.buf :=
  rfl

theorem rbAdvance_rd {cap : Nat} (hpos : 0 < cap) (hcap : cap < 2 ^ 31) (r : Ring) (n : Nat) :
    (rbAdvance cap r n).rd.toNat = (r.rd.toNat + n) % cap :=
  wrapU32_toNat_of_lt rfl (by have := Nat.mod_lt (r.rd.toNat + n) hpos; omega)

theorem rbAdvance_used (cap : Nat) (r : Ring) (n : Nat) (h : n ≤ r.used.toNat) :
    (rbAdvance cap r n).used.toNat = r.used.toNat - n :=
  wrapU32_toNat_of_lt (by omega) (by have := r.used.isLt; omega)

/-- What the cursor move of `rb_read` does, under its precondition (20_memory.md R65). -/
theorem rbAdvance_consumed {cap : Nat} {r : Ring} {n : Nat} (hpos : 0 < cap) (hcap : cap < 2 ^ 31)
    (h : n ≤ r.used.toNat) : Consumed cap r (rbAdvance cap r n) n :=
  ⟨rfl, rfl, rbAdvance_rd hpos hcap r n, by rw [rbAdvance_used cap r n h]; omega⟩

/-! ## Sound rings -/

/-- A ring whose storage is canonical and in range, and whose registers agree as numbers, is sound. -/
theorem ringOk_of {p : Params} {r : Ring} (hu : r.used.toNat ≤ p.cap) (hr : r.rd.toNat < p.cap)
    (hw : r.wr.toNat = (r.rd.toNat + r.used.toNat) % p.cap) (hru : p.chans ∣ r.used.toNat)
    (hrd : p.chans ∣ r.rd.toNat) (hb : r.buf.wf = true) (hl : ∀ c ∈ r.buf, c.1 < p.cap) :
    RingOk p r where
  used_le := hu
  rd_lt := hr
  wr_lt := by rw [hw]; exact Nat.mod_lt _ (cap_pos p)
  cursors := (consistent_iff p.cap r).2 ⟨hu, by rw [hw, Nat.mod_mod]⟩
  used_frames := Nat.mod_eq_zero_of_dvd hru
  rd_frames := Nat.mod_eq_zero_of_dvd hrd
  wr_frames := by
    rw [hw]
    exact Nat.mod_eq_zero_of_dvd
      ((Nat.dvd_mod_iff (chans_dvd_cap p)).2 (Dvd.dvd.add hrd hru))
  buf_wf := hb
  buf_lt := hl

/-- In a sound ring the write cursor is `used` ahead of the read cursor. -/
theorem ringOk_wr {p : Params} {r : Ring} (h : RingOk p r) :
    r.wr.toNat = (r.rd.toNat + r.used.toNat) % p.cap := by
  have h1 := ((consistent_iff p.cap r).1 h.cursors).2
  rw [h1, Nat.mod_eq_of_lt h.wr_lt]

theorem ringOk_reset (p : Params) : RingOk p Ring.reset :=
  ringOk_of (by simp [Ring.reset]) (by simpa [Ring.reset] using cap_pos p)
    (by simp [Ring.reset]) (by simp [Ring.reset]) (by simp [Ring.reset]) rfl (by simp [Ring.reset])

/-- `rb_write` of whole frames that fit keeps a ring sound. -/
theorem ringOk_rbWrite {p : Params} {r : Ring} {v : List Sample} (h : RingOk p r)
    (hroom : r.used.toNat + v.length ≤ p.cap) (hv : p.chans ∣ v.length) :
    RingOk p (rbWrite p.cap r v) := by
  have hlt := cap_lt_pow p
  have hu := rbWrite_used p.cap r v (by omega)
  refine ringOk_of (by rw [hu]; exact hroom) h.rd_lt ?_ ?_ (Nat.dvd_of_mod_eq_zero h.rd_frames)
    (memWriteRun_wf _ _ _ h.buf_wf) (memWriteRun_lt (cap_pos p) _ _ h.buf_lt)
  · rw [rbWrite_wr (cap_pos p) hlt, hu, rbWrite_rd, ringOk_wr h, Nat.mod_add_mod, Nat.add_assoc]
  · rw [hu]
    exact Dvd.dvd.add (Nat.dvd_of_mod_eq_zero h.used_frames) hv

/-- `rb_read` of whole frames that are there keeps a ring sound. -/
theorem ringOk_rbAdvance {p : Params} {r : Ring} {n : Nat} (h : RingOk p r)
    (hn : n ≤ r.used.toNat) (hf : p.chans ∣ n) : RingOk p (rbAdvance p.cap r n) := by
  have hlt := cap_lt_pow p
  have hpos := cap_pos p
  have hu := rbAdvance_used p.cap r n hn
  have hul := h.used_le
  refine ringOk_of (by omega) (by rw [rbAdvance_rd hpos hlt]; exact Nat.mod_lt _ hpos) ?_ ?_ ?_
    h.buf_wf h.buf_lt
  · rw [rbAdvance_wr, rbAdvance_rd hpos hlt, hu, Nat.mod_add_mod, ringOk_wr h]
    congr 1
    omega
  · rw [hu]
    exact Nat.dvd_sub (Nat.dvd_of_mod_eq_zero h.used_frames) hf
  · rw [rbAdvance_rd hpos hlt]
    exact (Nat.dvd_mod_iff (chans_dvd_cap p)).2
      (Dvd.dvd.add (Nat.dvd_of_mod_eq_zero h.rd_frames) hf)

end Sys2Proof.Laws
end

