-- ==== Sys2Proof/Laws/Exchange.lean ====
section
/-! SUPPORT. The cases of the two exchange commands (42_transport.md R173, R180) and of what they call,
said once each, so that no proof unfolds them again. -/

namespace Sys2Proof.Laws

open Sys2Proof Sys2Proof.Machine

/-! ## The two commands -/

/-- CODEC_XCHG with a block of `N` words (42_transport.md R173). -/
theorem exec_codecXchg {s : State} {d2h : List Word} (h : inPayload s = .words d2h)
    (hl : d2h.length = s.cfg.blockLen) :
    exec .codecXchg s = .next
      (respondWake (codecExchange d2h (countBlock s)).2 (codecExchange d2h (countBlock s)).1) := by
  rw [exec, execCodecXchg, withWords_eq _ h hl]

/-- USB_SOF with a frame of `2 T` bytes (42_transport.md R180). -/
theorem exec_usbSof {s : State} {rxb : List Byte} (h : inPayload s = .bytes rxb)
    (hl : rxb.length = 2 * s.cfg.transfer) :
    exec .usbSof s = .next
      (respond .ok 0
        (.bytes (bytesOfSamples (usbExchange (samplesOfBytes rxb) (driftFrame s)).2))
        (usbExchange (samplesOfBytes rxb) (driftFrame s)).1) := by
  rw [exec, execUsbSof, withBytes_eq _ h hl]

/-! ## Transport states -/

/-- A transport state is NeedsReset, priming or steady (10_state.md R22). -/
theorem transport_cases (x : Transport) :
    x = .needsReset ∨ isPriming x = true ∨ isSteady x = true := by
  cases x <;> simp [isPriming, isSteady]

theorem steady_not_needsReset {x : Transport} (h : isSteady x = true) : x ≠ .needsReset := by
  cases x <;> simp_all [isSteady]

theorem steady_not_priming {x : Transport} (h : isSteady x = true) : isPriming x = false := by
  cases x <;> simp_all [isSteady, isPriming]

theorem priming_not_needsReset {x : Transport} (h : isPriming x = true) : x ≠ .needsReset := by
  cases x <;> simp_all [isPriming]

/-! ## The codec side -/

theorem codecExchange_needsReset {d2h : List Word} {s : State} (h : s.state = .needsReset) :
    codecExchange d2h s = (transportReinit s, silentWords s.cfg.blockLen) := by
  simp [codecExchange, h]

theorem codecExchange_inconsistent {d2h : List Word} {s : State} (h : s.state ≠ .needsReset)
    (hc : (consistent s.cfg.cap s.tx && consistent s.cfg.cap s.rx) = false) :
    codecExchange d2h s = (raise .consistency s, silentWords s.cfg.blockLen) := by
  simp [codecExchange, h, hc]

theorem codecExchange_priming {d2h : List Word} {s : State} (h : isPriming s.state = true)
    (hc : (consistent s.cfg.cap s.tx && consistent s.cfg.cap s.rx) = true) :
    codecExchange d2h s = codecPriming (d2h.map c2s) s := by
  simp [codecExchange, priming_not_needsReset h, hc, h]

theorem codecExchange_direct {d2h : List Word} {s : State} (h : isSteady s.state = true)
    (hc : (consistent s.cfg.cap s.tx && consistent s.cfg.cap s.rx) = true)
    (hr : s.cfg.resampled = false) : codecExchange d2h s = codecDirect (d2h.map c2s) s := by
  simp [codecExchange, steady_not_needsReset h, hc, steady_not_priming h, hr]

theorem codecExchange_resampled {d2h : List Word} {s : State} (h : isSteady s.state = true)
    (hc : (consistent s.cfg.cap s.tx && consistent s.cfg.cap s.rx) = true)
    (hr : s.cfg.resampled = true) : codecExchange d2h s = codecResampled (d2h.map c2s) s := by
  simp [codecExchange, steady_not_needsReset h, hc, steady_not_priming h, hr]

/-- What the codec side can do with a block. -/
theorem codecExchange_cases (d2h : List Word) (s : State) :
    (s.state = .needsReset
        ∧ codecExchange d2h s = (transportReinit s, silentWords s.cfg.blockLen))
      ∨ (s.state ≠ .needsReset
        ∧ (consistent s.cfg.cap s.tx && consistent s.cfg.cap s.rx) = false
        ∧ codecExchange d2h s = (raise .consistency s, silentWords s.cfg.blockLen))
      ∨ ((consistent s.cfg.cap s.tx && consistent s.cfg.cap s.rx) = true
        ∧ ((isPriming s.state = true ∧ codecExchange d2h s = codecPriming (d2h.map c2s) s)
          ∨ (isSteady s.state = true ∧ s.cfg.resampled = false
            ∧ codecExchange d2h s = codecDirect (d2h.map c2s) s)
          ∨ (isSteady s.state = true ∧ s.cfg.resampled = true
            ∧ codecExchange d2h s = codecResampled (d2h.map c2s) s))) := by
  by_cases hn : s.state = .needsReset
  · exact .inl ⟨hn, codecExchange_needsReset hn⟩
  · cases hc : consistent s.cfg.cap s.tx && consistent s.cfg.cap s.rx
    · exact .inr (.inl ⟨hn, rfl, codecExchange_inconsistent hn hc⟩)
    · refine .inr (.inr ⟨rfl, ?_⟩)
      rcases transport_cases s.state with h | h | h
      · exact absurd h hn
      · exact .inl ⟨h, codecExchange_priming h hc⟩
      · cases hr : s.cfg.resampled
        · exact .inr (.inl ⟨h, rfl, codecExchange_direct h hc hr⟩)
        · exact .inr (.inr ⟨h, rfl, codecExchange_resampled h hc hr⟩)

theorem correctedLen_dvd (p : Params) (m : BatchMode) {n : Nat} (h : p.chans ∣ n) :
    p.chans ∣ correctedLen p m n := by
  cases m
  · exact h
  · exact Nat.dvd_sub h (Nat.dvd_refl _)
  · exact Dvd.dvd.add h (Nat.dvd_refl _)

/-- A block stored by the non-resampled strategy has the corrected length (42_transport.md R176). -/
theorem directBlock_length (p : Params) (m : BatchMode) {smp : List Sample}
    (h : smp.length = p.blockLen) :
    (directBlock p m smp).length = correctedLen p m p.blockLen := by
  have h1 := blockLen_eq p
  cases m <;> simp [directBlock, correctedLen, h]
  omega

/-- A batch written by the resampled strategy has the corrected length (42_transport.md R178). -/
theorem batchOutput_length (p : Params) (m : BatchMode) {bb : List Sample}
    (h : bb.length = p.transfer) : (batchOutput p m bb).length = correctedLen p m p.transfer := by
  have h1 := transfer_eq p
  cases m <;> simp [batchOutput, correctedLen, h] <;> omega

/-- Storing a block into the batch buffer keeps its length (42_transport.md R178). -/
theorem putBlock_length {p : Params} {phase : Nat} {bb smp : List Sample} (hp : phase < 3)
    (hb : bb.length = p.transfer) (hs : smp.length = p.blockLen) :
    (putBlock p.blockLen phase bb smp).length = p.transfer := by
  have h1 := transfer_eq_blocks p
  have h2 : (phase + 1) * p.blockLen ≤ 3 * p.blockLen := Nat.mul_le_mul_right _ (by omega)
  have h3 : (phase + 1) * p.blockLen = phase * p.blockLen + p.blockLen := Nat.succ_mul _ _
  simp only [putBlock, List.length_append, List.length_take, List.length_drop, hb, hs]
  omega

/-- The in-place stretch at a batch start (42_transport.md R177). -/
theorem rxCorrect_remove {p : Params} {r : Ring} (hbuf : r.buf.wf = true)
    (hroom : r.used.toNat + p.chans ≤ p.cap) :
    Corrected p.cap r (rxCorrect p .remove r) (wrapAddr p.cap ((r.rd.toNat : Int) - p.chans))
      (r.used.toNat + p.chans) (stretch p.chans (oldest p.cap r p.transfer)) := by
  have hlt := cap_lt_pow p
  have hw := wrapAddr_lt (cap_pos p) ((r.rd.toNat : Int) - p.chans)
  have hcap := cap_ge_transfers p
  have ht := transfer_eq p
  refine ⟨rfl, wrapU32_toNat_of_lt rfl (by omega),
    wrapU32_toNat_of_lt (by push_cast; rfl) (by omega), fun k hk => ?_, fun a ha => ?_⟩
  · have h := memRead_memWriteRun_at (cap := p.cap)
      ((wrapAddr p.cap ((r.rd.toNat : Int) - p.chans) : Nat) : Int)
      (stretch p.chans (oldest p.cap r p.transfer)) hbuf (by simp; omega) k hk
    rw [← Int.natCast_add, wrapAddr_natCast] at h
    simpa only [rxCorrect, rbPeek_eq_oldest] using h
  · simp only [rxCorrect, rbPeek_eq_oldest]
    refine memRead_memWriteRun_other p.cap a _ _ hbuf fun k hk => ?_
    rw [← Int.natCast_add, wrapAddr_natCast]
    exact ha k hk

/-- The in-place shrink at a batch start (42_transport.md R177). -/
theorem rxCorrect_duplicate {p : Params} {r : Ring} (hbuf : r.buf.wf = true)
    (hroom : p.chans ≤ r.used.toNat) :
    Corrected p.cap r (rxCorrect p .duplicate r) ((r.rd.toNat + p.chans) % p.cap)
      (r.used.toNat - p.chans) (shrink p.chans (oldest p.cap r p.transfer)) := by
  have hlt := cap_lt_pow p
  have hw := Nat.mod_lt (r.rd.toNat + p.chans) (cap_pos p)
  have hcap := cap_ge_transfers p
  have ht := transfer_eq p
  have he : wrapAddr p.cap ((r.rd.toNat : Int) + p.chans) = (r.rd.toNat + p.chans) % p.cap := by
    rw [← Int.natCast_add, wrapAddr_natCast]
  have hu := r.used.isLt
  refine ⟨rfl, ?_, wrapU32_toNat_of_lt (by omega) (by omega), fun k hk => ?_, fun a ha => ?_⟩
  · simp only [rxCorrect, he]
    exact wrapU32_toNat_of_lt rfl (by omega)
  · have h := memRead_memWriteRun_at (cap := p.cap)
      (((r.rd.toNat + p.chans) % p.cap : Nat) : Int)
      (shrink p.chans (oldest p.cap r p.transfer)) hbuf (by simp; omega) k hk
    rw [← Int.natCast_add, wrapAddr_natCast] at h
    simpa only [rxCorrect, rbPeek_eq_oldest, he] using h
  · simp only [rxCorrect, rbPeek_eq_oldest, he]
    refine memRead_memWriteRun_other p.cap a _ _ hbuf fun k hk => ?_
    rw [← Int.natCast_add, wrapAddr_natCast]
    exact ha k hk

/-- The in-place correction keeps a ring sound, once R179's checks have passed. -/
theorem ringOk_rxCorrect {p : Params} {m : BatchMode} {r : Ring} (h : RingOk p r)
    (hu : m ≠ .none → p.chans ≤ r.used.toNat)
    (ho : m = .remove → r.used.toNat + p.chans ≤ p.cap) : RingOk p (rxCorrect p m r) := by
  have hpos := cap_pos p
  have hlt := cap_lt_pow p
  have hrd := Nat.dvd_of_mod_eq_zero h.rd_frames
  have hus := Nat.dvd_of_mod_eq_zero h.used_frames
  have hul := h.used_le
  cases m with
  | none => exact h
  | remove =>
    obtain ⟨-, h2, h3, -, -⟩ := rxCorrect_remove h.buf_wf (ho rfl)
    have hwl := wrapAddr_lt hpos ((r.rd.toNat : Int) - p.chans)
    have hwa : ((wrapAddr p.cap ((r.rd.toNat : Int) - p.chans) : Nat) : Int)
        = ((r.rd.toNat : Int) - p.chans) % p.cap :=
      Int.toNat_of_nonneg (Int.emod_nonneg _ (by omega))
    refine ringOk_of (by rw [h3]; exact ho rfl) (by rw [h2]; exact hwl) ?_ ?_ ?_
      (memWriteRun_wf _ _ _ h.buf_wf) (memWriteRun_lt hpos _ _ h.buf_lt)
    · rw [show (rxCorrect p .remove r).wr = r.wr from rfl, h2, h3, ringOk_wr h]
      zify
      rw [hwa, Int.emod_add_emod]
      congr 1
      omega
    · rw [h3]
      exact Dvd.dvd.add hus (Nat.dvd_refl _)
    · rw [h2]
      zify
      rw [hwa, Int.emod_def]
      exact Dvd.dvd.sub (Dvd.dvd.sub (Int.natCast_dvd_natCast.2 hrd) (dvd_refl _))
        (Dvd.dvd.mul_right (Int.natCast_dvd_natCast.2 (chans_dvd_cap p)) _)
  | duplicate =>
    obtain ⟨-, h2, h3, -, -⟩ := rxCorrect_duplicate h.buf_wf (hu (by simp))
    have hu' := hu (by simp)
    refine ringOk_of (by rw [h3]; omega) (by rw [h2]; exact Nat.mod_lt _ hpos) ?_ ?_ ?_
      (memWriteRun_wf _ _ _ h.buf_wf) (memWriteRun_lt hpos _ _ h.buf_lt)
    · rw [show (rxCorrect p .duplicate r).wr = r.wr from rfl, h2, h3, Nat.mod_add_mod,
        ringOk_wr h]
      congr 1
      omega
    · rw [h3]
      exact Nat.dvd_sub hus (Nat.dvd_refl _)
    · rw [h2]
      exact (Nat.dvd_mod_iff (chans_dvd_cap p)).2 (Dvd.dvd.add hrd (Nat.dvd_refl _))

/-! ## The codec side, case by case -/

/-- Error actions together change the flags, the two counters and `state` only. -/
theorem raiseIf_raiseIf_frame (a b : Bool) (c d : Cause) (s : State) :
    raiseIf a c (raiseIf b d s) = { s with
      flags := (raiseIf a c (raiseIf b d s)).flags
      ovfCount := (raiseIf a c (raiseIf b d s)).ovfCount
      unfCount := (raiseIf a c (raiseIf b d s)).unfCount
      state := (raiseIf a c (raiseIf b d s)).state } := by
  cases a <;> cases b <;> rfl

/-- Error actions together lead to NeedsReset if one of them is raised. -/
theorem raiseIf_raiseIf_state (a b : Bool) (c d : Cause) (s : State) :
    (raiseIf a c (raiseIf b d s)).state = if (a || b) = true then .needsReset else s.state := by
  cases a <;> cases b <;> rfl

/-- The mode a meaning computes is the mode the statements name (42_transport.md R176, R177). -/
theorem correctionMode_eq_pendingMode (s : State) : correctionMode s = pendingMode s := by
  unfold correctionMode pendingMode
  cases s.corrPending <;> cases s.state <;> simp

theorem currentBatchMode_eq_blockMode (s : State) : currentBatchMode s = blockMode s := by
  unfold currentBatchMode blockMode
  rw [correctionMode_eq_pendingMode]
  simp only [Fin.ext_iff]
  rfl

theorem correctedLen_block (s : State) :
    correctedLen s.cfg (correctionMode s) s.cfg.blockLen = directLength s := by
  cases h : pendingMode s <;> simp [correctedLen, directLength, correctionMode_eq_pendingMode, h]

theorem correctedLen_batch (s : State) :
    correctedLen s.cfg (blockMode s) s.cfg.transfer = batchLength s := by
  unfold correctedLen batchLength
  cases blockMode s <;> rfl

/-- The overflow check of the resampled strategy decides what the statements call an overflow
(42_transport.md R179). -/
theorem resampledOvf_iff (s : State) : resampledOvf s = true ↔ BlockOverflows s := by
  have h2 : s.bphase = 2 ↔ s.bphase.val = 2 := by rw [Fin.ext_iff]; rfl
  have h0 : s.bphase = 0 ↔ s.bphase.val = 0 := by rw [Fin.ext_iff]; rfl
  unfold resampledOvf BlockOverflows correctingStart
  rw [currentBatchMode_eq_blockMode, correctedLen_batch]
  simp only [h0, h2, Bool.or_eq_true, Bool.and_eq_true, decide_eq_true_iff, ne_eq]
  refine or_congr_left ?_
  by_cases h : s.bphase.val = 0
  · simp only [blockMode, h, if_true]
    constructor
    · rintro ⟨⟨-, hm⟩, hu⟩
      exact ⟨trivial, hm, hu⟩
    · rintro ⟨-, hm, hu⟩
      exact ⟨⟨⟨trivial, by simp [hm]⟩, hm⟩, hu⟩
  · simp [h]

/-- The underflow check of the resampled strategy decides what the statements call an underflow
(42_transport.md R179). -/
theorem resampledUnf_iff (s : State) : resampledUnf s = true ↔ BlockUnderflows s := by
  have h0 : s.bphase = 0 ↔ s.bphase.val = 0 := by rw [Fin.ext_iff]; rfl
  unfold resampledUnf BlockUnderflows availableRx correctingStart startsCorrection
  rw [currentBatchMode_eq_blockMode]
  by_cases h : s.bphase.val = 0
  · have hm : blockMode s = pendingMode s := by unfold blockMode; rw [if_pos h]
    rw [hm]
    simp only [h0, h]
    rcases hp : pendingMode s with _ | _ | _ <;> simp <;> omega
  · simp only [h0, h]
    simp

/-- After a claim nothing is pending (42_transport.md R176, R177): no correction is governed by no
marker. -/
theorem claimed_pending (s : State) :
    (if correctionMode s = .none then s.corrPending else false) = false := by
  unfold correctionMode
  cases s.corrPending <;> simp
  split <;> simp

/-- What the non-resampled exchange can do (42_transport.md R176): move a block, or raise what failed. -/
theorem codecDirect_cases (smp : List Sample) (s : State) :
    (s.tx.used.toNat + (directBlock s.cfg (correctionMode s) smp).length ≤ s.cfg.cap
        ∧ max s.cfg.blockLen (correctedLen s.cfg (correctionMode s) s.cfg.blockLen)
          ≤ s.rx.used.toNat
        ∧ codecDirect smp s =
          ({ s with
              tx := rbWrite s.cfg.cap s.tx (directBlock s.cfg (correctionMode s) smp)
              rx := rbAdvance s.cfg.cap s.rx
                (correctedLen s.cfg (correctionMode s) s.cfg.blockLen)
              corrPending := false },
            (rbPeek s.cfg.cap s.rx s.cfg.blockLen).map s2c))
      ∨ ∃ txOk rxOk : Bool,
        (txOk = true ↔
          s.tx.used.toNat + (directBlock s.cfg (correctionMode s) smp).length ≤ s.cfg.cap)
        ∧ (rxOk = true ↔
          max s.cfg.blockLen (correctedLen s.cfg (correctionMode s) s.cfg.blockLen)
            ≤ s.rx.used.toNat)
        ∧ (txOk && rxOk) = false
        ∧ codecDirect smp s =
          (raiseIf (!rxOk) .underflow (raiseIf (!txOk) .overflow s),
            silentWords s.cfg.blockLen) := by
  simp only [codecDirect, claimed_pending]
  split
  · rename_i h
    rw [Bool.and_eq_true, decide_eq_true_iff, decide_eq_true_iff] at h
    exact .inl ⟨h.1, h.2, rfl⟩
  · rename_i h
    exact .inr ⟨_, _, decide_eq_true_iff, decide_eq_true_iff, by simpa using h, rfl⟩

/-- The batch start, as one update (42_transport.md R177). -/
theorem batchStart_eq (s : State) :
    batchStart s = { s with
      batchMode := currentBatchMode s
      corrPending := if s.bphase = 0 then false else s.corrPending
      rx := if s.bphase = 0 then rxCorrect s.cfg (currentBatchMode s) s.rx else s.rx } := by
  unfold batchStart currentBatchMode
  split
  · rename_i h
    simp only [h, claimed_pending]
  · rfl

/-- A block of a batch, as one update (42_transport.md R178): the phase goes 0, 1, 2, 0. -/
theorem batchBlock_eq (smp : List Sample) (s : State) :
    batchBlock smp s =
      ({ s with
          rx := rbAdvance s.cfg.cap s.rx s.cfg.blockLen
          bb := putBlock s.cfg.blockLen s.bphase.val s.bb smp
          bphase := s.bphase + 1
          batchMode := if s.bphase = 2 then .none else s.batchMode
          tx := if s.bphase = 2 then
              rbWrite s.cfg.cap s.tx (batchOutput s.cfg s.batchMode
                (putBlock s.cfg.blockLen s.bphase.val s.bb smp))
            else s.tx },
        (rbPeek s.cfg.cap s.rx s.cfg.blockLen).map s2c) := by
  have key : s.bphase = 0 ∨ s.bphase = 1 ∨ s.bphase = 2 := by
    rcases s.bphase with ⟨n, hn⟩
    rcases (by omega : n = 0 ∨ n = 1 ∨ n = 2) with rfl | rfl | rfl <;> simp
  unfold batchBlock
  rcases key with h | h | h <;> simp [h]

/-- What a block of the resampled exchange can do (42_transport.md R177 to R179). -/
theorem codecResampled_cases (smp : List Sample) (s : State) :
    (resampledOvf s = false ∧ resampledUnf s = false
        ∧ codecResampled smp s = batchBlock smp (batchStart s))
      ∨ ((resampledOvf s || resampledUnf s) = true
        ∧ codecResampled smp s =
          (raiseIf (resampledUnf s) .underflow (raiseIf (resampledOvf s) .overflow s),
            silentWords s.cfg.blockLen)) := by
  unfold codecResampled
  cases resampledOvf s <;> cases resampledUnf s <;> simp

/-! ## The USB side -/

theorem usbExchange_needsReset {rxf : List Sample} {s : State} (h : s.state = .needsReset) :
    usbExchange rxf s = (s, silence s.cfg.transfer) := by
  simp [usbExchange, h]

theorem usbExchange_inconsistent {rxf : List Sample} {s : State} (h : s.state ≠ .needsReset)
    (hc : (consistent s.cfg.cap s.tx && consistent s.cfg.cap s.rx) = false) :
    usbExchange rxf s = (raise .consistency s, silence s.cfg.transfer) := by
  simp [usbExchange, h, hc]

theorem usbExchange_priming {rxf : List Sample} {s : State} (h : isPriming s.state = true)
    (hc : (consistent s.cfg.cap s.tx && consistent s.cfg.cap s.rx) = true) :
    usbExchange rxf s = usbPriming rxf s := by
  simp [usbExchange, priming_not_needsReset h, hc, h]

theorem usbExchange_steady {rxf : List Sample} {s : State} (h : isSteady s.state = true)
    (hc : (consistent s.cfg.cap s.tx && consistent s.cfg.cap s.rx) = true) :
    usbExchange rxf s = usbSteady rxf s := by
  simp [usbExchange, steady_not_needsReset h, hc, steady_not_priming h]

/-- What the USB side can do with a frame. -/
theorem usbExchange_cases (rxf : List Sample) (s : State) :
    (s.state = .needsReset ∧ usbExchange rxf s = (s, silence s.cfg.transfer))
      ∨ (s.state ≠ .needsReset
        ∧ (consistent s.cfg.cap s.tx && consistent s.cfg.cap s.rx) = false
        ∧ usbExchange rxf s = (raise .consistency s, silence s.cfg.transfer))
      ∨ ((consistent s.cfg.cap s.tx && consistent s.cfg.cap s.rx) = true
        ∧ ((isPriming s.state = true ∧ usbExchange rxf s = usbPriming rxf s)
          ∨ (isSteady s.state = true ∧ usbExchange rxf s = usbSteady rxf s))) := by
  by_cases hn : s.state = .needsReset
  · exact .inl ⟨hn, usbExchange_needsReset hn⟩
  · cases hc : consistent s.cfg.cap s.tx && consistent s.cfg.cap s.rx
    · exact .inr (.inl ⟨hn, rfl, usbExchange_inconsistent hn hc⟩)
    · refine .inr (.inr ⟨rfl, ?_⟩)
      rcases transport_cases s.state with h | h | h
      · exact absurd h hn
      · exact .inl ⟨h, usbExchange_priming h hc⟩
      · exact .inr ⟨h, usbExchange_steady h hc⟩

theorem samplesOfBytes_length : ∀ {n : Nat} {l : List Byte}, l.length = 2 * n →
    (samplesOfBytes l).length = n
  | 0, [], _ => rfl
  | n + 1, lo :: hi :: l, h => by
    simp only [samplesOfBytes, List.length_cons]
    rw [samplesOfBytes_length (n := n) (by simp at h; omega)]
  | n + 1, [_], h => by simp at h; omega
  | n + 1, [], h => by simp at h
  | 0, _ :: _, h => by simp at h

@[simp] theorem bytesOfSamples_length (l : List Sample) :
    (bytesOfSamples l).length = 2 * l.length := by
  induction l with
  | nil => rfl
  | cons v l ih =>
    simp only [bytesOfSamples, List.length_cons, ih]
    omega

/-- A silent frame is zero bytes (20_memory.md R70). -/
theorem bytesOfSamples_silence (n : Nat) :
    bytesOfSamples (silence n) = List.replicate (2 * n) 0 := by
  induction n with
  | zero => rfl
  | succ n ih =>
    rw [show silence (n + 1) = 0 :: silence n from rfl, bytesOfSamples, ih,
      show 2 * (n + 1) = 2 * n + 1 + 1 by omega, List.replicate_succ, List.replicate_succ]
    rfl

/-- What the priming exit does (42_transport.md R183). -/
theorem primingExit_cases (s : State) :
    (¬(s.tx.used.toNat = s.cfg.normalSize ∧ 2 * s.cfg.transfer ≤ s.rx.used.toNat)
        ∧ primingExit s = s)
      ∨ (s.tx.used.toNat = s.cfg.normalSize ∧ 2 * s.cfg.transfer ≤ s.rx.used.toNat
        ∧ primingExit s = { s with
            rx := { s.rx with
              rd := wrapU32 (wrapAddr s.cfg.cap ((s.rx.wr.toNat : Int) - 2 * s.cfg.transfer))
              used := wrapU32 (2 * s.cfg.transfer) }
            state := .normal }) := by
  unfold primingExit
  split
  · exact .inr ⟨by tauto, by tauto, rfl⟩
  · exact .inl ⟨‹_›, rfl⟩

/-- What the scheduling does (42_transport.md R187). -/
theorem schedule_cases (s : State) :
    (¬(s.state = .normal ∧ s.sampleOffset ≠ 0 ∧ s.corrInterval.toNat ≤ s.corrCounter.toNat)
        ∧ schedule s = s)
      ∨ (s.state = .normal ∧ s.corrInterval.toNat ≤ s.corrCounter.toNat
        ∧ 0 < s.sampleOffset.toInt
        ∧ schedule s = { s with
            corrCounter := 0
            corrPending := true
            state := .codecRemove
            sampleOffset := wrapI16 (s.sampleOffset.toInt - s.cfg.chans) })
      ∨ (s.state = .normal ∧ s.corrInterval.toNat ≤ s.corrCounter.toNat
        ∧ s.sampleOffset.toInt < 0
        ∧ schedule s = { s with
            corrCounter := 0
            corrPending := true
            state := .codecDuplicate
            sampleOffset := wrapI16 (s.sampleOffset.toInt + s.cfg.chans) }) := by
  unfold schedule
  split
  · rename_i h
    split
    · exact .inr (.inl ⟨h.1, h.2.2, ‹_›, rfl⟩)
    · refine .inr (.inr ⟨h.1, h.2.2, ?_, rfl⟩)
      have hne : s.sampleOffset.toInt ≠ 0 := fun h0 => h.2.1 (BitVec.toInt_inj.1 (by simpa using h0))
      omega
  · exact .inl ⟨‹_›, rfl⟩

/-- What a steady USB frame can do (42_transport.md R184, R185). -/
theorem usbSteady_cases (rxf : List Sample) (s : State) :
    (s.cfg.transfer ≤ s.tx.used.toNat ∧ s.rx.used.toNat + s.cfg.transfer ≤ s.cfg.cap
        ∧ usbSteady rxf s =
          (schedule (leaveCorrection { s with
              tx := rbAdvance s.cfg.cap s.tx s.cfg.transfer
              rx := rbWrite s.cfg.cap s.rx rxf }),
            rbPeek s.cfg.cap s.tx s.cfg.transfer))
      ∨ ∃ txOk rxOk : Bool,
        (txOk = true ↔ s.cfg.transfer ≤ s.tx.used.toNat)
        ∧ (rxOk = true ↔ s.rx.used.toNat + s.cfg.transfer ≤ s.cfg.cap)
        ∧ (txOk && rxOk) = false
        ∧ usbSteady rxf s = (usbFailed txOk rxOk s, silence s.cfg.transfer) := by
  simp only [usbSteady]
  split
  · rename_i h
    rw [Bool.and_eq_true, decide_eq_true_iff, decide_eq_true_iff] at h
    exact .inl ⟨h.1, h.2, rfl⟩
  · rename_i h
    exact .inr ⟨_, _, decide_eq_true_iff, decide_eq_true_iff, by simpa using h, rfl⟩

/-! ## The drift tracker -/

/-- The window sum as 16-bit arithmetic (41_drift.md R151). -/
theorem driftAccumulate_dwso_eq (s : State) :
    (driftAccumulate s).dwso
      = s.dwso + (s.cfsc.setWidth 16 - BitVec.ofNat 16 s.cfg.nominal) := by
  simp only [driftAccumulate, wrapI16]
  rw [BitVec.ofInt_add, BitVec.ofInt_toInt, Int.sub_eq_add_neg, BitVec.ofInt_add, BitVec.ofInt_neg,
    BitVec.ofInt_natCast, BitVec.ofInt_natCast, BitVec.sub_eq_add_neg]
  rfl

/-- What `drift_frame()` does (41_drift.md R150 to R157): one more frame of the window, or the end of it,
clean or dirty. -/
theorem driftFrame_cases (s : State) :
    (∃ h : s.wfc.val + 1 < 100,
        driftFrame s = { driftAccumulate s with wfc := ⟨s.wfc.val + 1, h⟩ })
      ∨ (s.wfc.val = 99 ∧ (driftAccumulate s).dwso = 0
        ∧ driftFrame s = { windowClean (driftAccumulate s) with dwso := 0, wfc := 0 })
      ∨ (s.wfc.val = 99 ∧ (driftAccumulate s).dwso ≠ 0
        ∧ driftFrame s = { windowDirty (driftAccumulate s) with dwso := 0, wfc := 0 }) := by
  have hw := s.wfc.isLt
  unfold driftFrame
  by_cases h : s.wfc.val + 1 < 100
  · exact .inl ⟨h, by simp [h]⟩
  · by_cases hd : (driftAccumulate s).dwso = 0
    · exact .inr (.inl ⟨by omega, hd, by
        rw [dif_neg (by simpa using h), windowEnd, if_pos hd]⟩)
    · exact .inr (.inr ⟨by omega, hd, by
        rw [dif_neg (by simpa using h), windowEnd, if_neg hd]⟩)

/-- `drift_frame()` changes the drift fields only. -/
theorem driftFrame_frame (s : State) :
    driftFrame s = { s with
      cfsc := 0
      dwso := (driftFrame s).dwso
      wfc := (driftFrame s).wfc
      dwOk := (driftFrame s).dwOk
      sampleOffset := (driftFrame s).sampleOffset
      corrInterval := (driftFrame s).corrInterval } := by
  rcases driftFrame_cases s with ⟨_, h⟩ | ⟨_, _, h⟩ | ⟨_, _, h⟩ <;> rw [h] <;> rfl

/-- The interval of a dirty window fits its register and is at least MIN_INTERVAL (41_drift.md R154,
R155). -/
theorem intervalOf_bounds (p : Params) (offset dwOk : BitVec 16) :
    p.minInterval ≤ intervalOf p offset dwOk ∧ intervalOf p offset dwOk < 2 ^ 32 := by
  have h1 := dwOk.isLt
  have h2 := p.min_lt
  have key : ∀ d : Nat, 100 * (dwOk.toNat + 1) / d ≤ 100 * 65536 := fun d =>
    (Nat.div_le_self _ _).trans (by omega)
  simp only [intervalOf]
  have h3 := key (if offset.toInt.natAbs / 2 = 0 then 1 else offset.toInt.natAbs / 2)
  generalize 100 * (dwOk.toNat + 1) / (if offset.toInt.natAbs / 2 = 0 then 1
    else offset.toInt.natAbs / 2) = c at h3 ⊢
  split <;> split <;> omega

end Sys2Proof.Laws
end

