-- ==== Sys2Proof/Laws/PerInstr.lean ====
section
/-! SUPPORT. One lemma per command: its word is on the row of 30_encoding.md R92 that bears its
mnemonic. -/

namespace Sys2Proof.Laws

open Sys2Proof

/-- The columns match and mask of 30_encoding.md R92. -/
def TableRow.matchMask : Instr → Word × Word
  | .nop => (0x00000000, 0xFFFFFFFF)
  | .codecXchg => (0x01000000, 0xFFFFFFFF)
  | .usbSof => (0x02000000, 0xFFFFFFFF)
  | .cntAdj _ => (0x03000000, 0xFFFF0000)
  | .reqReset => (0x10000000, 0xFFFFFFFF)
  | .overload => (0x11000000, 0xFFFFFFFF)
  | .setRate _ => (0x20000000, 0xFF000000)
  | .setMute _ _ => (0x21000000, 0xFF00FFFE)
  | .setVol _ _ => (0x22000000, 0xFF000000)
  | .setAlt _ _ => (0x23000000, 0xFFFFFFFC)
  | .rdReg _ => (0x30000000, 0xFF00FFFF)
  | .rdFlags => (0x31000000, 0xFFFFFFFF)
  | .rsShrink16 => (0x40000000, 0xFFFFFFFF)
  | .rsStretch16 => (0x41000000, 0xFFFFFFFF)
  | .rsShrink32 => (0x42000000, 0xFFFFFFFF)
  | .rsStretch32 => (0x43000000, 0xFFFFFFFF)

/-- `(w and mask) = match` for the word of a command and its row (30_encoding.md R92). -/
def TableRow.Statement (i : Instr) : Prop :=
  encode i &&& (TableRow.matchMask i).2 = (TableRow.matchMask i).1

/-- A word of format AI under a mask that keeps its opcode byte and `mask` of its low 24 bits. -/
theorem wordAI_and (op a : BitVec 8) (imm : BitVec 16) (maskA : BitVec 8) (maskI : BitVec 16) :
    wordAI op a imm &&& ((0xFF : BitVec 8) ++ maskA ++ maskI : BitVec 32)
      = op ++ (a &&& maskA) ++ (imm &&& maskI) := by
  unfold wordAI
  rw [BitVec.and_append, BitVec.and_append, show (0xFF : BitVec 8) = BitVec.allOnes 8 from rfl,
    BitVec.and_allOnes]

theorem TableRow.nop : TableRow.Statement .nop := rfl

theorem TableRow.codecXchg : TableRow.Statement .codecXchg := rfl

theorem TableRow.usbSof : TableRow.Statement .usbSof := rfl

theorem TableRow.cntAdj (imm : BitVec 16) : TableRow.Statement (.cntAdj imm) :=
  (wordAI_and 0x03 0 imm 0xFF 0).trans (by simp [TableRow.matchMask])

theorem TableRow.reqReset : TableRow.Statement .reqReset := rfl

theorem TableRow.overload : TableRow.Statement .overload := rfl

theorem TableRow.setRate (imm : BitVec 24) : TableRow.Statement (.setRate imm) := by
  have h : (0x20 : BitVec 8) ++ imm &&& ((0xFF : BitVec 8) ++ (0 : BitVec 24) : BitVec 32)
      = (0x20 : BitVec 8) ++ (0 : BitVec 24) := by rw [BitVec.and_append]; simp
  exact h

theorem TableRow.setMute (a : BitVec 8) (m : Bool) : TableRow.Statement (.setMute a m) :=
  (wordAI_and 0x21 a (bit16 m) 0 0xFFFE).trans (by cases m <;> simp [bit16, TableRow.matchMask])

theorem TableRow.setVol (a : BitVec 8) (imm : BitVec 16) : TableRow.Statement (.setVol a imm) :=
  (wordAI_and 0x22 a imm 0 0).trans (by simp [TableRow.matchMask])

theorem TableRow.setAlt (out inn : Bool) : TableRow.Statement (.setAlt out inn) := by
  cases out <;> cases inn <;> rfl

theorem TableRow.rdReg (a : BitVec 8) : TableRow.Statement (.rdReg a) :=
  (wordAI_and 0x30 a 0 0 0xFFFF).trans (by simp [TableRow.matchMask])

theorem TableRow.rdFlags : TableRow.Statement .rdFlags := rfl

theorem TableRow.rsShrink16 : TableRow.Statement .rsShrink16 := rfl

theorem TableRow.rsStretch16 : TableRow.Statement .rsStretch16 := rfl

theorem TableRow.rsShrink32 : TableRow.Statement .rsShrink32 := rfl

theorem TableRow.rsStretch32 : TableRow.Statement .rsStretch32 := rfl

end Sys2Proof.Laws
end

