-- ==== Sys2Proof/Machine/Pseudo.lean ====
section
/-! DEFINITION. The pseudo-instructions of 30_encoding.md R99: three expansions into commands, and the
hardware reset input. -/

namespace Sys2Proof.Machine

open Sys2Proof

/-- A command with its input payload, as the environment presents it (30_encoding.md R90). -/
def present (i : Instr) (payload : Payload) : Command := { cw := encode i, payload := payload }

/-- `RD_STATE`: `RD_REG 0x01` (R99). -/
def rdState : List Command := [present (.rdReg 0x01) .none]

/-- `RD_DRIFT`: `RD_REG 0x21`, the `drift_sample_offset` output (R99). -/
def rdDrift : List Command := [present (.rdReg 0x21) .none]

/-- `FRAME n, d, <blk>, <frm>` (R99): `n` codec blocks, then `CNT_ADJ d` if `d` is not 0, then the USB
frame. `<blk>` and `<frm>` name payload generators (R98), each with its own count (95_test_vectors.md,
conventions): `blk k` and `frm k` are the payloads of their use `k`, counted from 0, and `blocks` and
`usbFrames` are how often each has been used before. A fixed payload is a constant generator. -/
def frame (n : Nat) (d : BitVec 16) (blk : Nat → List Word) (frm : Nat → List Byte)
    (blocks usbFrames : Nat) : List Command :=
  ((List.range n).map fun i => present .codecXchg (.words (blk (blocks + i))))
    ++ (if d = 0 then [] else [present (.cntAdj d) .none])
    ++ [present .usbSof (.bytes (frm usbFrames))]

/-- A program of `FRAME n, d` lines with the same two generators, whose counts go on from line to
line. -/
def frames (blk : Nat → List Word) (frm : Nat → List Byte) (blocks usbFrames : Nat) :
    List (Nat × BitVec 16) → List Command
  | [] => []
  | (n, d) :: lines =>
    frame n d blk frm blocks usbFrames ++ frames blk frm (blocks + n) (usbFrames + 1) lines

/-- `HRESET`: not a command but the hardware reset input (R99, 70_reset_and_hazards.md R280), of a block
with the parameters it has. What the environment was about to present is gone with it (log entry 7). -/
def hreset (s : State) : State := State.resetOf s.cfg

end Sys2Proof.Machine
end

