-- ==== Sys2Proof/Laws/Pseudo.lean ====
section
/-! SUPPORT. What the expansion of FRAME is (30_encoding.md R99): its words and its payloads. -/

namespace Sys2Proof.Laws

open Sys2Proof Sys2Proof.Machine

/-- The words of FRAME: `n` times CODEC_XCHG, CNT_ADJ if `d` is not 0, USB_SOF. -/
theorem frame_words (n : Nat) (d : BitVec 16) (blk : Nat → List Word) (frm : Nat → List Byte)
    (blocks usbFrames : Nat) :
    (frame n d blk frm blocks usbFrames).map (·.cw) =
      List.replicate n 0x01000000 ++ (if d = 0 then [] else [wordAI 0x03 0 d]) ++ [0x02000000] := by
  have h : (List.range n).map ((fun c : Command => c.cw) ∘ fun i =>
      present .codecXchg (.words (blk (blocks + i)))) = List.replicate n 0x01000000 :=
    List.eq_replicate_iff.2 ⟨by simp, fun w hw => by
      obtain ⟨i, -, rfl⟩ := List.mem_map.1 hw
      rfl⟩
  simp only [frame, List.map_append, List.map_map, h]
  split <;> rfl

/-- The payloads of FRAME: the next `n` payloads of the block generator, none for CNT_ADJ, and the next
payload of the frame generator. -/
theorem frame_payloads (n : Nat) (d : BitVec 16) (blk : Nat → List Word) (frm : Nat → List Byte)
    (blocks usbFrames : Nat) :
    (frame n d blk frm blocks usbFrames).map (·.payload) =
      (List.range n).map (fun i => Payload.words (blk (blocks + i)))
        ++ (if d = 0 then [] else [.none]) ++ [.bytes (frm usbFrames)] := by
  simp only [frame, List.map_append, List.map_map]
  split <;> rfl

end Sys2Proof.Laws
end

