-- ==== Sys2Proof/Machine/Text.lean ====
section
/-! DEFINITION. The textual form of a command (30_encoding.md R98), one line per command. -/

namespace Sys2Proof.Machine

open Sys2Proof

/-- The mnemonic of a command, as 30_encoding.md R92 and spec/opcode_table.json have it. -/
def mnemonic : Instr → String
  | .nop => "NOP"
  | .codecXchg => "CODEC_XCHG"
  | .usbSof => "USB_SOF"
  | .cntAdj _ => "CNT_ADJ"
  | .reqReset => "REQ_RESET"
  | .overload => "OVERLOAD"
  | .setRate _ => "SET_RATE"
  | .setMute _ _ => "SET_MUTE"
  | .setVol _ _ => "SET_VOL"
  | .setAlt _ _ => "SET_ALT"
  | .rdReg _ => "RD_REG"
  | .rdFlags => "RD_FLAGS"
  | .rsShrink16 => "RS_SHRINK16"
  | .rsStretch16 => "RS_STRETCH16"
  | .rsShrink32 => "RS_SHRINK32"
  | .rsStretch32 => "RS_STRETCH32"

/-- A natural number in decimal. -/
def natText (n : Nat) : String := String.ofList (Nat.toDigits 10 n)

/-- A natural number in hexadecimal, after `0x`. -/
def hexText (n : Nat) : String := "0x" ++ String.ofList (Nat.toDigits 16 n)

/-- A signed decimal immediate (R98: `CNT_ADJ` and `SET_VOL`). -/
def signedText (v : BitVec 16) : String :=
  if v.toInt < 0 then "-" ++ natText v.toInt.natAbs else natText v.toInt.natAbs

/-- The operands of a command, in the order of its format (R91, R93, R98). -/
def operandText : Instr → List String
  | .cntAdj imm => [signedText imm]
  | .setRate imm => [natText imm.toNat]
  | .setMute a m => [natText a.toNat, natText m.toNat]
  | .setVol a imm => [natText a.toNat, signedText imm]
  | .setAlt out inn => [natText (out.toNat + 2 * inn.toNat)]
  | .rdReg a => [hexText a.toNat]
  | .nop | .codecXchg | .usbSof | .reqReset | .overload | .rdFlags
  | .rsShrink16 | .rsStretch16 | .rsShrink32 | .rsStretch32 => []

/-- The elements of a payload, in order; none for a command that takes no payload. -/
def payloadText : Payload → List String
  | .none => []
  | .bytes l => l.map fun b => hexText b.toNat
  | .samples l => l.map signedText
  | .words l => l.map fun w => hexText w.toNat

/-- An opening brace. -/
def braceOpen : String := String.singleton (Char.ofNat 123)

/-- A closing brace. -/
def braceClose : String := String.singleton (Char.ofNat 125)

/-- The mnemonic and the operands of a command, without its payload (R98). -/
def headText (i : Instr) : String :=
  let operands := String.intercalate ", " (operandText i)
  if operands = "" then mnemonic i else mnemonic i ++ " " ++ operands

/-- One line of the textual form: the mnemonic, its operands, and its payload in braces if there is one
(R98). -/
def commandText (i : Instr) (p : Payload) : String :=
  match p with
  | .none => headText i
  | p => headText i ++ " " ++ braceOpen ++ String.intercalate ", " (payloadText p) ++ braceClose

/-- The same line with the payload given by the name of a generator (R98). -/
def commandTextNamed (i : Instr) (generator : String) : String :=
  headText i ++ " <" ++ generator ++ ">"

end Sys2Proof.Machine
end

