-- ==== Sys2Proof/Tests/Slice0.lean ====
section
/-! SUPPORT. Tests with expected values from spec/95_test_vectors.md and the examples of the rules, the
refusals of WellFormed, and for each statement of the obligations concrete states that meet its
hypotheses. -/

namespace Sys2Proof.Tests

open Sys2Proof Sys2Proof.Machine Sys2Proof.Laws

/-! ## WellFormed: an ill-formed term for each check (30_encoding.md R96 c, e) -/

theorem test_wf_mute_index : (Instr.setMute 3 true).wf .two = false := by decide
theorem test_wf_mute_last : (Instr.setMute 2 true).wf .two = true := by decide
theorem test_wf_vol_index : (Instr.setVol 5 0).wf .four = false := by decide
theorem test_wf_reg_hole : (Instr.rdReg 0x13).wf .two = false := by decide
theorem test_wf_reg_mute_43 : (Instr.rdReg 0x43).wf .two = false := by decide
theorem test_wf_reg_mute_44 : (Instr.rdReg 0x44).wf .four = true := by decide

/-! ## Decoding, words written out from 30_encoding.md R91 to R93 -/

theorem test_decode_nop : decode .two 0x00000000 = .command .nop := by decide
theorem test_decode_codecXchg : decode .two 0x01000000 = .command .codecXchg := by decide
theorem test_decode_usbSof : decode .two 0x02000000 = .command .usbSof := by decide
theorem test_decode_cntAdj : decode .two 0x03008001 = .command (.cntAdj 0x8001) := by decide
theorem test_decode_reqReset : decode .two 0x10000000 = .command .reqReset := by decide
theorem test_decode_overload : decode .two 0x11000000 = .command .overload := by decide
theorem test_decode_setRate : decode .two 0x20017700 = .command (.setRate 96000) := by decide
theorem test_decode_setMute : decode .two 0x21020000 = .command (.setMute 2 false) := by decide
theorem test_decode_setVol : decode .two 0x22018000 = .command (.setVol 1 0x8000) := by decide
theorem test_decode_setAlt : decode .two 0x23000002 = .command (.setAlt false true) := by decide
theorem test_decode_rdReg : decode .two 0x30520000 = .command (.rdReg 0x52) := by decide
theorem test_decode_rdFlags : decode .two 0x31000000 = .command .rdFlags := by decide
theorem test_decode_rsShrink16 : decode .two 0x40000000 = .command .rsShrink16 := by decide
theorem test_decode_rsStretch16 : decode .two 0x41000000 = .command .rsStretch16 := by decide
theorem test_decode_rsShrink32 : decode .two 0x42000000 = .command .rsShrink32 := by decide
theorem test_decode_rsStretch32 : decode .two 0x43000000 = .command .rsStretch32 := by decide

theorem test_illegal_reserved : decode .two 0x04000000 = .illegal .reservedOpcode := by decide
theorem test_illegal_zero_a : decode .two 0x03010000 = .illegal .mustBeZero := by decide
theorem test_illegal_mute_bit : decode .two 0x21000002 = .illegal .mustBeZero := by decide
theorem test_illegal_alt_bit : decode .two 0x23000004 = .illegal .mustBeZero := by decide
theorem test_illegal_reg_imm : decode .two 0x30020001 = .illegal .mustBeZero := by decide
theorem test_illegal_vol_index : decode .two 0x22030000 = .illegal .operandRange := by decide
theorem test_illegal_reg_index : decode .two 0x30530000 = .illegal .operandRange := by decide

theorem test_table_word : decodeTableWord 32 0x2000BB80 = some (.setRate 48000) := by decide
theorem test_text : commandText (.cntAdj 0xFFFF) .none = "CNT_ADJ -1" := by decide

/-- The payload generators of 95_test_vectors.md, conventions, for CH = 2: use `k`, from 0. -/
def blkPayload (k : Nat) : List Word :=
  (List.range 32).map fun j => BitVec.ofNat 32 ((32 * k + j + 1) % 30000 * 65536 + 0x1234)
def frmPayload (k : Nat) : List Byte :=
  bytesOfSamples ((List.range 96).map fun j => BitVec.ofInt 16 (-((96 * k + j + 1) % 30000 : Nat)))

theorem test_frame : (frame 3 1 blkPayload frmPayload 0 0).map (·.cw)
    = [0x01000000, 0x01000000, 0x01000000, 0x03000001, 0x02000000] := by decide

/-- 95_test_vectors.md, conventions: block 2 is words 33 to 64, frame 1 starts `FF FF FE FF`; and the
next FRAME goes on with block 4, words 97 on, and frame 2, samples -97 on. -/
theorem test_frames_payloads :
    ((frames blkPayload frmPayload 0 0 [(3, 0), (3, 0)]).map fun c => match c.payload with
      | .words l => l.take 1
      | .bytes l => (l.take 2).map (·.setWidth 32)
      | _ => [])
    = [[0x00011234], [0x00211234], [0x00411234], [0xFF, 0xFF],
        [0x00611234], [0x00811234], [0x00A11234], [0x9F, 0xFF]] := by decide

/-! ## Small states -/

/-- `s` with one command presented. -/
def given (w : Word) (p : Payload) (s : State) : State := { s with port := [{ cw := w, payload := p }] }

/-- The state after one step, `none` if the step stops. -/
def after (s : State) : Option State :=
  match step s with
  | .next t => some t
  | _ => none

/-- A ring of the reference capacity with `used` live samples, all 0, from `rd` on. -/
def ring (rd used : Nat) : Ring where
  rd := BitVec.ofNat 32 rd
  wr := BitVec.ofNat 32 ((rd + used) % 384)
  used := BitVec.ofNat 32 used
  buf := []

/-- A ring whose registers disagree. -/
def brokenRing : Ring where
  rd := 0
  wr := 4
  used := 2
  buf := []

/-- The reference parameters with the non-resampled strategy. -/
def directParams : Params := { Params.reference with resampled := false }

/-- The reference parameters with UNDERFLOW_REFILL = 1. -/
def refillParams : Params := { Params.reference with underflowRefill := true }

/-- A block in a transport state with given rings. -/
def block (p : Params) (x : Transport) (tx rx : Ring) : State :=
  { State.resetOf p with state := x, tx := tx, rx := rx }

/-- The state priming ends in (42_transport.md R183). -/
def steady (p : Params) : State := block p .normal (ring 0 192) (ring 0 192)

/-- A codec block of `N = 32` zero words, and one of ones in the sample bits. -/
def zeros32 : List Word := List.replicate 32 0
def ones32 : List Word := List.replicate 32 0x00010000

/-- A USB frame of `2 T = 192` zero bytes. -/
def zeroFrame : List Byte := List.replicate 192 0

def codec (s : State) : State := given 0x01000000 (.words zeros32) s
def usb (s : State) : State := given 0x02000000 (.bytes zeroFrame) s
def control (s : State) : State := given 0x00000000 .none s

/-! ## Steps -/

/-- V-E-2, 43_control_status.md R223. -/
theorem test_setRate : (after (given 0x2000AC44 .none State.reset)).map (·.rate) = some 44100 := by
  decide

theorem test_setRate_rejected :
    (after (given 0x20005622 .none State.reset)).map (fun t => (t.rate, t.reply.map (·.status)))
      = some (48000, some .rejected) := by decide

theorem test_setMute :
    (after (given 0x21010001 .none State.reset)).map (·.mute) = some [false, true, false] := by
  decide

theorem test_setVol :
    (after (given 0x2200FF00 .none State.reset)).map (·.volume) = some [0xFF00, 0, 0] := by decide

theorem test_setAlt :
    (after (given 0x23000002 .none State.reset)).map (fun t => (t.outActive, t.inActive))
      = some (false, true) := by decide

/-- 10_state.md R37: the value of ID in the reference configuration. -/
theorem test_rdReg_id :
    (after (given 0x30000000 .none State.reset)).map (fun t => t.reply.map (·.data))
      = some (some 0x00003012) := by decide

/-- 43_control_status.md R227. -/
theorem test_rdReg_rate :
    (after (given 0x30020000 .none State.reset)).map (fun t => t.reply.map (·.data))
      = some (some 0x0000BB80) := by decide

/-- 43_control_status.md R222, R228. -/
theorem test_overload :
    (after (given 0x11000000 .none State.reset)).map (fun t => (t.flags, t.state))
      = some (0b0001, .needsReset) := by decide

theorem test_rdFlags :
    (after (given 0x31000000 .none { State.reset with flags := 0b0101 })).map
        (fun t => (t.flags, t.reply.map (·.data)))
      = some (0, some 5) := by decide

theorem test_reqReset :
    (after (given 0x10000000 .none State.reset)).map (fun t => (t.flags, t.state))
      = some (0, .needsReset) := by decide

/-- V-D-21. -/
theorem test_cntAdj :
    (after (given 0x0300FFFF .none State.reset)).map (·.cfsc) = some 0xFFFFFFFF := by decide

theorem test_nop : (after (given 0 .none State.reset)).map (fun t => t.reply.map (·.status))
    = some (some .ok) := by decide

/-- 42_transport.md R175: the first block of a session. -/
theorem test_codec_priming :
    (after (codec State.reset)).map (fun t => (t.tx.used, t.tx.wr, t.cfsc)) = some (32, 32, 32) := by
  decide

/-- 42_transport.md R178: the first block of a batch; the rings of V-T-1. -/
theorem test_codec_batch :
    (after (codec (steady .reference))).map (fun t => (t.rx.rd, t.rx.used, t.bphase, t.tx.used))
      = some (32, 160, 1, 192) := by decide

/-- V-D-22: the first USB frame of a session without a codec. -/
theorem test_usb_drift :
    ((driftFrame State.reset).dwso, (driftFrame State.reset).wfc.val) = (0xFFA0, 1) := by decide

/-- 42_transport.md R185: a TX underflow, with a frame of zeros. -/
theorem test_usb_underflow :
    let t := (usbExchange (silence 96) (block .reference .normal (ring 0 64) (ring 0 192))).1
    (t.state, t.flags, t.unfCount) = (.needsReset, 0b0100, 1) := by decide

/-- V-RS-1 (input frame `j` is `500 j` and `-300 j`), output frame 1: between input frames 1 and 2. -/
theorem test_shrink_frame1 :
    lerpSample (BitVec.ofInt 16 500) (BitVec.ofInt 16 1000) (stepShrink * 1) = BitVec.ofInt 16 510
      ∧ lerpSample (BitVec.ofInt 16 (-300)) (BitVec.ofInt 16 (-600)) (stepShrink * 1)
        = BitVec.ofInt 16 (-307) := by decide

/-- V-RS-2 (the same input), output frame 48: between input frames 46 and 47. -/
theorem test_stretch_frame48 :
    stepStretch * 48 / 65536 = 46
      ∧ lerpSample (BitVec.ofInt 16 23000) (BitVec.ofInt 16 23500) (stepStretch * 48 % 65536)
        = BitVec.ofInt 16 23499
      ∧ lerpSample (BitVec.ofInt 16 (-13800)) (BitVec.ofInt 16 (-14100)) (stepStretch * 48 % 65536)
        = BitVec.ofInt 16 (-14100) := by decide

/-- V-L-5 and V-L-9: falling pairs, with a product that needs more than 32 bits and with a floor. -/
theorem test_lerp_falling : lerp 32767 (-32768) 65504 = -32737 ∧ lerp 4 (-3) 32768 = 0 := by decide

/-- 40_resampler.md R125, R126. -/
theorem test_codec_words : c2s 0x8000FFFF = 0x8000 ∧ s2c 0xFFFF = 0xFFFF0000 := by decide

/-- V-D-4, V-D-7 and V-D-14: the interval quantizer. -/
theorem test_interval :
    intervalOf .reference 32 0 = 6 ∧ intervalOf .reference 0xFFFF 5 = 600
      ∧ intervalOf .reference (wrapI16 33000) 0 = 1 := by decide

/-! ## Sound states -/

/-- The conditions of `RingOk` for a ring with nothing listed, as one test. -/
theorem ringOk_of_test {p : Params} {r : Ring} (hb : r.buf = [])
    (h : (decide (r.used.toNat ≤ p.cap) && decide (r.rd.toNat < p.cap) && decide (r.wr.toNat < p.cap)
      && consistent p.cap r && decide (r.used.toNat % p.chans = 0)
      && decide (r.rd.toNat % p.chans = 0) && decide (r.wr.toNat % p.chans = 0)) = true) :
    RingOk p r := by
  simp only [Bool.and_eq_true, decide_eq_true_iff] at h
  obtain ⟨⟨⟨⟨⟨⟨h1, h2⟩, h3⟩, h4⟩, h5⟩, h6⟩, h7⟩ := h
  exact ⟨h1, h2, h3, h4, h5, h6, h7, by rw [hb]; rfl, by simp [hb]⟩

/-- The states of these tests are sound when their rings are and their transport state allows them. -/
theorem inv_block {p : Params} {x : Transport} {tx rx : Ring} (ht : RingOk p tx) (hr : RingOk p rx)
    (hx : isPriming x = false) : Inv (block p x tx rx) where
  tx := ht
  rx := hr
  mute_len := by simp [block, State.resetOf]
  volume_len := by simp [block, State.resetOf]
  bb_len := by simp [block, State.resetOf]
  rate_ok := .inr (.inl rfl)
  pending := by simp [block, State.resetOf]
  batch := by simp [block, State.resetOf]
  direct := fun _ => ⟨rfl, rfl, rfl⟩
  priming := fun h => by rw [show isPriming (block p x tx rx).state = isPriming x from rfl, hx] at h; cases h
  init_blocks := fun h => by rw [show x = .init from h] at hx; cases hx
  refill := fun h => by rw [show x = .fillingUnderflow from h] at hx; cases hx
  interval := fun _ => rfl

theorem inv_steady (p : Params) (h : p = .reference ∨ p = directParams) : Inv (steady p) := by
  rcases h with rfl | rfl <;>
    exact inv_block (ringOk_of_test rfl (by decide)) (ringOk_of_test rfl (by decide)) rfl

/-! ## Witnesses: states and operands that meet the hypotheses of the statements -/

theorem len_zeroFrame : zeroFrame.length = 192 := List.length_replicate

theorem rings_ok : RingOk .reference (ring 0 192) ∧ RingOk .reference (ring 0 0)
    ∧ RingOk .reference (ring 382 384) ∧ RingOk .reference (ring 0 288) :=
  ⟨ringOk_of_test rfl (by decide), ringOk_of_test rfl (by decide), ringOk_of_test rfl (by decide),
    ringOk_of_test rfl (by decide)⟩

/-- DecodedWordIsItsEncoding: a word at the largest legal index. -/
theorem hyp_decoded_word : decode .two 0x2202FFFF = .command (.setVol 2 0xFFFF) := by decide

/-- ExactlyTheListedWordsAreCommands, second clause: an index one past the range. -/
theorem hyp_illegal_word :
    (given 0x21030001 .none State.reset).port = [{ cw := 0x21030001, payload := .none }]
      ∧ ¬legalWord (given 0x21030001 .none State.reset).cfg.ch (0x21030001 : Word).toNat := by
  refine ⟨rfl, ?_⟩
  unfold legalWord
  decide

/-- StepRunsDecodedCommand. -/
theorem hyp_step : (codec State.reset).port = [{ cw := 0x01000000, payload := .words zeros32 }]
    ∧ decode (codec State.reset).cfg.ch 0x01000000 = .command .codecXchg := by decide

/-- IdlePortHoldsState. -/
theorem hyp_idle : State.reset.port = [] := rfl

/-- OnlyMalformedPayloadsAreRefused: both cases, a word short and not. -/
theorem hyp_payload_shape :
    sameShape (inPayload (codec State.reset)) (zeroInput State.reset.cfg .codecXchg) = true
      ∧ sameShape (inPayload (given 0x01000000 (.words (zeros32.drop 1)) State.reset))
        (zeroInput State.reset.cfg .codecXchg) = false := by decide

/-- LerpLaws and SampleLerpIsExact: the ends of every range, rising and falling. -/
theorem hyp_lerp : (-32768 : Int) ≤ -32768 ∧ (32767 : Int) ≤ 32767 ∧ (0 : Int) ≤ 65536
    ∧ (-32768 : Int) ≤ 32767 ∧ (-32768 : Int) < 32767 := by decide

/-- 48 frames of two channels, all 0. -/
def quiet : List Sample := silence 96

/-- The same with another second channel. -/
def loudRight : List Sample := (List.range 48).flatMap fun _ => [0, 7]

theorem quiet_zero (k : Nat) : quiet.getD k 0 = 0 := by
  unfold quiet silence
  rw [List.getD_eq_getElem?_getD, List.getElem?_replicate]
  split <;> rfl

theorem quiet_frame (j c : Nat) : frameSample 2 quiet j c = 0 := quiet_zero _

/-- ShrinkFrames, StretchFrames: 48 frames. -/
theorem hyp_frames : quiet.length = 48 * Channels.two.count := List.length_replicate

/-- ResampledSamplesStayInRange: equal bounds. -/
theorem hyp_range : 1 < Channels.two.count ∧ ∀ j < 48,
    (0 : Int) ≤ (frameSample Channels.two.count quiet j 1).toInt
      ∧ (frameSample Channels.two.count quiet j 1).toInt ≤ 0 := by
  refine ⟨by decide, fun j _ => ?_⟩
  rw [show Channels.two.count = 2 from rfl, quiet_frame]
  decide

/-- ResamplerKeepsOrder. -/
theorem hyp_order : 0 < Channels.two.count ∧ ∀ j < 47,
    (frameSample Channels.two.count quiet j 0).toInt
      ≤ (frameSample Channels.two.count quiet (j + 1) 0).toInt := by
  refine ⟨by decide, fun j _ => ?_⟩
  rw [show Channels.two.count = 2 from rfl, quiet_frame, quiet_frame]

/-- ChannelsAreIndependentLanes: two inputs that agree in channel 0 and differ in channel 1. -/
theorem hyp_lanes : 0 < Channels.two.count
    ∧ (∀ j < 48, frameSample Channels.two.count quiet j 0
      = frameSample Channels.two.count loudRight j 0)
    ∧ frameSample 2 quiet 0 1 ≠ frameSample 2 loudRight 0 1 := by
  refine ⟨by decide, fun j hj => ?_, by decide⟩
  rw [show Channels.two.count = 2 from rfl, quiet_frame]
  have h := getD_flatMap_frames (ch := 2) (fun _ => ([0, 7] : List Sample)) (fun _ => rfl) 48 j 0 hj
    (by decide)
  exact h.symm

/-- UsbFramesAreLittleEndian: a frame of 96 samples, and the two clauses of the sign. -/
theorem hyp_bytes : zeroFrame.length = 2 * 96
    ∧ ([0xFF, 0x7F] : List Byte).length = 2 * 1 ∧ ¬128 ≤ (0x7F : Byte).toNat
    ∧ ([0x00, 0x80] : List Byte).length = 2 * 1 ∧ 128 ≤ (0x80 : Byte).toNat :=
  ⟨len_zeroFrame, by decide⟩

/-- SixteenBitResamplerCommands. -/
theorem hyp_resampler16 :
    inPayload (given 0x40000000 (.samples quiet) State.reset) = .samples quiet
      ∧ quiet.length = (given 0x40000000 (.samples quiet) State.reset).cfg.transfer :=
  ⟨rfl, List.length_replicate⟩

/-- A command with 96 words of silence. -/
def words96 (w : Word) : State := given w (.words (silentWords 96)) State.reset

/-- CodecWordResamplerCommands. -/
theorem hyp_resampler32 (w : Word) : inPayload (words96 w) = .words (silentWords 96)
    ∧ (silentWords 96).length = (words96 w).cfg.transfer :=
  ⟨rfl, List.length_replicate⟩

/-- PaddingBitsNeverMatter: two payloads that differ in padding, for each of the three commands. -/
theorem hyp_padding :
    (silentWords 96).map (fun x => x.extractLsb' 16 16)
        = (List.replicate 96 (0x0000FFFF : Word)).map (fun x => x.extractLsb' 16 16)
      ∧ zeros32.map (fun x => x.extractLsb' 16 16)
        = (List.replicate 32 (0x0000FFFF : Word)).map (fun x => x.extractLsb' 16 16)
      ∧ (∃ t, exec .codecXchg (codec State.reset) = .next t)
      ∧ (∃ t, exec .rsShrink32 (words96 0x42000000) = .next t)
      ∧ ∃ t, exec .rsStretch32 (words96 0x43000000) = .next t := by
  refine ⟨by simp [silentWords], by simp [zeros32], ?_, ?_, ?_⟩
  · exact ⟨_, exec_codecXchg rfl rfl⟩
  · exact ⟨_, by rw [exec, execRsShrink32, withWords_eq _ rfl
      (hyp_resampler32 _).2]⟩
  · exact ⟨_, by rw [exec, execRsStretch32, withWords_eq _ rfl
      (hyp_resampler32 _).2]⟩

/-- RingIsFirstInFirstOut: a full ring that wraps, with nothing more to write and all to read, and an
empty one to be filled. -/
theorem hyp_fifo : RingOk .reference (ring 382 384) ∧ RingOk .reference (ring 0 0)
    ∧ (ring 382 384).used.toNat + ([] : List Sample).length ≤ Params.reference.cap
    ∧ (ring 0 0).used.toNat + (List.replicate 384 (1 : Sample)).length ≤ Params.reference.cap
    ∧ 384 ≤ (ring 382 384).used.toNat := by
  refine ⟨rings_ok.2.2.1, rings_ok.2.1, by decide, ?_, by decide⟩
  rw [List.length_replicate]
  decide

/-- A steady state whose TX holds a value in a free location. -/
def steadyDirty : State := block .reference .normal { ring 0 192 with buf := [(200, 5)] } (ring 0 192)

theorem oldest_empty (cap n : Nat) (r : Ring) (h : r.buf = []) : oldest cap r n = silence n := by
  simp [oldest, silence, h, memRead, List.map_const']

/-- FreeLocationsNeverMatter: the two states differ, and a USB frame is carried out. -/
theorem hyp_free_locations : Inv (usb (steady .reference)) ∧ Inv (usb steadyDirty)
    ∧ usb steadyDirty = { usb (steady .reference) with
        tx := (usb steadyDirty).tx, rx := (usb steadyDirty).rx }
    ∧ SameLive 384 (steady .reference).tx steadyDirty.tx
    ∧ SameLive 384 (steady .reference).rx steadyDirty.rx
    ∧ (∃ t, exec .usbSof (usb (steady .reference)) = .next t)
    ∧ usb steadyDirty ≠ usb (steady .reference) := by
  have hdirty : RingOk .reference { ring 0 192 with buf := [(200, 5)] } := by
    obtain ⟨h1, h2, h3, h4, h5, h6, h7, -, -⟩ := rings_ok.1
    exact ⟨h1, h2, h3, h4, h5, h6, h7, by decide, by decide⟩
  have h1 : Inv (steady .reference) := inv_steady _ (.inl rfl)
  have h2 : Inv steadyDirty := inv_block hdirty rings_ok.1 rfl
  have hport : ∀ (s : State) (w : Word) (q : Payload), Inv s → Inv (given w q s) := fun _ _ _ h =>
    ⟨h.1, h.2, h.3, h.4, h.5, h.6, h.7, h.8, h.9, h.10, h.11, h.12, h.13⟩
  refine ⟨hport _ _ _ h1, hport _ _ _ h2, rfl, ⟨rfl, rfl, rfl, ?_⟩, ⟨rfl, rfl, rfl, rfl⟩,
    ⟨_, exec_usbSof rfl len_zeroFrame⟩, ?_⟩
  · rw [oldest_empty _ _ (steady .reference).tx rfl]
    simp only [oldest, silence]
    refine List.eq_replicate_iff.2 ⟨by simp, fun b hb => ?_⟩
    obtain ⟨k, hk, rfl⟩ := List.mem_map.1 hb
    have hk' : k < 192 := List.mem_range.1 hk
    simp [steadyDirty, block, ring, memRead]
    omega
  · intro h
    have h3 := congrArg (fun s : State => s.tx.buf) h
    exact absurd h3 (by decide)

/-- CountAdjustAddsSignedImmediate, NopChangesNothing, ResetRequestsSetNeedsReset,
SetRateStoresSupportedRates, SetAltSetsSessionFlags and RdFlagsReturnsAndClears; and the two clauses of
SetMuteAndSetVolWriteOneEntry at their boundary, and the clauses of RdRegReadsTheMap. -/
theorem hyp_control : inPayload (control State.reset) = .none
    ∧ (2 : BitVec 8).toNat ≤ State.reset.cfg.chans ∧ State.reset.cfg.chans < (3 : BitVec 8).toNat
    ∧ State.reset.mute.length = State.reset.cfg.chans + 1
    ∧ State.reset.volume.length = State.reset.cfg.chans + 1
    ∧ (0x02, 48000) ∈ registerRows State.reset
    ∧ (∀ e ∈ registerRows State.reset, (0x43 : BitVec 8) ≠ e.1)
    ∧ ∀ i ≤ State.reset.cfg.chans, (0x43 : BitVec 8).toNat ≠ 0x40 + i
      ∧ (0x43 : BitVec 8).toNat ≠ 0x50 + i := by
  refine ⟨rfl, by decide, by decide, by decide, by decide, List.mem_of_getElem? (i := 2) rfl,
    fun e he h => ?_, fun i hi => ?_⟩
  · have h1 : e.1 ∈ (registerRows State.reset).map (·.1) := List.mem_map_of_mem he
    rw [← h] at h1
    exact absurd h1 (by decide)
  have h : i ≤ 2 := hi
  have h43 : (0x43 : BitVec 8).toNat = 0x43 := rfl
  omega

/-- A frame of a window, its last frame with a clean sum, and its last frame with a dirty one. -/
def frame98 : State := usb { State.reset with cfsc := 96, wfc := 98 }
def frame99Clean : State := usb { State.reset with cfsc := 96, wfc := 99 }
def frame99Dirty : State := usb { State.reset with cfsc := 97, wfc := 99 }

/-- The last frame of a dirty window in a steady state. -/
def frame99Steady : State := usb { steady .reference with cfsc := 97, wfc := 99 }

/-- DriftTrackerRunsEveryFrame: every clause. -/
theorem hyp_drift : inPayload frame98 = .bytes zeroFrame
    ∧ zeroFrame.length = 2 * frame98.cfg.transfer
    ∧ inPayload frame99Steady = .bytes zeroFrame
    ∧ zeroFrame.length = 2 * frame99Steady.cfg.transfer
    ∧ frame98.wfc.val < 99 ∧ frame99Clean.wfc.val = 99 ∧ frame99Dirty.wfc.val = 99
    ∧ isSteady frame98.state = false ∧ isSteady frame99Dirty.state = false
    ∧ isSteady frame99Steady.state = true ∧ frame99Steady.wfc.val = 99
    ∧ frame99Clean.dwso + (frame99Clean.cfsc.setWidth 16
        - BitVec.ofNat 16 frame99Clean.cfg.nominal) = 0
    ∧ frame99Dirty.dwso + (frame99Dirty.cfsc.setWidth 16
        - BitVec.ofNat 16 frame99Dirty.cfg.nominal) ≠ 0
    ∧ frame99Steady.dwso + (frame99Steady.cfsc.setWidth 16
        - BitVec.ofNat 16 frame99Steady.cfg.nominal) ≠ 0 :=
  ⟨rfl, len_zeroFrame, rfl, len_zeroFrame, by decide⟩

/-- 41_drift.md R154: 97 codec samples in the last frame of a window, no clean window before: the offset
is 1, the divisor of `abs(1) >>a 1 = 0` is 1 and the interval 100. -/
theorem test_drift_dirty : (driftFrame frame99Steady).sampleOffset = 1
    ∧ (driftFrame frame99Steady).corrInterval = 100 := by decide

/-- CorrectionMovesOffsetByOneFrame, FlagsAreSticky, OnlyItsCommandsWriteARegister and
EachSideWritesItsOwnCursors: both exchange commands answer. -/
theorem hyp_exchange_next : (∃ t, exec .usbSof (usb (steady .reference)) = .next t)
    ∧ ∃ t, exec .codecXchg (codec (steady .reference)) = .next t :=
  ⟨⟨_, exec_usbSof rfl len_zeroFrame⟩, ⟨_, exec_codecXchg rfl rfl⟩⟩

/-- NeedsResetIsLeftByReinitialising and UsbFrameInNeedsResetIsDiscarded. -/
theorem hyp_needsReset :
    let s := block .reference .needsReset (ring 0 192) (ring 0 192)
    inPayload (codec s) = .words zeros32 ∧ zeros32.length = (codec s).cfg.blockLen
      ∧ (codec s).state = .needsReset
      ∧ inPayload (usb s) = .bytes zeroFrame ∧ zeroFrame.length = 2 * (usb s).cfg.transfer
      ∧ (usb s).state = .needsReset :=
  ⟨rfl, rfl, rfl, rfl, len_zeroFrame, rfl⟩

/-- InconsistentRingsRaiseConsistency: either ring, either command. -/
theorem hyp_inconsistent :
    let s := block .reference .normal brokenRing (ring 0 192)
    let s' := block .reference .init (ring 0 192) brokenRing
    s.state ≠ .needsReset ∧ consistent s.cfg.cap s.tx = false
      ∧ s'.state ≠ .needsReset ∧ consistent s'.cfg.cap s'.rx = false
      ∧ inPayload (codec s) = .words zeros32 ∧ zeros32.length = (codec s).cfg.blockLen
      ∧ inPayload (usb s') = .bytes zeroFrame ∧ zeroFrame.length = 2 * (usb s').cfg.transfer :=
  ⟨by decide, by decide, by decide, by decide, rfl, rfl, rfl, len_zeroFrame⟩

/-- PrimingBlockFillsTx: with room, and with TX full. -/
theorem hyp_priming_block :
    let s := codec (block .reference .init (ring 0 160) (ring 0 0))
    let s' := codec (block .reference .init (ring 0 192) (ring 0 0))
    inPayload s = .words zeros32 ∧ zeros32.length = s.cfg.blockLen ∧ isPriming s.state = true
      ∧ RingOk s.cfg s.tx ∧ RingOk s.cfg s.rx
      ∧ inPayload s' = .words zeros32 ∧ zeros32.length = s'.cfg.blockLen
      ∧ isPriming s'.state = true ∧ RingOk s'.cfg s'.tx ∧ RingOk s'.cfg s'.rx :=
  ⟨rfl, rfl, rfl, ringOk_of_test rfl (by decide), rings_ok.2.1, rfl, rfl, rfl, rings_ok.1,
    rings_ok.2.1⟩

/-- A non-resampled steady state with a correction of either kind pending, or none. -/
def direct (x : Transport) (pending : Bool) (tx rx : Nat) : State :=
  codec { block directParams x (ring 0 tx) (ring 0 rx) with corrPending := pending }

/-- DirectExchangeMovesOneBlock: each mode, at the bounds of the ring checks. -/
theorem hyp_direct :
    inPayload (direct .normal false 352 32) = .words zeros32
      ∧ zeros32.length = (direct .normal false 352 32).cfg.blockLen
      ∧ isSteady (direct .normal false 352 32).state = true
      ∧ (direct .normal false 352 32).cfg.resampled = false
      ∧ RingOk directParams (ring 0 352) ∧ RingOk directParams (ring 0 32)
      ∧ RingOk directParams (ring 0 354) ∧ RingOk directParams (ring 0 350)
      ∧ RingOk directParams (ring 0 34)
      ∧ pendingMode (direct .normal false 352 32) = .none
      ∧ 352 + zeros32.length ≤ directParams.cap ∧ max 32 32 ≤ 32
      ∧ pendingMode (direct .codecRemove true 354 32) = .remove
      ∧ 354 + (zeros32.take 30).length ≤ directParams.cap ∧ max 32 30 ≤ 32
      ∧ pendingMode (direct .codecDuplicate true 350 34) = .duplicate
      ∧ 350 + (zeros32 ++ zeros32.drop 30).length ≤ directParams.cap ∧ max 32 34 ≤ 34 :=
  ⟨rfl, rfl, rfl, rfl, ringOk_of_test rfl (by decide), ringOk_of_test rfl (by decide),
    ringOk_of_test rfl (by decide), ringOk_of_test rfl (by decide), ringOk_of_test rfl (by decide),
    by decide⟩

/-- DirectExchangeFailsWhole: one past the bounds, an overflow, an underflow, and both. -/
theorem hyp_direct_fails :
    consistent 384 (ring 0 354) = true ∧ consistent 384 (ring 0 30) = true
      ∧ consistent 384 (ring 0 192) = true
      ∧ directParams.cap < (direct .normal false 354 192).tx.used.toNat + 32
      ∧ (direct .normal false 192 30).rx.used.toNat < max 32 32
      ∧ directParams.cap < (direct .normal false 354 30).tx.used.toNat + 32
      ∧ (direct .normal false 354 30).rx.used.toNat < max 32 32 := by decide

/-- A resampled steady state inside a batch. -/
def batch (x : Transport) (pending : Bool) (phase : Fin 3) (mode : BatchMode) (tx rx : Nat) : State :=
  codec { block .reference x (ring 0 tx) (ring 0 rx) with
    corrPending := pending, bphase := phase, batchMode := mode }

/-- ResampledBlockRunsTheBatch: a batch start without a correction and with each, and the last block of
each mode, at the bounds of the checks. -/
theorem hyp_batch :
    inPayload (batch .normal false 0 .none 192 32) = .words zeros32
      ∧ zeros32.length = (batch .normal false 0 .none 192 32).cfg.blockLen
      ∧ isSteady (batch .normal false 0 .none 192 32).state = true
      ∧ (batch .normal false 0 .none 192 32).cfg.resampled = true
      ∧ (batch .normal false 0 .none 192 32).bb.length
        = (batch .normal false 0 .none 192 32).cfg.transfer
      ∧ (∀ n ∈ [32, 96, 192, 286, 288, 290, 382], RingOk .reference (ring 0 n))
      ∧ ¬BlockOverflows (batch .normal false 0 .none 192 32)
      ∧ ¬BlockUnderflows (batch .normal false 0 .none 192 32)
      ∧ ¬BlockOverflows (batch .codecRemove true 0 .none 192 382)
      ∧ ¬BlockUnderflows (batch .codecRemove true 0 .none 192 96)
      ∧ ¬BlockOverflows (batch .codecDuplicate true 0 .none 192 96)
      ∧ ¬BlockUnderflows (batch .codecDuplicate true 0 .none 192 96)
      ∧ ¬BlockOverflows (batch .normal false 2 .none 288 32)
      ∧ ¬BlockOverflows (batch .normal false 2 .remove 290 32)
      ∧ ¬BlockOverflows (batch .normal false 2 .duplicate 286 32)
      ∧ ¬BlockUnderflows (batch .normal false 2 .duplicate 286 32) := by
  refine ⟨rfl, rfl, rfl, rfl, List.length_replicate, ?_, ?_, ?_, ?_, ?_, ?_, ?_, ?_, ?_, ?_, ?_⟩
  · simp only [List.forall_mem_cons, List.not_mem_nil, false_implies, implies_true, and_true]
    exact ⟨ringOk_of_test rfl (by decide), ringOk_of_test rfl (by decide),
      ringOk_of_test rfl (by decide), ringOk_of_test rfl (by decide),
      ringOk_of_test rfl (by decide), ringOk_of_test rfl (by decide),
      ringOk_of_test rfl (by decide)⟩
  all_goals
    first | unfold BlockOverflows | unfold BlockUnderflows startsCorrection
    decide

/-- ResampledBlockFailsWhole: an overflow and an underflow, one past the bounds. -/
theorem hyp_batch_fails : consistent 384 (ring 0 290) = true ∧ consistent 384 (ring 0 30) = true
    ∧ BlockOverflows (batch .normal false 2 .none 290 32)
    ∧ ¬BlockUnderflows (batch .normal false 2 .none 290 32)
    ∧ BlockUnderflows (batch .normal false 0 .none 192 30)
    ∧ ¬BlockOverflows (batch .normal false 0 .none 192 30)
    ∧ BlockUnderflows (batch .codecDuplicate true 0 .none 192 94)
    ∧ BlockOverflows (batch .codecRemove true 0 .none 192 384) := by
  refine ⟨by decide, by decide, ?_, ?_, ?_, ?_, ?_, ?_⟩
  all_goals
    first | unfold BlockOverflows | unfold BlockUnderflows startsCorrection
    decide

/-- PrimingFrameFillsRx: no room; room with TX short; room with TX full and RX short of two frames; and
the exit. -/
theorem hyp_priming_frame :
    let s := fun tx rx => usb (block .reference .init (ring 0 tx) (ring 0 rx))
    inPayload (s 192 96) = .bytes zeroFrame ∧ zeroFrame.length = 2 * (s 192 96).cfg.transfer
      ∧ isPriming (s 192 96).state = true
      ∧ (∀ n ∈ [0, 96, 160, 192, 288, 290], RingOk .reference (ring 0 n))
      ∧ (s 192 290).cfg.cap < (s 192 290).rx.used.toNat + 96
      ∧ (s 192 288).rx.used.toNat + 96 ≤ (s 192 288).cfg.cap
      ∧ ¬((s 160 96).tx.used.toNat = (s 160 96).cfg.normalSize)
      ∧ ¬(2 * 96 ≤ (s 192 0).rx.used.toNat + 96)
      ∧ (s 192 96).tx.used.toNat = (s 192 96).cfg.normalSize
      ∧ 2 * 96 ≤ (s 192 96).rx.used.toNat + 96 := by
  refine ⟨rfl, len_zeroFrame, rfl, ?_, by decide⟩
  simp only [List.forall_mem_cons, List.not_mem_nil, false_implies, implies_true, and_true]
  exact ⟨ringOk_of_test rfl (by decide), ringOk_of_test rfl (by decide),
    ringOk_of_test rfl (by decide), ringOk_of_test rfl (by decide), ringOk_of_test rfl (by decide),
    ringOk_of_test rfl (by decide)⟩

/-- SteadyFrameTransfersBothWays: the least TX and the fullest RX, where no correction fires and where
one of each sign does. -/
theorem hyp_steady_frame :
    let s := fun o : BitVec 16 =>
      usb { block .reference .normal (ring 0 96) (ring 0 288) with
        sampleOffset := o, corrInterval := 1 }
    inPayload (s 0) = .bytes zeroFrame ∧ zeroFrame.length = 2 * (s 0).cfg.transfer
      ∧ isSteady (s 0).state = true ∧ RingOk (s 0).cfg (s 0).tx ∧ RingOk (s 0).cfg (s 0).rx
      ∧ (s 0).cfg.transfer ≤ (s 0).tx.used.toNat
      ∧ (s 0).rx.used.toNat + (s 0).cfg.transfer ≤ (s 0).cfg.cap
      ∧ (driftFrame (s 0)).sampleOffset = 0
      ∧ 0 < (driftFrame (s 2)).sampleOffset.toInt
      ∧ (driftFrame (s 0xFFFE)).sampleOffset.toInt < 0
      ∧ (driftFrame (s 2)).corrInterval.toNat ≤ ((s 2).corrCounter + 1).toNat :=
  ⟨rfl, len_zeroFrame, rfl, ringOk_of_test rfl (by decide), rings_ok.2.2.2, by decide⟩

/-- CorrectionMovesOffsetByOneFrame: a USB frame that schedules a correction of each sign. -/
theorem hyp_scheduled :
    let s := fun o : BitVec 16 =>
      usb { steady .reference with sampleOffset := o, corrInterval := 1 }
    (∃ t, exec .usbSof (s 1) = .next t ∧ t.state = .codecRemove ∧ t.sampleOffset = 0xFFFF)
      ∧ ∃ t, exec .usbSof (s 0xFFFF) = .next t ∧ t.state = .codecDuplicate ∧ t.sampleOffset = 1 :=
  ⟨⟨_, exec_usbSof rfl len_zeroFrame, by decide⟩, ⟨_, exec_usbSof rfl len_zeroFrame, by decide⟩⟩

/-- FailedFrameRaisesOrRefills: an underflow without and with UNDERFLOW_REFILL, an overflow, and
both. -/
theorem hyp_failed_frame :
    let s := fun p tx rx => usb (block p .normal (ring 0 tx) (ring 0 rx))
    inPayload (s .reference 94 192) = .bytes zeroFrame
      ∧ zeroFrame.length = 2 * (s .reference 94 192).cfg.transfer
      ∧ isSteady (s .reference 94 192).state = true
      ∧ (∀ n ∈ [94, 192, 290], consistent 384 (ring 0 n) = true)
      ∧ (s .reference 94 192).tx.used.toNat < (s .reference 94 192).cfg.transfer
      ∧ ¬(s .reference 94 192).cfg.cap
          < (s .reference 94 192).rx.used.toNat + (s .reference 94 192).cfg.transfer
      ∧ (s .reference 94 192).cfg.underflowRefill = false
      ∧ (s refillParams 94 192).cfg.underflowRefill = true
      ∧ (s .reference 192 290).cfg.cap
          < (s .reference 192 290).rx.used.toNat + (s .reference 192 290).cfg.transfer :=
  ⟨rfl, len_zeroFrame, by decide⟩

/-- NextCodecBlockRecovers: both requests. -/
theorem hyp_recover :
    let s := fun w : Word => { steady .reference with port :=
      [{ cw := w, payload := .none }, { cw := 0x01000000, payload := .words zeros32 }] }
    (s 0x11000000).port = { cw := 0x11000000, payload := .none }
        :: { cw := 0x01000000, payload := .words zeros32 } :: []
      ∧ (s 0x10000000).port = { cw := 0x10000000, payload := .none }
        :: { cw := 0x01000000, payload := .words zeros32 } :: []
      ∧ zeros32.length = (s 0x11000000).cfg.blockLen :=
  ⟨rfl, rfl, rfl⟩

/-- StepKeepsInvariant and NoConsistencyErrorFromSoundState. -/
theorem hyp_invariant : Inv (steady .reference) ∧ (∃ t, step (steady .reference) = .next t)
    ∧ (steady .reference).flags.getLsbD 3 = false :=
  ⟨inv_steady _ (.inl rfl), ⟨_, rfl⟩, rfl⟩

/-- EveryRunFromResetIsSound: a run of two commands. -/
theorem hyp_run : ∃ t, Host.Core.run Sys2Proof.core 2 { State.resetOf .reference with port :=
    [{ cw := 0x01000000, payload := .words zeros32 }, { cw := 0, payload := .none }] } = .next t :=
  ⟨_, rfl⟩

/-- TransportTransitionsAreListed: commands that change `state`, a failing codec block of each strategy
among them. -/
theorem hyp_transition : (∃ t, exec .reqReset (given 0x10000000 .none State.reset) = .next t
      ∧ t.state ≠ (given 0x10000000 .none State.reset).state)
    ∧ (∃ t, exec .codecXchg (direct .normal false 354 192) = .next t
      ∧ t.state ≠ (direct .normal false 354 192).state)
    ∧ ∃ t, exec .codecXchg (batch .normal false 0 .none 192 30) = .next t
      ∧ t.state ≠ (batch .normal false 0 .none 192 30).state :=
  ⟨⟨_, rfl, by decide⟩, ⟨_, exec_codecXchg rfl rfl, by decide⟩,
    ⟨_, exec_codecXchg rfl rfl, by decide⟩⟩

/-- SilenceUnlessSteadyAndSound: each exchange command in a state that is not steady, and a command that
raises an error. -/
theorem hyp_silence : (∃ t, exec .codecXchg (codec State.reset) = .next t)
    ∧ (∃ t, exec .usbSof (usb State.reset) = .next t) ∧ isSteady State.reset.state = false
    ∧ ∃ t, exec .codecXchg (batch .normal false 0 .none 192 30) = .next t
      ∧ t.unfCount ≠ (batch .normal false 0 .none 192 30).unfCount :=
  ⟨⟨_, exec_codecXchg rfl rfl⟩, ⟨_, exec_usbSof rfl len_zeroFrame⟩, rfl,
    ⟨_, exec_codecXchg rfl rfl, by decide⟩⟩

/-- NominalMillisecondIsSteady: the state priming ends in, in both strategies. -/
theorem hyp_nominal (p : Params) (h : p = .reference ∨ p = directParams) :
    let s := { steady p with port := frame 3 0 (fun _ => zeros32) (fun _ => zeroFrame) 0 0 }
    Inv s ∧ s.state = .normal ∧ s.bphase = 0 ∧ s.cfsc = 0 ∧ s.dwso = 0 ∧ s.sampleOffset = 0
      ∧ s.tx.used.toNat = s.cfg.normalSize ∧ s.rx.used.toNat = 2 * s.cfg.transfer
      ∧ zeros32.length = s.cfg.blockLen ∧ zeroFrame.length = 2 * s.cfg.transfer
      ∧ s.port = { cw := 0x01000000, payload := .words zeros32 }
        :: { cw := 0x01000000, payload := .words zeros32 }
        :: { cw := 0x01000000, payload := .words zeros32 }
        :: { cw := 0x02000000, payload := .bytes zeroFrame } :: [] := by
  have hi := inv_steady p h
  refine ⟨⟨hi.1, hi.2, hi.3, hi.4, hi.5, hi.6, hi.7, hi.8, hi.9, hi.10, hi.11, hi.12, hi.13⟩, ?_⟩
  rcases h with rfl | rfl <;>
    exact ⟨rfl, rfl, rfl, rfl, rfl, rfl, rfl, rfl, len_zeroFrame, rfl⟩

/-- BatchEqualsThreeDirectBlocks: the fullest TX and the emptiest RX. -/
theorem hyp_three_blocks :
    let s := { block directParams .normal (ring 0 288) (ring 0 96) with
      port := List.replicate 3 (present .codecXchg (.words ones32)) }
    Inv s ∧ isSteady s.state = true ∧ s.cfg.resampled = false ∧ s.corrPending = false
      ∧ s.tx.used.toNat + s.cfg.transfer ≤ s.cfg.cap ∧ s.cfg.transfer ≤ s.rx.used.toNat
      ∧ ones32.length = s.cfg.blockLen
      ∧ s.port = { cw := 0x01000000, payload := .words ones32 }
        :: { cw := 0x01000000, payload := .words ones32 }
        :: { cw := 0x01000000, payload := .words ones32 } :: [] := by
  have hi : Inv (block directParams .normal (ring 0 288) (ring 0 96)) :=
    inv_block (ringOk_of_test rfl (by decide)) (ringOk_of_test rfl (by decide)) rfl
  exact ⟨⟨hi.1, hi.2, hi.3, hi.4, hi.5, hi.6, hi.7, hi.8, hi.9, hi.10, hi.11, hi.12, hi.13⟩,
    rfl, rfl, rfl, by decide, by decide, rfl, rfl⟩

end Sys2Proof.Tests
end

/-! The resampler (40_resampler.md): the laws of the interpolation primitive, the frames of the two
operators, codec-domain words, and the four standalone commands. -/

namespace Sys2Proof.Proofs.Resampler

open Sys2Proof Sys2Proof.Machine Sys2Proof.Laws

/-! ## The interpolation primitive -/

theorem lerp_eq (a b f : Int) : lerp a b f = a + (b - a) * f / 65536 := rfl

@[simp] theorem lerp_zero (a b : Int) : lerp a b 0 = a := by simp [lerp_eq]

@[simp] theorem lerp_full (a b : Int) : lerp a b 65536 = b := by
  rw [lerp_eq, Int.mul_ediv_cancel _ (by decide)]
  omega

@[simp] theorem lerp_self (a f : Int) : lerp a a f = a := by simp [lerp_eq]

/-- R120 (e): the interpolation may be measured from either end. -/
theorem lerp_complement (a b f : Int) : lerp a b f = lerp b a (65536 - f) := by
  have hprod : (a - b) * (65536 - f) = (b - a) * f + (a - b) * 65536 := by ring
  rw [lerp_eq, lerp_eq, hprod, Int.add_mul_ediv_right _ _ (by decide)]
  omega

theorem lerp_mem_of_le {a b f : Int} (hab : a ≤ b) (hf0 : 0 ≤ f) (hf1 : f ≤ 65536) :
    a ≤ lerp a b f ∧ lerp a b f ≤ b := by
  have hlo : 0 ≤ (b - a) * f := mul_nonneg (by omega) hf0
  have hhi : (b - a) * f ≤ (b - a) * 65536 := mul_le_mul_of_nonneg_left hf1 (by omega)
  rw [lerp_eq]
  omega

/-- R120 (c): a falling pair is the rising pair of the complement. -/
theorem lerp_mem (a b : Int) {f : Int} (hf0 : 0 ≤ f) (hf1 : f ≤ 65536) :
    min a b ≤ lerp a b f ∧ lerp a b f ≤ max a b := by
  rcases le_total a b with hab | hba
  · rw [min_eq_left hab, max_eq_right hab]
    exact lerp_mem_of_le hab hf0 hf1
  · rw [min_eq_right hba, max_eq_left hba, lerp_complement]
    exact lerp_mem_of_le hba (by omega) (by omega)

/-- R120 (d): the floor of a negative product is minus a ceiling. -/
theorem lerp_eq_sub_ceil (a b f : Int) : lerp a b f = a - ((a - b) * f + 65535) / 65536 := by
  have hneg : (b - a) * f = -((a - b) * f) := by ring
  rw [lerp_eq, hneg]
  omega

/-- How far a small fraction moves from the first end, at most. -/
theorem lerp_natAbs_sub_left_le (a b : Int) (f : Nat) :
    (lerp a b f - a).natAbs ≤ ((a - b).natAbs * f + 65535) / 65536 := by
  have habs : ((a - b) * (f : Int)).natAbs = (a - b).natAbs * f := Int.natAbs_mul _ _
  rw [lerp_eq_sub_ceil, ← habs]
  omega

/-- Settles O8, from the laws above; the rule's numeric examples are evaluated. -/
theorem lerpLaws : Obligations.LerpLaws := by
  refine ⟨fun a b f _ _ _ _ hf0 hf1 => ?_, by decide⟩
  obtain ⟨hmin, hmax⟩ := lerp_mem a b hf0 hf1
  have hfloor : lerp a b f = a + Int.fdiv ((b - a) * f) 65536 := by
    rw [lerp_eq, Int.fdiv_eq_ediv_of_nonneg _ (by decide)]
  exact ⟨hfloor, lerp_zero a b, lerp_full a b, lerp_self a f, hmin, hmax, fun _ => lerp_eq a b f,
    fun _ => lerp_eq_sub_ceil a b f, lerp_complement a b f⟩

/-! ## Interpolation of samples -/

@[simp] theorem lerpSample_zero (a b : Sample) : lerpSample a b 0 = a := by
  simp [lerpSample, wrapI16]

/-- R120 (c) for samples: narrowing to 16 bits never acts. -/
theorem lerpSample_toInt (a b : Sample) {f : Nat} (hf : f ≤ 65536) :
    (lerpSample a b f).toInt = lerp a.toInt b.toInt f := by
  obtain ⟨hmin, hmax⟩ := lerp_mem a.toInt b.toInt (f := f) (by omega) (by omega)
  have ha := a.le_toInt
  have hb := b.le_toInt
  have ha' := a.toInt_lt
  have hb' := b.toInt_lt
  exact BitVec.toInt_ofInt_eq_self (by decide) (by omega) (by omega)

/-- The distance to the second end, where the fraction falls short of 1 by `g / 65536`. -/
theorem lerpSample_natAbs_sub_right_le (a b : Sample) {g : Nat} (hg : g ≤ 65536) :
    ((lerpSample a b (65536 - g)).toInt - b.toInt).natAbs
      ≤ ((b.toInt - a.toInt).natAbs * g + 65535) / 65536 := by
  have hcompl : lerp a.toInt b.toInt (65536 - g : Nat) = lerp b.toInt a.toInt g := by
    rw [lerp_complement, show (65536 - (65536 - g : Nat) : Int) = g by omega]
  rw [lerpSample_toInt a b (by omega), hcompl]
  exact lerp_natAbs_sub_left_le _ _ _

/-! ## The frames of the operators -/

theorem frameSample_shrink {ch i c : Nat} (src : List Sample) (hi : i < 47) (hc : c < ch) :
    frameSample ch (shrink ch src) i c =
      lerpSample (frameSample ch src i c) (frameSample ch src (i + 1) c) (1424 * i) :=
  (getD_flatMap_frames _ (fun j => lerpFrame_length ch src j _) 47 i c hi hc).trans
    (lerpFrame_getD ch src i _ c hc)

theorem frameSample_stretch {ch i c : Nat} (src : List Sample) (hi : i < 49) (hc : c < ch) :
    frameSample ch (stretch ch src) i c =
      lerpSample (frameSample ch src (64170 * i / 65536) c)
        (frameSample ch src (64170 * i / 65536 + 1) c) (64170 * i % 65536) :=
  (getD_flatMap_frames _ (fun _ => lerpFrame_length ch src _ _) 49 i c hi hc).trans
    (lerpFrame_getD ch src _ _ c hc)

/-- The rows 1 to 47 of R124's table: each step of 64170 is one frame less 1366. -/
theorem frameSample_stretch_inner {ch i c : Nat} (src : List Sample) (h1 : 1 ≤ i) (h47 : i ≤ 47)
    (hc : c < ch) :
    frameSample ch (stretch ch src) i c =
      lerpSample (frameSample ch src (i - 1) c) (frameSample ch src i c) (65536 - 1366 * i) := by
  have hq : 64170 * i / 65536 = i - 1 := by omega
  have hr : 64170 * i % 65536 = 65536 - 1366 * i := by omega
  rw [frameSample_stretch src (by omega) hc, hq, hr, Nat.sub_add_cancel h1]

/-- Settles O10: the last frame stands at 1424 * 46 = 65536 - 32, which gives the bound. -/
theorem shrinkFrames : Obligations.ShrinkFrames := by
  intro ch src _
  refine ⟨?_, fun i c hi hc => frameSample_shrink src hi hc, fun c hc => ⟨?_, ?_⟩⟩
  · rw [shrink_length]
    omega
  · rw [frameSample_shrink src (by decide) hc, lerpSample_zero]
  · rw [frameSample_shrink src (by decide) hc]
    exact lerpSample_natAbs_sub_right_le _ _ (g := 32) (by decide)

/-- Settles O11: frame 48 and the last frame of shrink are the same interpolation. -/
theorem stretchFrames : Obligations.StretchFrames := by
  intro ch src _
  refine ⟨by rw [stretch_length]; omega, fun c hc => ?_⟩
  have hlast : frameSample ch.count (stretch ch.count src) 48 c =
      lerpSample (frameSample ch.count src 46 c) (frameSample ch.count src 47 c) 65504 :=
    frameSample_stretch src (by decide) hc
  refine ⟨?_, fun i h1 h47 => frameSample_stretch_inner src h1 h47 hc, hlast, ?_⟩
  · rw [frameSample_stretch src (by decide) hc, lerpSample_zero]
  · rw [hlast, frameSample_shrink src (by decide) hc]

/-! ## Codec-domain words -/

theorem c2s_toNat (x : Word) : (c2s x).toNat = x.toNat / 65536 := by
  rw [c2s, BitVec.extractLsb'_toNat, Nat.shiftRight_eq_div_pow]
  omega

/-- R125: the arithmetic shift of the word, sign and all. -/
theorem c2s_toInt (x : Word) : (c2s x).toInt = x.toInt / 65536 := by
  rw [BitVec.toInt_eq_toNat_cond, BitVec.toInt_eq_toNat_cond, c2s_toNat]
  split <;> split <;> omega

theorem s2c_toNat (v : Sample) : (s2c v).toNat = v.toNat * 65536 := by
  rw [s2c, BitVec.toNat_append, Nat.shiftLeft_eq]
  simp

theorem s2c_eq_ofNat (v : Sample) : s2c v = BitVec.ofNat 32 (v.toNat * 65536) := by
  rw [← s2c_toNat, BitVec.ofNat_toNat, BitVec.setWidth_eq]

theorem c2s_s2c (v : Sample) : c2s (s2c v) = v := BitVec.extractLsb'_append_eq_left

/-- R126: the round trip keeps the sample and clears the padding. -/
theorem s2c_c2s (x : Word) : s2c (c2s x) = x &&& 0xFFFF0000 := by
  have hx : x.extractLsb' 16 16 ++ x.extractLsb' 0 16 = x :=
    (BitVec.extractLsb'_append_extractLsb'_eq_extractLsb' rfl).trans BitVec.extractLsb'_eq_self
  have hmask : (0xFFFF0000 : Word) = BitVec.allOnes 16 ++ (0 : BitVec 16) := by decide
  calc s2c (c2s x) = x.extractLsb' 16 16 ++ (0 : BitVec 16) := rfl
    _ = (x.extractLsb' 16 16 ++ x.extractLsb' 0 16) &&& (BitVec.allOnes 16 ++ (0 : BitVec 16)) := by
      rw [BitVec.and_append, BitVec.and_allOnes, BitVec.ofNat_eq_ofNat, BitVec.and_zero]
    _ = x &&& 0xFFFF0000 := by rw [hx, hmask]

/-- Settles O15, from the two conversions and their round trips; the examples are evaluated. -/
theorem codecWordConversions : Obligations.CodecWordConversions :=
  ⟨fun x => ⟨c2s_toInt x, s2c_c2s x⟩, fun v => ⟨s2c_toNat v, c2s_s2c v⟩, by decide⟩

/-! ## The standalone commands -/

theorem exec_rsShrink16 {s : State} {p : List Sample} (h : inPayload s = .samples p)
    (hp : p.length = s.cfg.transfer) :
    exec .rsShrink16 s = .next (respond .ok 0 (.samples (shrink s.cfg.chans p)) s) :=
  withSamples_eq _ h hp

theorem exec_rsStretch16 {s : State} {p : List Sample} (h : inPayload s = .samples p)
    (hp : p.length = s.cfg.transfer) :
    exec .rsStretch16 s = .next (respond .ok 0 (.samples (stretch s.cfg.chans p)) s) :=
  withSamples_eq _ h hp

theorem exec_rsShrink32 {s : State} {p : List Word} (h : inPayload s = .words p)
    (hp : p.length = s.cfg.transfer) :
    exec .rsShrink32 s =
      .next (respond .ok 0 (.words ((shrink s.cfg.chans (p.map c2s)).map s2c)) s) :=
  withWords_eq _ h hp

theorem exec_rsStretch32 {s : State} {p : List Word} (h : inPayload s = .words p)
    (hp : p.length = s.cfg.transfer) :
    exec .rsStretch32 s =
      .next (respond .ok 0 (.words ((stretch s.cfg.chans (p.map c2s)).map s2c)) s) :=
  withWords_eq _ h hp

/-- Settles O17, by what each command answers to T samples. -/
theorem sixteenBitResamplerCommands : Obligations.SixteenBitResamplerCommands :=
  ⟨fun _ => ⟨rfl, rfl⟩, fun _ _ h hp => ⟨exec_rsShrink16 h hp, exec_rsStretch16 h hp⟩⟩

/-- Settles O18: the statement writes `c2s` and `s2c` out, as bits 31:16 and as a product. -/
theorem codecWordResamplerCommands : Obligations.CodecWordResamplerCommands := by
  refine ⟨fun _ => ⟨rfl, rfl⟩, fun s p h hp => ?_⟩
  have hs2c : (fun v : Sample => BitVec.ofNat 32 (v.toNat * 65536)) = s2c :=
    funext fun v => (s2c_eq_ofNat v).symm
  rw [hs2c]
  exact ⟨exec_rsShrink32 h hp, exec_rsStretch32 h hp⟩

end Sys2Proof.Proofs.Resampler

/-! The drift tracker (41_drift.md): CNT_ADJ, the three outcomes of `drift_frame()`, and what a USB_SOF
leaves of its registers. -/

namespace Sys2Proof.Proofs.Drift

open Sys2Proof Sys2Proof.Machine Sys2Proof.Laws

/-! ## Words of format AI -/

theorem wordAI_toNat (op a : BitVec 8) (imm : BitVec 16) :
    (wordAI op a imm).toNat = op.toNat * 2 ^ 24 + a.toNat * 2 ^ 16 + imm.toNat := by
  have ha := a.isLt
  have himm := imm.isLt
  rw [wordAI, BitVec.toNat_append, BitVec.toNat_append,
    ← Nat.shiftLeft_add_eq_or_of_lt ha, ← Nat.shiftLeft_add_eq_or_of_lt himm,
    Nat.shiftLeft_eq, Nat.shiftLeft_eq]
  omega

/-- A field of a word is its number divided and reduced (30_encoding.md R91). -/
theorem extractLsb'_eq_of_toNat {n : Nat} (w : Word) (start : Nat) (v : BitVec n)
    (h : w.toNat / 2 ^ start % 2 ^ n = v.toNat) : w.extractLsb' start n = v :=
  BitVec.eq_of_toNat_eq (by rw [BitVec.extractLsb'_toNat, Nat.shiftRight_eq_div_pow, h])

@[simp] theorem fieldOp_wordAI (op a : BitVec 8) (imm : BitVec 16) :
    fieldOp (wordAI op a imm) = op :=
  extractLsb'_eq_of_toNat _ _ _ (by rw [wordAI_toNat]; omega)

@[simp] theorem fieldA_wordAI (op a : BitVec 8) (imm : BitVec 16) :
    fieldA (wordAI op a imm) = a :=
  extractLsb'_eq_of_toNat _ _ _ (by rw [wordAI_toNat]; omega)

@[simp] theorem fieldImm16_wordAI (op a : BitVec 8) (imm : BitVec 16) :
    fieldImm16 (wordAI op a imm) = imm :=
  extractLsb'_eq_of_toNat _ _ _ (by rw [wordAI_toNat]; omega)

/-! ## CNT_ADJ -/

theorem encode_cntAdj (d : BitVec 16) :
    encode (.cntAdj d) = BitVec.ofNat 32 (0x03000000 + d.toNat) :=
  BitVec.eq_of_toNat_eq (by rw [encode, wordAI_toNat, BitVec.toNat_ofNat]; simp; omega)

theorem decode_encode_cntAdj (ch : Channels) (d : BitVec 16) :
    decode ch (encode (.cntAdj d)) = .command (.cntAdj d) := by
  have hfields : decodeFields (encode (.cntAdj d)) = .command (.cntAdj d) := by
    simp [decodeFields, encode]
  simp [decode, hfields, Instr.wf]

/-- R158: `sext_16` added modulo 2^32. -/
theorem wrapU32_add_toInt (x : Word) (d : BitVec 16) :
    wrapU32 ((x.toNat : Int) + d.toInt) = x + d.signExtend 32 := by
  rw [wrapU32, BitVec.ofInt_add, BitVec.ofInt_natCast, BitVec.ofNat_toNat, BitVec.setWidth_eq]
  rfl

theorem exec_cntAdj {s : State} (d : BitVec 16) (h : inPayload s = .none) :
    exec (.cntAdj d) s = .next
      (respond .ok 0 .none { s with cfsc := s.cfsc + d.signExtend 32 }) := by
  rw [exec, execCntAdj, withNone_eq _ h, wrapU32_add_toInt]

/-- Settles O22: the word is the encoder's, which the decoder reads back. -/
theorem countAdjustAddsSignedImmediate : Obligations.CountAdjustAddsSignedImmediate := by
  intro s d
  rw [← encode_cntAdj]
  exact ⟨decode_encode_cntAdj s.cfg.ch d, exec_cntAdj d⟩

/-! ## 16-bit wrapping as bit-vector arithmetic -/

theorem wrapI16_add (x y : BitVec 16) : wrapI16 (x.toInt + y.toInt) = x + y := by
  rw [wrapI16, BitVec.ofInt_add, BitVec.ofInt_toInt, BitVec.ofInt_toInt]

theorem wrapI16_add_nat (x : BitVec 16) (n : Nat) :
    wrapI16 (x.toInt + n) = x + BitVec.ofNat 16 n := by
  rw [wrapI16, BitVec.ofInt_add, BitVec.ofInt_toInt, BitVec.ofInt_natCast]

theorem wrapI16_sub_nat (x : BitVec 16) (n : Nat) :
    wrapI16 (x.toInt - n) = x - BitVec.ofNat 16 n := by
  rw [wrapI16, Int.sub_eq_add_neg, BitVec.ofInt_add, BitVec.ofInt_toInt, BitVec.ofInt_neg,
    BitVec.ofInt_natCast, BitVec.sub_eq_add_neg]

theorem wrapU16_succ (x : BitVec 16) : wrapU16 ((x.toNat : Int) + 1) = x + 1 := by
  rw [wrapU16, BitVec.ofInt_add, BitVec.ofInt_natCast, BitVec.ofNat_toNat, BitVec.setWidth_eq]
  rfl

/-! ## drift_frame() -/

/-- The window sum after this frame's difference (R151). -/
def windowSum (s : State) : BitVec 16 :=
  s.dwso + (s.cfsc.setWidth 16 - BitVec.ofNat 16 s.cfg.nominal)

theorem driftAccumulate_eq (s : State) :
    driftAccumulate s = { s with cfsc := 0, dwso := windowSum s } := by
  have hsum : (driftAccumulate s).dwso = windowSum s := driftAccumulate_dwso_eq s
  rw [← hsum]
  rfl

/-- Frames 1 to 99 of a window (R153). -/
theorem driftFrame_open {s : State} (h : s.wfc.val ≠ 99) :
    ∃ frames : Fin 100, frames.val = s.wfc.val + 1
      ∧ driftFrame s = { s with cfsc := 0, dwso := windowSum s, wfc := frames } := by
  rcases driftFrame_cases s with ⟨hlt, heq⟩ | ⟨h99, -⟩ | ⟨h99, -⟩
  · exact ⟨⟨_, hlt⟩, rfl, by rw [heq, driftAccumulate_eq]⟩
  · exact absurd h99 h
  · exact absurd h99 h

/-- The end of a clean window (R156, R157). -/
theorem driftFrame_clean {s : State} (h : s.wfc.val = 99) (hsum : windowSum s = 0) :
    driftFrame s = { s with cfsc := 0, dwso := 0, wfc := 0, dwOk := s.dwOk + 1 } := by
  have hacc := driftAccumulate_eq s
  rcases driftFrame_cases s with ⟨hlt, -⟩ | ⟨-, -, heq⟩ | ⟨-, hne, -⟩
  · omega
  · rw [heq, hacc, windowClean, wrapU16_succ]
  · exact absurd (by rw [hacc]; exact hsum) hne

/-- The end of a dirty window (R154, R157). -/
theorem driftFrame_dirty {s : State} (h : s.wfc.val = 99) (hsum : windowSum s ≠ 0) :
    driftFrame s = { s with
      cfsc := 0
      dwso := 0
      wfc := 0
      dwOk := 0
      sampleOffset := s.sampleOffset + windowSum s
      corrInterval := wrapU32 (intervalOf s.cfg (s.sampleOffset + windowSum s) s.dwOk) } := by
  have hacc := driftAccumulate_eq s
  rcases driftFrame_cases s with ⟨hlt, -⟩ | ⟨-, hz, -⟩ | ⟨-, -, heq⟩
  · omega
  · exact absurd (by rw [hacc] at hz; exact hz) hsum
  · rw [heq, hacc]
    simp only [windowDirty, wrapI16_add]

@[simp] theorem driftFrame_cfg (s : State) : (driftFrame s).cfg = s.cfg := by
  rw [driftFrame_frame]

@[simp] theorem driftFrame_state (s : State) : (driftFrame s).state = s.state := by
  rw [driftFrame_frame]

@[simp] theorem driftFrame_cfsc (s : State) : (driftFrame s).cfsc = 0 := by
  rw [driftFrame_frame]

theorem driftFrame_sampleOffset (s : State) :
    (driftFrame s).sampleOffset =
      if s.wfc.val = 99 ∧ windowSum s ≠ 0 then s.sampleOffset + windowSum s
      else s.sampleOffset := by
  by_cases hlast : s.wfc.val = 99
  · by_cases hsum : windowSum s = 0
    · simp [driftFrame_clean hlast hsum, hsum]
    · rw [driftFrame_dirty hlast hsum, if_pos ⟨hlast, hsum⟩]
  · obtain ⟨frames, -, hopen⟩ := driftFrame_open hlast
    simp [hopen, hlast]

/-- The guard of R155 and the clamp of R154 as maxima, the doubling as a factor. -/
theorem intervalOf_eq (p : Params) (offset dwOk : BitVec 16) :
    intervalOf p offset dwOk = max p.minInterval ((if p.ch = .four then 2 else 1)
      * (100 * (dwOk.toNat + 1) / max 1 (offset.toInt.natAbs / 2))) := by
  have hguard : ∀ d : Nat, (if d = 0 then 1 else d) = max 1 d := fun d => by split <;> omega
  have hclamp : ∀ c : Nat, (if c < p.minInterval then p.minInterval else c) = max p.minInterval c :=
    fun c => by split <;> omega
  simp only [intervalOf, hguard, hclamp]
  split <;> simp

theorem wrapU32_intervalOf_toNat (p : Params) (offset dwOk : BitVec 16) :
    (wrapU32 (intervalOf p offset dwOk)).toNat = max p.minInterval ((if p.ch = .four then 2 else 1)
      * (100 * (dwOk.toNat + 1) / max 1 (offset.toInt.natAbs / 2))) := by
  rw [wrapU32_toNat_of_lt rfl (intervalOf_bounds p offset dwOk).2, intervalOf_eq]

/-! ## What the rest of a USB_SOF leaves of the tracker's registers -/

/-- Two states with the same drift window: the fields only the tracker writes during a USB_SOF. -/
structure SameWindow (s t : State) : Prop where
  cfsc : t.cfsc = s.cfsc
  dwso : t.dwso = s.dwso
  wfc : t.wfc = s.wfc
  dwOk : t.dwOk = s.dwOk
  corrInterval : t.corrInterval = s.corrInterval

/-- `sample_offset` moved on by a scheduled correction, by one frame, or left alone (R187). -/
def OffsetMoved (s t : State) : Prop :=
  t.sampleOffset = s.sampleOffset
    ∨ (0 < s.sampleOffset.toInt ∧ t.sampleOffset = s.sampleOffset - BitVec.ofNat 16 s.cfg.chans)
    ∨ (s.sampleOffset.toInt < 0 ∧ t.sampleOffset = s.sampleOffset + BitVec.ofNat 16 s.cfg.chans)

theorem schedule_window (s : State) : SameWindow s (schedule s) ∧ OffsetMoved s (schedule s) := by
  rcases schedule_cases s with ⟨-, h⟩ | ⟨-, -, hpos, h⟩ | ⟨-, -, hneg, h⟩ <;> rw [h]
  · exact ⟨⟨rfl, rfl, rfl, rfl, rfl⟩, .inl rfl⟩
  · exact ⟨⟨rfl, rfl, rfl, rfl, rfl⟩, .inr (.inl ⟨hpos, wrapI16_sub_nat _ _⟩)⟩
  · exact ⟨⟨rfl, rfl, rfl, rfl, rfl⟩, .inr (.inr ⟨hneg, wrapI16_add_nat _ _⟩)⟩

/-- A failed steady frame schedules nothing (R185). -/
theorem usbFailed_window (txOk rxOk : Bool) (s : State) :
    SameWindow s (usbFailed txOk rxOk s)
      ∧ (usbFailed txOk rxOk s).sampleOffset = s.sampleOffset := by
  unfold usbFailed
  rw [raiseIf_raiseIf_frame]
  split <;> exact ⟨⟨rfl, rfl, rfl, rfl, rfl⟩, rfl⟩

theorem usbPriming_window (rxf : List Sample) (s : State) :
    SameWindow s (usbPriming rxf s).1 ∧ (usbPriming rxf s).1.sampleOffset = s.sampleOffset := by
  unfold usbPriming
  split
  · exact ⟨⟨rfl, rfl, rfl, rfl, rfl⟩, rfl⟩
  · rcases primingExit_cases { s with rx := rbWrite s.cfg.cap s.rx rxf } with
      ⟨-, h⟩ | ⟨-, -, h⟩ <;> rw [h] <;> exact ⟨⟨rfl, rfl, rfl, rfl, rfl⟩, rfl⟩

theorem usbSteady_window (rxf : List Sample) (s : State) :
    SameWindow s (usbSteady rxf s).1 ∧ OffsetMoved s (usbSteady rxf s).1 := by
  rcases usbSteady_cases rxf s with ⟨-, -, h⟩ | ⟨txOk, rxOk, -, -, -, h⟩ <;> rw [h]
  · obtain ⟨⟨hcfsc, hdwso, hwfc, hdwOk, hint⟩, hoff⟩ := schedule_window (leaveCorrection { s with
      tx := rbAdvance s.cfg.cap s.tx s.cfg.transfer
      rx := rbWrite s.cfg.cap s.rx rxf })
    exact ⟨⟨hcfsc, hdwso, hwfc, hdwOk, hint⟩, hoff⟩
  · obtain ⟨hwindow, hoff⟩ := usbFailed_window txOk rxOk s
    exact ⟨hwindow, .inl hoff⟩

/-- After the tracker a USB_SOF writes none of its registers but `sample_offset`, and that one only in a
steady state. -/
theorem usbExchange_window (rxf : List Sample) (s : State) :
    SameWindow s (usbExchange rxf s).1
      ∧ (isSteady s.state = false → (usbExchange rxf s).1.sampleOffset = s.sampleOffset)
      ∧ OffsetMoved s (usbExchange rxf s).1 := by
  rcases usbExchange_cases rxf s with ⟨-, h⟩ | ⟨-, -, h⟩ | ⟨-, ⟨-, h⟩ | ⟨hsteady, h⟩⟩ <;> rw [h]
  · exact ⟨⟨rfl, rfl, rfl, rfl, rfl⟩, fun _ => rfl, .inl rfl⟩
  · exact ⟨⟨rfl, rfl, rfl, rfl, rfl⟩, fun _ => rfl, .inl rfl⟩
  · obtain ⟨hwindow, hoff⟩ := usbPriming_window rxf s
    exact ⟨hwindow, fun _ => hoff, .inl hoff⟩
  · obtain ⟨hwindow, hmoved⟩ := usbSteady_window rxf s
    exact ⟨hwindow, fun hn => absurd hsteady (by simp [hn]), hmoved⟩

/-! ## The whole frame -/

/-- Settles O23: the tracker by the three outcomes of a frame, then what the exchange leaves of it. -/
theorem driftTrackerRunsEveryFrame : Obligations.DriftTrackerRunsEveryFrame := by
  intro s sum last dirty offset ch
  refine ⟨?tracker, fun rxb hp hl => ⟨_, exec_usbSof hp hl, ?_⟩⟩
  case tracker =>
    by_cases hlast : last
    · by_cases hsum : sum = 0
      · have hclean : ¬dirty := fun h => h.2 hsum
        refine ⟨0, s.corrInterval, ?_, by simp [hlast], fun _ => rfl, fun h => absurd h hclean⟩
        simp only [offset, hlast, hclean, if_true, if_false]
        exact driftFrame_clean hlast hsum
      · have hdirty : dirty := ⟨hlast, hsum⟩
        have hoffset : offset = s.sampleOffset + sum := if_pos hdirty
        refine ⟨0, wrapU32 (intervalOf s.cfg offset s.dwOk), ?_, by simp [hlast],
          fun h => absurd hdirty h, fun _ => wrapU32_intervalOf_toNat _ _ _⟩
        simp only [hoffset, hlast, hdirty, if_true]
        exact driftFrame_dirty hlast hsum
    · have hclean : ¬dirty := fun h => hlast h.1
      obtain ⟨frames, hframes, hopen⟩ := driftFrame_open hlast
      refine ⟨frames, s.corrInterval, ?_, by simp [hlast, hframes], fun _ => rfl,
        fun h => absurd h hclean⟩
      simp only [offset, hlast, hclean, if_false]
      exact hopen
  have hoffset : (driftFrame s).sampleOffset = offset := driftFrame_sampleOffset s
  obtain ⟨hwindow, hpriming, hmoved⟩ := usbExchange_window (samplesOfBytes rxb) (driftFrame s)
  rw [OffsetMoved, hoffset, driftFrame_cfg] at hmoved
  rw [hoffset, driftFrame_state] at hpriming
  exact ⟨hwindow.cfsc.trans (driftFrame_cfsc s), hwindow.dwso, hwindow.wfc, hwindow.dwOk,
    hwindow.corrInterval, hpriming, fun _ => hmoved⟩

end Sys2Proof.Proofs.Drift

/-! The transport (42_transport.md R172 to R187): what CODEC_XCHG and USB_SOF do in NeedsReset, in a
priming state and in a steady state, whole next states. -/

namespace Sys2Proof.Proofs.Transport

open Sys2Proof Sys2Proof.Machine Sys2Proof.Laws Sys2Proof.Proofs.Drift

/-! ## Counters and flags -/

theorem wrapU32_add_nat (x : Word) (n : Nat) :
    wrapU32 ((x.toNat : Int) + n) = x + BitVec.ofNat 32 n := by
  rw [wrapU32, BitVec.ofInt_add, BitVec.ofInt_natCast, BitVec.ofInt_natCast, BitVec.ofNat_toNat,
    BitVec.setWidth_eq]

theorem wrapU32_succ (x : Word) : wrapU32 ((x.toNat : Int) + 1) = x + 1 := wrapU32_add_nat x 1

theorem countBlock_eq (s : State) :
    countBlock s = { s with cfsc := s.cfsc + BitVec.ofNat 32 s.cfg.blockLen } := by
  rw [countBlock, wrapU32_add_nat]

theorem raise_overflow (s : State) :
    raise .overflow s = { s with
      flags := s.flags ||| 0b0010
      ovfCount := s.ovfCount + 1
      state := .needsReset } := by
  simp only [raise, wrapU32_succ]
  rfl

theorem raise_underflow (s : State) :
    raise .underflow s = { s with
      flags := s.flags ||| 0b0100
      unfCount := s.unfCount + 1
      state := .needsReset } := by
  simp only [raise, wrapU32_succ]
  rfl

section

variable {ovf unf : Bool} {o u : Prop} [Decidable o] [Decidable u]

theorem raiseIf_overflow (ho : ovf = true ↔ o) (s : State) :
    raiseIf ovf .overflow s = { s with
      flags := s.flags ||| flagIf o 0b0010
      ovfCount := s.ovfCount + oneIf o
      state := if o then .needsReset else s.state } := by
  cases ovf <;> simp [raiseIf, raise_overflow, flagIf, oneIf, ← ho]

theorem raiseIf_underflow (hu : unf = true ↔ u) (s : State) :
    raiseIf unf .underflow s = { s with
      flags := s.flags ||| flagIf u 0b0100
      unfCount := s.unfCount + oneIf u
      state := if u then .needsReset else s.state } := by
  cases unf <;> simp [raiseIf, raise_underflow, flagIf, oneIf, ← hu]

/-- Overflow, then Underflow: the order of a codec block (R179). -/
theorem raiseIf_underflow_overflow (ho : ovf = true ↔ o) (hu : unf = true ↔ u) (h : o ∨ u)
    (s : State) :
    raiseIf unf .underflow (raiseIf ovf .overflow s) = { s with
      flags := s.flags ||| flagIf o 0b0010 ||| flagIf u 0b0100
      ovfCount := s.ovfCount + oneIf o
      unfCount := s.unfCount + oneIf u
      state := .needsReset } := by
  rw [raiseIf_underflow hu, raiseIf_overflow ho]
  rcases h with h | h <;> simp [h]

/-- Underflow, then Overflow: the order of a USB frame (R185). -/
theorem raiseIf_overflow_underflow (ho : ovf = true ↔ o) (hu : unf = true ↔ u) (h : u ∨ o)
    (s : State) :
    raiseIf ovf .overflow (raiseIf unf .underflow s) = { s with
      flags := s.flags ||| flagIf u 0b0100 ||| flagIf o 0b0010
      ovfCount := s.ovfCount + oneIf o
      unfCount := s.unfCount + oneIf u
      state := .needsReset } := by
  rw [raiseIf_overflow ho, raiseIf_underflow hu]
  rcases h with h | h <;> simp [h]

end

/-! ## What `drift_frame()` leaves to the exchange -/

@[simp] theorem driftFrame_tx (s : State) : (driftFrame s).tx = s.tx := by rw [driftFrame_frame]

@[simp] theorem driftFrame_rx (s : State) : (driftFrame s).rx = s.rx := by rw [driftFrame_frame]

@[simp] theorem driftFrame_corrCounter (s : State) :
    (driftFrame s).corrCounter = s.corrCounter := by
  rw [driftFrame_frame]

@[simp] theorem driftFrame_corrPending (s : State) :
    (driftFrame s).corrPending = s.corrPending := by
  rw [driftFrame_frame]

@[simp] theorem driftFrame_bphase (s : State) : (driftFrame s).bphase = s.bphase := by
  rw [driftFrame_frame]

@[simp] theorem driftFrame_batchMode (s : State) : (driftFrame s).batchMode = s.batchMode := by
  rw [driftFrame_frame]

@[simp] theorem driftFrame_flags (s : State) : (driftFrame s).flags = s.flags := by
  rw [driftFrame_frame]

@[simp] theorem driftFrame_ovfCount (s : State) : (driftFrame s).ovfCount = s.ovfCount := by
  rw [driftFrame_frame]

@[simp] theorem driftFrame_unfCount (s : State) : (driftFrame s).unfCount = s.unfCount := by
  rw [driftFrame_frame]

/-! ## An exchange and its answer -/

theorem exec_codecXchg_of {s t : State} {d2h out : List Word} (hp : inPayload s = .words d2h)
    (hl : d2h.length = s.cfg.blockLen) (h : codecExchange d2h (countBlock s) = (t, out)) :
    exec .codecXchg s = .next { t with reply := codecReply out } := by
  rw [exec_codecXchg hp hl, h]
  rfl

theorem exec_usbSof_of {s t : State} {rxb : List Byte} {out : List Sample}
    (hp : inPayload s = .bytes rxb) (hl : rxb.length = 2 * s.cfg.transfer)
    (h : usbExchange (samplesOfBytes rxb) (driftFrame s) = (t, out)) :
    exec .usbSof s = .next { t with reply := okReply 0 (.bytes (bytesOfSamples out)) } := by
  rw [exec_usbSof hp hl, h]
  rfl

theorem exec_usbSof_silent {s t : State} {rxb : List Byte} (hp : inPayload s = .bytes rxb)
    (hl : rxb.length = 2 * s.cfg.transfer)
    (h : usbExchange (samplesOfBytes rxb) (driftFrame s)
      = (t, silence (driftFrame s).cfg.transfer)) :
    exec .usbSof s = .next { t with
      reply := okReply 0 (.bytes (List.replicate (2 * s.cfg.transfer) 0)) } := by
  rw [exec_usbSof_of hp hl h, bytesOfSamples_silence, driftFrame_cfg]

/-! ## NeedsReset -/

/-- Settles O25: `transport_reinit()` on the state after the `cfsc` update. -/
theorem needsResetIsLeftByReinitialising : Obligations.NeedsResetIsLeftByReinitialising := by
  intro s d2h hp hl hs
  rw [exec_codecXchg_of hp hl (codecExchange_needsReset hs), countBlock_eq]
  rfl

/-- Settles O32: the exchange leaves the state as the tracker left it. -/
theorem usbFrameInNeedsResetIsDiscarded : Obligations.UsbFrameInNeedsResetIsDiscarded := by
  intro s rxb hp hl hs
  exact exec_usbSof_silent hp hl (usbExchange_needsReset (by rwa [driftFrame_state]))

/-! ## The priming states -/

theorem stored_nil {cap : Nat} {r : Ring} (h : r.wr.toNat < cap) : Stored cap r r [] :=
  ⟨rfl, (Nat.mod_eq_of_lt h).symm, rfl, fun _ hk => absurd hk (Nat.not_lt_zero _), fun _ _ => rfl⟩

/-- Going back `n` from an address is going on to `cap - n` (20_memory.md R61). -/
theorem wrapAddr_sub {cap a n : Nat} (h : n ≤ a + cap) :
    wrapAddr cap ((a : Int) - n) = (a + cap - n) % cap := by
  rw [← wrapAddr_natCast, wrapAddr, wrapAddr, Int.natCast_sub h, Int.natCast_add,
    show (a : Int) + cap - n = a - n + cap by omega, Int.add_emod_right]

/-- R175: what is stored fits below NORMAL_SIZE, and with TX full nothing is stored. -/
theorem codecPriming_stored {s : State} (htx : RingOk s.cfg s.tx) (smp : List Sample) :
    ∃ tx', codecPriming smp s = ({ s with tx := tx' }, silentWords s.cfg.blockLen)
      ∧ Stored s.cfg.cap s.tx tx'
          (smp.take (min s.cfg.blockLen (s.cfg.normalSize - s.tx.used.toNat))) := by
  have hused := htx.used_le
  have hsize := normalSize_le_cap s.cfg
  simp only [codecPriming]
  by_cases hn : 0 < min s.cfg.blockLen (s.cfg.normalSize - s.tx.used.toNat)
  · refine ⟨_, by rw [if_pos hn], rbWrite_stored (cap_pos _) (cap_lt_pow _) htx.buf_wf ?_⟩
    rw [List.length_take]
    omega
  · refine ⟨s.tx, by rw [if_neg hn], ?_⟩
    rw [Nat.eq_zero_of_not_pos hn]
    exact stored_nil htx.wr_lt

/-- Settles O27: the priming block of R175 on the state after the `cfsc` update. -/
theorem primingBlockFillsTx : Obligations.PrimingBlockFillsTx := by
  intro s d2h hp hl hs htx hrx
  obtain ⟨tx', heq, hstored⟩ := codecPriming_stored (s := countBlock s) htx (d2h.map c2s)
  have hexchange : codecExchange d2h (countBlock s) = codecPriming (d2h.map c2s) (countBlock s) :=
    codecExchange_priming hs (by simp [htx.cursors, hrx.cursors])
  refine ⟨tx', ?_, hstored⟩
  rw [exec_codecXchg_of hp hl (hexchange.trans heq), countBlock_eq]
  rfl

/-- RX clamped to its newest `2 T` samples (R183). -/
def clampRing (p : Params) (r : Ring) : Ring :=
  { r with
    rd := wrapU32 (wrapAddr p.cap ((r.wr.toNat : Int) - 2 * p.transfer))
    used := wrapU32 (2 * p.transfer) }

theorem clampRing_rd (p : Params) (r : Ring) :
    (clampRing p r).rd.toNat = (r.wr.toNat + p.cap - 2 * p.transfer) % p.cap := by
  have hcap := cap_ge_transfers p
  have hlt := cap_lt_pow p
  have haddr := wrapAddr_sub (show 2 * p.transfer ≤ r.wr.toNat + p.cap by omega)
  have hmod := Nat.mod_lt (r.wr.toNat + p.cap - 2 * p.transfer) (cap_pos p)
  push_cast at haddr
  exact wrapU32_toNat_of_lt (by rw [haddr]) (by omega)

theorem clampRing_used (p : Params) (r : Ring) : (clampRing p r).used.toNat = 2 * p.transfer := by
  have hcap := cap_ge_transfers p
  have hlt := cap_lt_pow p
  exact wrapU32_toNat_of_lt (by push_cast; rfl) (by omega)

/-- R182 without room. -/
theorem usbPriming_overflow {s : State} {rxf : List Sample}
    (h : s.cfg.cap < s.rx.used.toNat + s.cfg.transfer) :
    usbPriming rxf s = (raise .overflow s, silence s.cfg.transfer) := by
  rw [usbPriming, if_pos h]

/-- R182 and R183 with room: the frame is stored, and then priming ends or goes on. -/
theorem usbPriming_room {s : State} {rxf : List Sample} (hlen : rxf.length = s.cfg.transfer)
    (hroom : s.rx.used.toNat + s.cfg.transfer ≤ s.cfg.cap) :
    let exits := s.tx.used.toNat = s.cfg.normalSize
      ∧ 2 * s.cfg.transfer ≤ s.rx.used.toNat + s.cfg.transfer
    let rx1 := rbWrite s.cfg.cap s.rx rxf
    (¬exits → usbPriming rxf s = ({ s with rx := rx1 }, silence s.cfg.transfer))
      ∧ (exits → usbPriming rxf s
        = ({ s with rx := clampRing s.cfg rx1, state := .normal }, silence s.cfg.transfer)) := by
  intro exits rx1
  have hlt := cap_lt_pow s.cfg
  have hused : rx1.used.toNat = s.rx.used.toNat + s.cfg.transfer := by
    rw [← hlen]
    exact rbWrite_used _ _ _ (by omega)
  rw [usbPriming, if_neg (Nat.not_lt.2 hroom)]
  rcases primingExit_cases { s with rx := rx1 } with ⟨hno, heq⟩ | ⟨hfull, htwo, heq⟩ <;> rw [heq]
  · rw [hused] at hno
    exact ⟨fun _ => rfl, fun hyes => absurd hyes hno⟩
  · rw [hused] at htwo
    exact ⟨fun hno => absurd ⟨hfull, htwo⟩ hno, fun _ => rfl⟩

/-- Settles O33: an overflow, a stored frame, or a stored frame that ends priming. -/
theorem primingFrameFillsRx : Obligations.PrimingFrameFillsRx := by
  intro s rxb hp hl hs htx hrx t silentFrame
  have hlen : (samplesOfBytes rxb).length = t := samplesOfBytes_length hl
  have hexchange : usbExchange (samplesOfBytes rxb) (driftFrame s)
      = usbPriming (samplesOfBytes rxb) (driftFrame s) :=
    usbExchange_priming (by rwa [driftFrame_state]) (by simp [htx.cursors, hrx.cursors])
  refine ⟨fun hfull => ?full, fun hroom => ⟨rbWrite s.cfg.cap s.rx (samplesOfBytes rxb),
    rbWrite_stored (cap_pos _) (cap_lt_pow _) hrx.buf_wf (by rwa [hlen]), ?_⟩⟩
  case full =>
    rw [exec_usbSof_silent hp hl (hexchange.trans (usbPriming_overflow (by simpa using hfull))),
      raise_overflow]
    simp [silentFrame, t]
  obtain ⟨hstay, hexit⟩ := usbPriming_room (s := driftFrame s) (by simpa using hlen)
    (by simpa using hroom)
  refine ⟨fun hno => ?stays, fun hyes => ⟨clampRing s.cfg _, ?exits, rfl, rfl, clampRing_rd _ _,
    clampRing_used _ _⟩⟩
  case stays =>
    rw [exec_usbSof_silent hp hl (hexchange.trans (hstay (by simpa using hno)))]
    simp [silentFrame, t]
  case exits =>
    rw [exec_usbSof_silent hp hl (hexchange.trans (hexit (by simpa using hyes)))]
    simp [silentFrame, t]

/-! ## Steady USB frames -/

/-- R186, in a steady state: one that is not Normal is a correction state. -/
theorem leaveCorrection_steady {s : State} (h : isSteady s.state = true) :
    leaveCorrection s = { s with
      state := if s.corrPending = false then .normal else s.state
      corrCounter := s.corrCounter + 1 } := by
  have hstate : (leaveCorrection s).state = if s.corrPending = false then .normal else s.state := by
    rw [leaveCorrection_state]
    cases hx : s.state <;> simp_all [isSteady]
  rw [← hstate, ← wrapU32_succ]
  rfl

/-- R187, as one update, for any form `fires` of its condition. -/
theorem schedule_eq {s : State} {fires : Prop} [Decidable fires]
    (hfires : fires ↔
      s.state = .normal ∧ s.sampleOffset ≠ 0 ∧ s.corrInterval.toNat ≤ s.corrCounter.toNat) :
    schedule s = { s with
      state := if fires then (if 0 < s.sampleOffset.toInt then .codecRemove else .codecDuplicate)
        else s.state
      corrCounter := if fires then 0 else s.corrCounter
      corrPending := if fires then true else s.corrPending
      sampleOffset := if fires then
          (if 0 < s.sampleOffset.toInt then s.sampleOffset - BitVec.ofNat 16 s.cfg.chans
            else s.sampleOffset + BitVec.ofNat 16 s.cfg.chans)
        else s.sampleOffset } := by
  simp only [schedule, ← hfires, wrapI16_sub_nat, wrapI16_add_nat]
  by_cases h : fires
  · by_cases hpos : 0 < s.sampleOffset.toInt <;> simp [h, hpos]
  · simp [h]

/-- Settles O34: the transfer, then the two state updates of R186 and R187. -/
theorem steadyFrameTransfersBothWays : Obligations.SteadyFrameTransfersBothWays := by
  intro s rxb hp hl hs htx hrx hframe hroom d state counter fires ch
  have hexchange : usbExchange (samplesOfBytes rxb) d = usbSteady (samplesOfBytes rxb) d :=
    usbExchange_steady (by rwa [driftFrame_state]) (by simp [d, htx.cursors, hrx.cursors])
  refine ⟨rbAdvance s.cfg.cap s.tx s.cfg.transfer, rbWrite s.cfg.cap s.rx (samplesOfBytes rxb), ?_,
    rbAdvance_consumed (cap_pos _) (cap_lt_pow _) hframe,
    rbWrite_stored (cap_pos _) (cap_lt_pow _) hrx.buf_wf (by rwa [samplesOfBytes_length hl])⟩
  rcases usbSteady_cases (samplesOfBytes rxb) d with
    ⟨-, -, h⟩ | ⟨txOk, rxOk, htxOk, hrxOk, hfail, -⟩
  · rw [exec_usbSof_of hp hl (hexchange.trans h),
      leaveCorrection_steady (by rwa [driftFrame_state]),
      schedule_eq (fires := fires) (by simp [fires, d, counter, state]), rbPeek_eq_oldest]
    simp [d, state, counter, ch]
  · simp only [d, driftFrame_cfg, driftFrame_tx, driftFrame_rx] at htxOk hrxOk
    simp [htxOk.2 hframe, hrxOk.2 hroom] at hfail

/-- R185, as one update. -/
theorem usbFailed_eq {txOk rxOk : Bool} {unf ovf : Prop} [Decidable unf] [Decidable ovf]
    (hunf : txOk = false ↔ unf) (hovf : rxOk = false ↔ ovf) (hfail : unf ∨ ovf) (s : State) :
    let refill := s.cfg.underflowRefill = true ∧ unf ∧ ¬ovf
    usbFailed txOk rxOk s = { s with
      flags := s.flags ||| flagIf unf 0b0100 ||| flagIf ovf 0b0010
      ovfCount := s.ovfCount + oneIf ovf
      unfCount := s.unfCount + oneIf unf
      state := if refill then .fillingUnderflow else .needsReset
      corrPending := if refill then false else s.corrPending
      bphase := if refill then 0 else s.bphase
      batchMode := if refill then .none else s.batchMode } := by
  intro refill
  have hrefill : (s.cfg.underflowRefill && !txOk && rxOk) = true ↔ refill := by
    simp [refill, ← hunf, ← hovf, and_assoc]
  unfold usbFailed
  rw [raiseIf_overflow_underflow (by simpa using hovf) (by simpa using hunf) hfail]
  by_cases h : refill
  · simp only [hrefill, h, if_true]
  · simp only [hrefill, h, if_false]

/-- Settles O35: `usbFailed` on the state after the tracker, which leaves both rings alone. -/
theorem failedFrameRaisesOrRefills : Obligations.FailedFrameRaisesOrRefills := by
  intro s rxb hp hl hs htx hrx unf ovf refill hfail
  have hexchange : usbExchange (samplesOfBytes rxb) (driftFrame s)
      = usbSteady (samplesOfBytes rxb) (driftFrame s) :=
    usbExchange_steady (by rwa [driftFrame_state]) (by simp [htx, hrx])
  rcases usbSteady_cases (samplesOfBytes rxb) (driftFrame s) with
    ⟨htxOk, hrxOk, -⟩ | ⟨txOk, rxOk, htxOk, hrxOk, -, h⟩ <;>
    simp only [driftFrame_cfg, driftFrame_tx, driftFrame_rx] at htxOk hrxOk
  · omega
  · have hunf : txOk = false ↔ unf := by rw [← Bool.not_eq_true, htxOk, Nat.not_le]
    have hovf : rxOk = false ↔ ovf := by rw [← Bool.not_eq_true, hrxOk, Nat.not_le]
    rw [exec_usbSof_silent hp hl (hexchange.trans h), usbFailed_eq hunf hovf hfail]
    simp [refill]

/-! ## The resampled exchange -/

/-- Settles O31: the model's two checks are the conditions the statement names. -/
theorem resampledBlockFailsWhole : Obligations.ResampledBlockFailsWhole := by
  intro s d2h hp hl hs hr htx hrx ovf unf hovf hunf hfail
  have hexchange : codecExchange d2h (countBlock s) = codecResampled (d2h.map c2s) (countBlock s) :=
    codecExchange_resampled hs (by simp [htx, hrx]) hr
  have ho : resampledOvf (countBlock s) = true ↔ ovf = true := (resampledOvf_iff _).trans hovf.symm
  have hu : resampledUnf (countBlock s) = true ↔ unf = true := (resampledUnf_iff _).trans hunf.symm
  rcases codecResampled_cases (d2h.map c2s) (countBlock s) with ⟨hno, hnu, -⟩ | ⟨-, h⟩
  · rw [← ho, ← hu, hno, hnu] at hfail
    simp at hfail
  · rw [exec_codecXchg_of hp hl (hexchange.trans h), raiseIf_underflow_overflow ho hu hfail,
      countBlock_eq]
    rfl

/-- RX as a block of a batch reads it: corrected in place at a batch start (R177). -/
def batchRx (s : State) : Ring :=
  if s.bphase.val = 0 then rxCorrect s.cfg (pendingMode s) s.rx else s.rx

theorem batchRx_of_not_starts {s : State} (h : ¬startsCorrection s) : batchRx s = s.rx := by
  by_cases h0 : s.bphase.val = 0
  · have hnone : pendingMode s = .none := not_not.1 fun hm => h ⟨h0, hm⟩
    rw [batchRx, if_pos h0, hnone, rxCorrect]
  · rw [batchRx, if_neg h0]

theorem batchRx_remove {s : State} (hrx : RingOk s.cfg s.rx) (hovf : ¬BlockOverflows s)
    (h0 : s.bphase.val = 0) (hm : pendingMode s = .remove) :
    Corrected s.cfg.cap s.rx (batchRx s) ((s.rx.rd.toNat + s.cfg.cap - s.cfg.chans) % s.cfg.cap)
      (s.rx.used.toNat + s.cfg.chans)
      (stretch s.cfg.chans (oldest s.cfg.cap s.rx s.cfg.transfer)) := by
  have hroom : s.rx.used.toNat + s.cfg.chans ≤ s.cfg.cap :=
    Nat.not_lt.1 fun hlt => hovf (.inl ⟨h0, hm, hlt⟩)
  rw [batchRx, if_pos h0, hm, ← wrapAddr_sub (by omega)]
  exact rxCorrect_remove hrx.buf_wf hroom

theorem batchRx_duplicate {s : State} (hrx : RingOk s.cfg s.rx) (hunf : ¬BlockUnderflows s)
    (h0 : s.bphase.val = 0) (hm : pendingMode s = .duplicate) :
    Corrected s.cfg.cap s.rx (batchRx s) ((s.rx.rd.toNat + s.cfg.chans) % s.cfg.cap)
      (s.rx.used.toNat - s.cfg.chans)
      (shrink s.cfg.chans (oldest s.cfg.cap s.rx s.cfg.transfer)) := by
  have henough : s.cfg.blockLen + s.cfg.chans ≤ s.rx.used.toNat :=
    Nat.not_lt.1 fun hlt => hunf (.inr (.inr (.inl ⟨h0, hm, hlt⟩)))
  rw [batchRx, if_pos h0, hm]
  exact rxCorrect_duplicate hrx.buf_wf (by omega)

/-- R179: after the in-place correction a block is there to read. -/
theorem batchRx_used {s : State} (hrx : RingOk s.cfg s.rx) (hovf : ¬BlockOverflows s)
    (hunf : ¬BlockUnderflows s) : s.cfg.blockLen ≤ (batchRx s).used.toNat := by
  by_cases hstart : startsCorrection s
  · obtain ⟨h0, hne⟩ := hstart
    have henough : s.cfg.transfer ≤ s.rx.used.toNat :=
      Nat.not_lt.1 fun hlt => hunf (.inl ⟨⟨h0, hne⟩, hlt⟩)
    have hblocks := transfer_eq_blocks s.cfg
    have hframe := blockLen_eq s.cfg
    cases hm : pendingMode s with
    | none => exact absurd hm hne
    | remove =>
      obtain ⟨-, -, hused, -⟩ := batchRx_remove hrx hovf h0 hm
      omega
    | duplicate =>
      obtain ⟨-, -, hused, -⟩ := batchRx_duplicate hrx hunf h0 hm
      omega
  · rw [batchRx_of_not_starts hstart]
    exact Nat.not_lt.1 fun hlt => hunf (.inr (.inr (.inr ⟨hstart, hlt⟩)))

/-- TX after a block of a batch (R178): the batch is written at its end. -/
def batchTx (smp : List Sample) (s : State) : Ring :=
  if s.bphase.val = 2 then
    rbWrite s.cfg.cap s.tx
      (batchOutput s.cfg (blockMode s) (putBlock s.cfg.blockLen s.bphase.val s.bb smp))
  else s.tx

theorem batchTx_stored {s : State} {smp : List Sample} (htx : RingOk s.cfg s.tx)
    (hbb : s.bb.length = s.cfg.transfer) (hsmp : smp.length = s.cfg.blockLen)
    (hovf : ¬BlockOverflows s) (h2 : s.bphase.val = 2) :
    Stored s.cfg.cap s.tx (batchTx smp s)
      (batchOutput s.cfg (blockMode s) (putBlock s.cfg.blockLen s.bphase.val s.bb smp)) := by
  have hroom : s.tx.used.toNat + batchLength s ≤ s.cfg.cap :=
    Nat.not_lt.1 fun hlt => hovf (.inr ⟨h2, hlt⟩)
  rw [batchTx, if_pos h2]
  refine rbWrite_stored (cap_pos _) (cap_lt_pow _) htx.buf_wf ?_
  rwa [batchOutput_length _ _ (putBlock_length s.bphase.isLt hbb hsmp), correctedLen_batch]

/-- The phase of a batch goes 0, 1, 2, 0 (R178). -/
theorem phase_succ (b : Fin 3) : b + 1 = if b.val = 0 then 1 else if b.val = 1 then 2 else 0 := by
  revert b
  decide

/-- R177 and R178, as one update: the batch start and the block. -/
theorem batchBlock_batchStart (smp : List Sample) (s : State) :
    batchBlock smp (batchStart s) = ({ s with
      tx := batchTx smp s
      rx := rbAdvance s.cfg.cap (batchRx s) s.cfg.blockLen
      corrPending := if s.bphase.val = 0 then false else s.corrPending
      bphase := if s.bphase.val = 0 then 1 else if s.bphase.val = 1 then 2 else 0
      batchMode := if s.bphase.val = 2 then .none else blockMode s
      bb := putBlock s.cfg.blockLen s.bphase.val s.bb smp },
      (oldest s.cfg.cap (batchRx s) s.cfg.blockLen).map s2c) := by
  have h0 : s.bphase = 0 ↔ s.bphase.val = 0 := Fin.ext_iff
  have h2 : s.bphase = 2 ↔ s.bphase.val = 2 := Fin.ext_iff
  have hrx : (if s.bphase.val = 0 then rxCorrect s.cfg (blockMode s) s.rx else s.rx)
      = batchRx s := by
    unfold batchRx blockMode
    split <;> rfl
  rw [batchStart_eq, batchBlock_eq, currentBatchMode_eq_blockMode, rbPeek_eq_oldest, phase_succ]
  simp only [h0, h2, hrx, batchTx]

/-- Settles O30: batch start and block as one update, with RX and TX described one by one. -/
theorem resampledBlockRunsTheBatch : Obligations.ResampledBlockRunsTheBatch := by
  intro s d2h hp hl hs hr htx hrx hbb hovf hunf n ch phase bb'
  have hexchange : codecExchange d2h (countBlock s) = codecResampled (d2h.map c2s) (countBlock s) :=
    codecExchange_resampled hs (by simp [htx.cursors, hrx.cursors]) hr
  refine ⟨batchTx (d2h.map c2s) s, batchRx s, rbAdvance s.cfg.cap (batchRx s) n, ?next,
    batchRx_of_not_starts, batchRx_remove hrx hovf, batchRx_duplicate hrx hunf,
    rbAdvance_consumed (cap_pos _) (cap_lt_pow _) (batchRx_used hrx hovf hunf),
    fun h => if_neg h, fun h => batchTx_stored htx hbb (by simpa using hl) hovf h⟩
  rcases codecResampled_cases (d2h.map c2s) (countBlock s) with ⟨-, -, h⟩ | ⟨hfail, -⟩
  · rw [exec_codecXchg_of hp hl (hexchange.trans (h.trans (batchBlock_batchStart _ _))),
      countBlock_eq]
    rfl
  · rw [Bool.or_eq_true, resampledOvf_iff, resampledUnf_iff] at hfail
    exact absurd hfail (not_or.2 ⟨hovf, hunf⟩)

end Sys2Proof.Proofs.Transport

/-! The control and status commands (43_control_status.md): what each command's word decodes to, and its
whole next state when it is presented without a payload. -/

namespace Sys2Proof.Proofs.Control

open Sys2Proof Sys2Proof.Machine Sys2Proof.Laws

/-! ## Words -/

/-- The decode order of R97: fields first, then the operand ranges. -/
theorem decode_of_fields {ch : Channels} {w : Word} {i : Instr}
    (hfields : decodeFields w = .command i) (hwf : i.wf ch = true) : decode ch w = .command i := by
  simp only [decode, hfields, hwf, if_true]

@[simp] theorem fieldOp_wordI24 (op : BitVec 8) (imm : BitVec 24) : fieldOp (wordI24 op imm) = op :=
  BitVec.extractLsb'_append_eq_left

@[simp] theorem fieldImm24_wordI24 (op : BitVec 8) (imm : BitVec 24) :
    fieldImm24 (wordI24 op imm) = imm :=
  BitVec.extractLsb'_append_eq_right

theorem wordI24_toNat (op : BitVec 8) (imm : BitVec 24) :
    (wordI24 op imm).toNat = op.toNat * 2 ^ 24 + imm.toNat := by
  rw [wordI24, BitVec.toNat_append, ← Nat.shiftLeft_add_eq_or_of_lt imm.isLt, Nat.shiftLeft_eq]

theorem encode_setRate (r : BitVec 24) :
    encode (.setRate r) = BitVec.ofNat 32 (0x20000000 + r.toNat) :=
  BitVec.eq_of_toNat_eq (by rw [encode, wordI24_toNat, BitVec.toNat_ofNat]; simp; omega)

theorem decode_encode_setRate (ch : Channels) (r : BitVec 24) :
    decode ch (encode (.setRate r)) = .command (.setRate r) :=
  decode_of_fields (by simp [decodeFields, encode]) rfl

/-- The four words of SET_ALT (R226), written out. -/
theorem decode_setAlt (ch : Channels) (out inn : Bool) :
    decode ch (BitVec.ofNat 32 (0x23000000 + out.toNat + 2 * inn.toNat))
      = .command (.setAlt out inn) :=
  decode_of_fields (by cases out <;> cases inn <;> rfl) rfl

/-! ## What each command does -/

/-- The payload is the port's: an update that leaves the port alone leaves it (R90). -/
theorem inPayload_eq_of_port {s t : State} (h : t.port = s.port) : inPayload t = inPayload s := by
  simp only [inPayload, fetch, h]

/-- R222: the OVERLOAD flag and NeedsReset; neither error counter counts. -/
theorem raise_overload (s : State) :
    raise .overload s = { s with flags := s.flags ||| 0b0001, state := .needsReset } := rfl

/-- R223: the model compares the numbers of the rates. -/
theorem rateSupported_iff (r : BitVec 24) :
    rateSupported r = true ↔ r = 44100 ∨ r = 48000 ∨ r = 96000 := by
  simp [rateSupported, ← BitVec.toNat_inj, or_assoc]

theorem exec_nop {s : State} (h : inPayload s = .none) :
    exec .nop s = .next (respond .ok 0 .none s) :=
  withNone_eq _ h

theorem exec_reqReset {s : State} (h : inPayload s = .none) :
    exec .reqReset s = .next (respond .ok 0 .none { s with state := .needsReset }) := by
  rw [exec, execReqReset, withNone_eq _ h]

theorem exec_overload {s : State} (h : inPayload s = .none) :
    exec .overload s = .next (respond .ok 0 .none (raise .overload s)) := by
  rw [exec, execOverload, withNone_eq _ h]

theorem exec_setRate_supported {s : State} {r : BitVec 24} (h : inPayload s = .none)
    (hr : rateSupported r = true) :
    exec (.setRate r) s = .next (respond .ok 0 .none { s with rate := r.setWidth 32 }) := by
  rw [exec, execSetRate, withNone_eq _ h, if_pos hr]

/-- R255: a rate that is not supported changes the answer only. -/
theorem exec_setRate_rejected {s : State} {r : BitVec 24} (h : inPayload s = .none)
    (hr : ¬rateSupported r = true) :
    exec (.setRate r) s = .next (respond .rejected 0 .none s) := by
  rw [exec, execSetRate, withNone_eq _ h, if_neg hr]

theorem exec_setAlt {s : State} (out inn : Bool) (h : inPayload s = .none) :
    exec (.setAlt out inn) s =
      .next (respond .ok 0 .none { s with outActive := out, inActive := inn }) := by
  rw [exec, execSetAlt, withNone_eq _ h]

theorem exec_rdFlags {s : State} (h : inPayload s = .none) :
    exec .rdFlags s = .next (respond .ok (s.flags.setWidth 32) .none { s with flags := 0 }) := by
  rw [exec, execRdFlags, withNone_eq _ h]

/-! ## The obligations -/

/-- Settles O36: NOP answers and does nothing else. -/
theorem nopChangesNothing : Obligations.NopChangesNothing :=
  fun _ => ⟨decode_of_fields rfl rfl, exec_nop⟩

/-- Settles O37: REQ_RESET writes `state` alone, OVERLOAD is the cause `overload` raised. -/
theorem resetRequestsSetNeedsReset : Obligations.ResetRequestsSetNeedsReset := by
  refine fun s => ⟨decode_of_fields rfl rfl, decode_of_fields rfl rfl, fun h =>
    ⟨exec_reqReset h, ?_⟩⟩
  rw [exec_overload h, raise_overload]
  rfl

/-- Settles O38: the word is the encoder's, and a rate is supported or it is rejected. -/
theorem setRateStoresSupportedRates : Obligations.SetRateStoresSupportedRates := by
  intro s r
  rw [← encode_setRate]
  refine ⟨decode_encode_setRate s.cfg.ch r, fun h => ?_⟩
  by_cases hr : r = 44100 ∨ r = 48000 ∨ r = 96000
  · rw [if_pos hr, exec_setRate_supported h ((rateSupported_iff r).2 hr), BitVec.ofNat_toNat]
    rfl
  · rw [if_neg hr, exec_setRate_rejected h (mt (rateSupported_iff r).1 hr)]
    rfl

/-- Settles O40: the four words, then one update of the two flags. -/
theorem setAltSetsSessionFlags : Obligations.SetAltSetsSessionFlags :=
  fun s out inn => ⟨decode_setAlt s.cfg.ch out inn, exec_setAlt out inn⟩

/-- Settles O42: the second read is the first one's law again, in a state whose flags are 0. -/
theorem rdFlagsReturnsAndClears : Obligations.RdFlagsReturnsAndClears := by
  refine fun s => ⟨decode_of_fields rfl rfl, fun h => ⟨_, exec_rdFlags h, ?_, ?_⟩⟩
  · rw [BitVec.ofNat_toNat]
    rfl
  · exact exec_rdFlags ((inPayload_eq_of_port rfl).trans h)

end Sys2Proof.Proofs.Control

/-! Exceptions (60_exceptions.md): what an exchange command does when it finds a ring whose cursors and
fill level disagree. -/

namespace Sys2Proof.Proofs.Exceptions

open Sys2Proof Sys2Proof.Machine Sys2Proof.Laws Sys2Proof.Proofs.Drift Sys2Proof.Proofs.Transport

/-- R253: the CONS flag and NeedsReset; neither error counter counts. -/
theorem raise_consistency (s : State) :
    raise .consistency s = { s with flags := s.flags ||| 0b1000, state := .needsReset } := rfl

/-- Settles O26: both exchanges check the rings right after NeedsReset (R257), on the state that the
`cfsc` update or the drift tracker left, and neither of these touches the rings. -/
theorem inconsistentRingsRaiseConsistency : Obligations.InconsistentRingsRaiseConsistency := by
  intro s hstate hrings
  have hcheck : (consistent s.cfg.cap s.tx && consistent s.cfg.cap s.rx) = false :=
    Bool.and_eq_false_iff.2 hrings
  constructor
  · intro d2h hp hl
    have hexchange : codecExchange d2h (countBlock s)
        = (raise .consistency (countBlock s), silentWords s.cfg.blockLen) :=
      codecExchange_inconsistent hstate hcheck
    rw [exec_codecXchg_of hp hl hexchange, raise_consistency, countBlock_eq]
    rfl
  · intro rxb hp hl
    have hexchange : usbExchange (samplesOfBytes rxb) (driftFrame s)
        = (raise .consistency (driftFrame s), silence (driftFrame s).cfg.transfer) :=
      usbExchange_inconsistent (by rwa [driftFrame_state])
        (by rwa [driftFrame_cfg, driftFrame_tx, driftFrame_rx])
    rw [exec_usbSof_silent hp hl hexchange, raise_consistency, driftFrame_flags]

end Sys2Proof.Proofs.Exceptions

/-! Reset and recovery (70_reset_and_hazards.md): the state that hardware reset leaves. -/

namespace Sys2Proof.Proofs.Reset

open Sys2Proof.Machine

/-- R35: the `err` output is low exactly when no flag stands. -/
theorem err_eq_false_iff (s : State) : err s = false ↔ s.flags = 0 := by
  simp [err]

/-- R39, R66: an emptied ring lists no location, so each one reads 0. -/
theorem memRead_reset (a : Nat) : memRead Ring.reset.buf a = 0 := rfl

/-- Settles O43: every field is read off `State.resetOf`; both rings are `Ring.reset`, and `err` is low
because no flag is set. -/
theorem resetLeavesStatedValues : Obligations.ResetLeavesStatedValues := by
  intro p s
  have hrings : ∀ r, r = s.tx ∨ r = s.rx →
      r.rd = 0 ∧ r.wr = 0 ∧ r.used = 0 ∧ ∀ a : Nat, memRead r.buf a = 0 := by
    intro r hr
    obtain rfl : r = Ring.reset := hr.elim id id
    exact ⟨rfl, rfl, rfl, memRead_reset⟩
  have herr : err s = false := (err_eq_false_iff s).2 rfl
  exact ⟨rfl, hrings, rfl, rfl, rfl, rfl, rfl, rfl, rfl, rfl, rfl, rfl, rfl, rfl, rfl, rfl, rfl, rfl,
    rfl, rfl, rfl, herr⟩

end Sys2Proof.Proofs.Reset

/-! The encoding (30_encoding.md): the decoder reads back what the encoder writes and nothing else, and
the words it accepts are the ones the opcode table lists. -/

namespace Sys2Proof.Proofs.Encoding

open Sys2Proof Sys2Proof.Machine Sys2Proof.Laws Sys2Proof.Proofs.Drift Sys2Proof.Proofs.Control

/-! ## Words and their fields -/

theorem wordZ_eq_wordI24 (op : BitVec 8) : wordZ op = wordI24 op 0 := rfl

theorem wordZ_toNat (op : BitVec 8) : (wordZ op).toNat = op.toNat * 2 ^ 24 := by
  rw [wordZ_eq_wordI24, wordI24_toNat]
  simp

theorem fieldOp_toNat (w : Word) : (fieldOp w).toNat = w.toNat / 2 ^ 24 := by
  rw [fieldOp, BitVec.extractLsb'_toNat, Nat.shiftRight_eq_div_pow]
  omega

theorem fieldA_toNat (w : Word) : (fieldA w).toNat = w.toNat / 2 ^ 16 % 2 ^ 8 := by
  rw [fieldA, BitVec.extractLsb'_toNat, Nat.shiftRight_eq_div_pow]

theorem fieldImm16_toNat (w : Word) : (fieldImm16 w).toNat = w.toNat % 2 ^ 16 := by
  simp [fieldImm16]

theorem fieldImm24_toNat (w : Word) : (fieldImm24 w).toNat = w.toNat % 2 ^ 24 := by
  simp [fieldImm24]

/-- A word is its three fields (R91). -/
theorem wordAI_fields (w : Word) : wordAI (fieldOp w) (fieldA w) (fieldImm16 w) = w :=
  BitVec.eq_of_toNat_eq (by
    rw [wordAI_toNat, fieldOp_toNat, fieldA_toNat, fieldImm16_toNat]
    omega)

/-- A word is its opcode and its low 24 bits (R91). -/
theorem wordI24_fields (w : Word) : wordI24 (fieldOp w) (fieldImm24 w) = w :=
  BitVec.eq_of_toNat_eq (by
    rw [wordI24_toNat, fieldOp_toNat, fieldImm24_toNat]
    omega)

/-! ## Decoding what was encoded -/

@[simp] theorem bit16_getElem_zero (m : Bool) : (bit16 m)[0] = m := by cases m <;> rfl

@[simp] theorem bit16_high (m : Bool) : (bit16 m).extractLsb' 1 15 = 0 := by cases m <;> rfl

/-- Steps (1) and (2) of R97 accept the word of every term. -/
theorem decodeFields_encode (i : Instr) : decodeFields (encode i) = .command i := by
  cases i with
  | cntAdj imm => simp [decodeFields, encode]
  | setRate imm => simp [decodeFields, encode]
  | setMute a m => simp [decodeFields, encode]
  | setVol a imm => simp [decodeFields, encode]
  | rdReg a => simp [decodeFields, encode]
  | setAlt out inn => cases out <;> cases inn <;> rfl
  | _ => rfl

/-- Settles O1: the fields are read back for every term, and step (3) of R97 is the range check. -/
theorem decodeEncodeRoundTrip : Obligations.DecodeEncodeRoundTrip := by
  intro ch i
  simp only [decode, decodeFields_encode]

theorem decode_encode {ch : Channels} {i : Instr} (h : i.wf ch = true) :
    decode ch (encode i) = .command i := by
  rw [decodeEncodeRoundTrip, if_pos h]

theorem decode_encode_of_not_wf {ch : Channels} {i : Instr} (h : ¬i.wf ch = true) :
    decode ch (encode i) = .illegal .operandRange := by
  rw [decodeEncodeRoundTrip, if_neg h]

/-! ## Encoding what was decoded -/

theorem formatZ_eq_command {w : Word} {i j : Instr} (h : formatZ w i = .command j) :
    fieldImm24 w = 0 ∧ j = i := by
  unfold formatZ at h
  split at h
  · exact ⟨‹_›, by simpa using h.symm⟩
  · cases h

/-- A word of format Z whose opcode is `op`. -/
theorem wordZ_of_fields {w : Word} {op : BitVec 8} (hop : fieldOp w = op)
    (hz : fieldImm24 w = 0) : wordZ op = w := by
  rw [wordZ_eq_wordI24, ← hop, ← hz, wordI24_fields]

theorem bit16_of_high {x : BitVec 16} (h : x.extractLsb' 1 15 = 0) : bit16 (x.getLsbD 0) = x := by
  have hhigh : x.toNat / 2 % 2 ^ 15 = 0 := by
    simpa [BitVec.extractLsb'_toNat, Nat.shiftRight_eq_div_pow] using congrArg BitVec.toNat h
  have hlow : x.getLsbD 0 = decide (x.toNat % 2 = 1) := by
    simp [BitVec.getLsbD, Nat.testBit_zero]
  refine BitVec.eq_of_toNat_eq ?_
  have hx := x.isLt
  rw [hlow, bit16]
  by_cases hb : x.toNat % 2 = 1 <;> simp [hb] <;> omega

theorem bit16_pair_of_high {x : BitVec 24} {y : BitVec 16} (h : x.extractLsb' 2 22 = 0)
    (hxy : y.toNat = x.toNat % 2 ^ 16) :
    bit16 (y.getLsbD 0) ||| (bit16 (y.getLsbD 1) <<< 1) = y ∧ x.toNat = y.toNat := by
  have hhigh : x.toNat / 4 % 2 ^ 22 = 0 := by
    simpa [BitVec.extractLsb'_toNat, Nat.shiftRight_eq_div_pow] using congrArg BitVec.toNat h
  have hx := x.isLt
  have hsmall : y.toNat < 4 := by omega
  have hbits : ∀ n < 4, bit16 ((BitVec.ofNat 16 n).getLsbD 0)
      ||| (bit16 ((BitVec.ofNat 16 n).getLsbD 1) <<< 1) = BitVec.ofNat 16 n := by decide
  have hy := hbits y.toNat hsmall
  rw [BitVec.ofNat_toNat, BitVec.setWidth_eq] at hy
  exact ⟨hy, by omega⟩

/-- Every branch of the decoder's table gives back the word it was read from. -/
theorem encode_of_decodeFields {w : Word} {i : Instr} (h : decodeFields w = .command i) :
    encode i = w := by
  have formZ : ∀ {op : BitVec 8} {j : Instr}, (fieldOp w).toNat = op.toNat →
      encode j = wordZ op → formatZ w j = .command i → encode i = w := by
    intro op j hop hj hz
    obtain ⟨hzero, rfl⟩ := formatZ_eq_command hz
    rw [hj, wordZ_of_fields (BitVec.eq_of_toNat_eq hop) hzero]
  have formAI : ∀ {op a : BitVec 8} {imm : BitVec 16}, (fieldOp w).toNat = op.toNat →
      fieldA w = a → fieldImm16 w = imm → wordAI op a imm = w := by
    intro op a imm hop ha himm
    rw [← BitVec.eq_of_toNat_eq hop, ← ha, ← himm, wordAI_fields]
  unfold decodeFields at h
  split at h
  case h_1 hop => exact formZ (op := 0x00) hop rfl h
  case h_2 hop => exact formZ (op := 0x01) hop rfl h
  case h_3 hop => exact formZ (op := 0x02) hop rfl h
  case h_4 hop =>
    split at h <;> cases h
    exact formAI (op := 0x03) hop ‹_› rfl
  case h_5 hop => exact formZ (op := 0x10) hop rfl h
  case h_6 hop => exact formZ (op := 0x11) hop rfl h
  case h_7 hop =>
    cases h
    rw [encode, ← BitVec.eq_of_toNat_eq (y := (0x20 : BitVec 8)) hop, wordI24_fields]
  case h_8 hop =>
    split at h <;> cases h
    exact formAI (op := 0x21) hop rfl (bit16_of_high ‹_›).symm
  case h_9 hop =>
    cases h
    exact formAI (op := 0x22) hop rfl rfl
  case h_10 hop =>
    split at h <;> cases h
    obtain ⟨hbits, hsmall⟩ := bit16_pair_of_high (y := fieldImm16 w) ‹_› (by
      rw [fieldImm16_toNat, fieldImm24_toNat]; omega)
    refine formAI (op := 0x23) hop (BitVec.eq_of_toNat_eq ?_) hbits.symm
    rw [fieldImm16_toNat, fieldImm24_toNat] at hsmall
    rw [fieldA_toNat]
    simp
    omega
  case h_11 hop =>
    split at h <;> cases h
    exact formAI (op := 0x30) hop rfl ‹_›
  case h_12 hop => exact formZ (op := 0x31) hop rfl h
  case h_13 hop => exact formZ (op := 0x40) hop rfl h
  case h_14 hop => exact formZ (op := 0x41) hop rfl h
  case h_15 hop => exact formZ (op := 0x42) hop rfl h
  case h_16 hop => exact formZ (op := 0x43) hop rfl h
  case h_17 => cases h

/-- Settles O2: the table gives the word back, and the range check of R97 has passed. -/
theorem decodedWordIsItsEncoding : Obligations.DecodedWordIsItsEncoding := by
  intro ch w i h
  unfold decode at h
  cases hf : decodeFields w with
  | illegal why => simp [hf] at h
  | command j =>
    simp only [hf] at h
    split at h <;> cases h
    exact ⟨encode_of_decodeFields hf, ‹_›⟩

/-- The commands are the words of the terms in range. -/
theorem decode_command_iff (ch : Channels) (w : Word) :
    (∃ i, decode ch w = .command i) ↔ ∃ i : Instr, i.wf ch = true ∧ encode i = w := by
  constructor
  · rintro ⟨i, h⟩
    exact ⟨i, (decodedWordIsItsEncoding ch w i h).2, (decodedWordIsItsEncoding ch w i h).1⟩
  · rintro ⟨i, hwf, rfl⟩
    exact ⟨i, decode_encode hwf⟩

/-! ## The listed words -/

theorem chanIndexOk_iff (ch : Channels) (a : BitVec 8) :
    chanIndexOk ch a = true ↔ a.toNat ≤ ch.count := by simp [chanIndexOk]

/-- The index map of R43 as ranges of numbers. -/
theorem regOfIndex_isSome_iff (ch : Channels) (a : BitVec 8) :
    (regOfIndex ch a).isSome = true ↔
      a.toNat ≤ 0x09
        ∨ a.toNat ∈ [0x10, 0x11, 0x12, 0x14, 0x15, 0x16,
            0x20, 0x21, 0x22, 0x23, 0x24, 0x25, 0x26, 0x28]
        ∨ (0x40 ≤ a.toNat ∧ a.toNat ≤ 0x40 + ch.count)
        ∨ (0x50 ≤ a.toNat ∧ a.toNat ≤ 0x50 + ch.count) := by
  unfold regOfIndex
  simp only [List.mem_cons, List.not_mem_nil, or_false]
  split
  case h_25 =>
    split
    · simp only [Option.isSome_some, true_iff]
      omega
    · split
      · simp only [Option.isSome_some, true_iff]
        omega
      · simp only [Option.isSome_none, Bool.false_eq_true, false_iff, imp_false] at *
        omega
  all_goals
    simp only [Option.isSome_some, true_iff]
    omega


theorem legalWord_encode {i : Instr} (h : i.wf ch = true) : legalWord ch (encode i).toNat := by
  cases i with
  | cntAdj imm =>
    have himm := imm.isLt
    refine .inr (.inl ?_)
    rw [encode, wordAI_toNat]
    constructor <;> simp <;> omega
  | setRate imm =>
    have himm := imm.isLt
    refine .inr (.inr (.inl ?_))
    rw [encode, wordI24_toNat]
    simp
    omega
  | setMute a m =>
    have ha := (chanIndexOk_iff ch a).1 h
    have ha' := a.isLt
    refine .inr (.inr (.inr (.inl ?_)))
    rw [encode, wordAI_toNat]
    cases m <;> simp [bit16] <;> omega
  | setVol a imm => 
    have ha := (chanIndexOk_iff ch a).1 h
    have ha' := a.isLt
    have himm := imm.isLt
    refine .inr (.inr (.inr (.inr (.inl ?_))))
    rw [encode, wordAI_toNat]
    simp
    omega
  | setAlt out inn =>
    refine .inr (.inr (.inr (.inr (.inr (.inl ?_)))))
    cases out <;> cases inn <;> decide
  | rdReg a =>
    have ha := (regOfIndex_isSome_iff ch a).1 h
    have ha' := a.isLt
    have hword : (encode (.rdReg a)).toNat = 0x30 * 2 ^ 24 + a.toNat * 2 ^ 16 := by
      rw [encode, wordAI_toNat]
      simp
    have hindex : (encode (.rdReg a)).toNat / 2 ^ 16 % 2 ^ 8 = a.toNat := by omega
    refine .inr (.inr (.inr (.inr (.inr (.inr ⟨by omega, by omega, ?_⟩)))))
    rwa [hindex]
  | _ => exact .inl (by decide)

theorem exists_encode_of_legalWord {ch : Channels} {w : Word} (h : legalWord ch w.toNat) :
    ∃ i : Instr, i.wf ch = true ∧ encode i = w := by
  rcases h with ⟨hop, hz⟩ | ⟨hop, ha⟩ | hop | ⟨hop, ha, himm⟩ | ⟨hop, ha⟩ | ⟨hop, himm⟩
    | ⟨hop, himm, ha⟩
  · have formZ : ∀ {op : BitVec 8}, w.toNat / 2 ^ 24 = op.toNat → wordZ op = w := fun h =>
      BitVec.eq_of_toNat_eq (by rw [wordZ_toNat]; omega)
    simp only [List.mem_cons, List.not_mem_nil, or_false] at hop
    rcases hop with h | h | h | h | h | h | h | h | h | h
    · exact ⟨.nop, rfl, formZ h⟩
    · exact ⟨.codecXchg, rfl, formZ h⟩
    · exact ⟨.usbSof, rfl, formZ h⟩
    · exact ⟨.reqReset, rfl, formZ h⟩
    · exact ⟨.overload, rfl, formZ h⟩
    · exact ⟨.rdFlags, rfl, formZ h⟩
    · exact ⟨.rsShrink16, rfl, formZ h⟩
    · exact ⟨.rsStretch16, rfl, formZ h⟩
    · exact ⟨.rsShrink32, rfl, formZ h⟩
    · exact ⟨.rsStretch32, rfl, formZ h⟩
  · refine ⟨.cntAdj (fieldImm16 w), rfl, BitVec.eq_of_toNat_eq ?_⟩
    rw [encode, wordAI_toNat, fieldImm16_toNat]
    simp
    omega
  · refine ⟨.setRate (fieldImm24 w), rfl, BitVec.eq_of_toNat_eq ?_⟩
    rw [encode, wordI24_toNat, fieldImm24_toNat]
    simp
    omega
  · refine ⟨.setMute (fieldA w) (decide (w.toNat % 2 = 1)),
      (chanIndexOk_iff _ _).2 (by rwa [fieldA_toNat]), BitVec.eq_of_toNat_eq ?_⟩
    rw [encode, wordAI_toNat, fieldA_toNat, bit16]
    by_cases hb : w.toNat % 2 = 1 <;> simp [hb] <;> omega
  · refine ⟨.setVol (fieldA w) (fieldImm16 w), (chanIndexOk_iff _ _).2 (by rwa [fieldA_toNat]),
      BitVec.eq_of_toNat_eq ?_⟩
    rw [encode, wordAI_toNat, fieldA_toNat, fieldImm16_toNat]
    simp
    omega
  · have halt : ∀ n < 4, ∃ out inn, encode (.setAlt out inn) = BitVec.ofNat 32 (0x23000000 + n) := by
      decide
    obtain ⟨out, inn, hw⟩ := halt _ himm
    refine ⟨.setAlt out inn, rfl, hw.trans (BitVec.eq_of_toNat_eq ?_)⟩
    rw [BitVec.toNat_ofNat]
    omega
  · refine ⟨.rdReg (fieldA w), (regOfIndex_isSome_iff _ _).2 (by rwa [fieldA_toNat]),
      BitVec.eq_of_toNat_eq ?_⟩
    rw [encode, wordAI_toNat, fieldA_toNat]
    simp
    omega

theorem decode_command_iff_legalWord (ch : Channels) (w : Word) :
    (∃ i, decode ch w = .command i) ↔ legalWord ch w.toNat := by
  rw [decode_command_iff]
  constructor
  · rintro ⟨i, hwf, rfl⟩
    exact legalWord_encode hwf
  · exact exists_encode_of_legalWord

/-- R96: the answer to a word that is not listed. -/
theorem step_illegal {s : State} {c : Command} {rest : List Command} {why : Illegal}
    (hp : s.port = c :: rest) (hd : decode s.cfg.ch c.cw = .illegal why) :
    step s = .next { respond .illegal 0 .none s with port := rest } := by
  simp [step, fetch, hp, hd]

/-- Settles O4: the listed words are the terms in range, and every other word decodes as illegal. -/
theorem exactlyTheListedWordsAreCommands : Obligations.ExactlyTheListedWordsAreCommands := by
  refine ⟨decode_command_iff_legalWord, fun s c rest hp hw => ?_⟩
  cases hd : decode s.cfg.ch c.cw with
  | command i => exact absurd ((decode_command_iff_legalWord _ _).1 ⟨i, hd⟩) hw
  | illegal why => exact step_illegal hp hd

/-- Settles O3: fourteen words of the tables, each decoded by evaluation. -/
theorem specWordsDecode : Obligations.SpecWordsDecode := by
  unfold Obligations.SpecWordsDecode
  decide

end Sys2Proof.Proofs.Encoding

/-! The command port (30_encoding.md R90, R94; 60_exceptions.md R268): what one step does with the oldest
command, and which payloads a command refuses. -/

namespace Sys2Proof.Proofs.Port

open Sys2Proof Sys2Proof.Machine Sys2Proof.Laws

/-! ## One step -/

/-- Settles O6: there is nothing to fetch. -/
theorem idlePortHoldsState : Obligations.IdlePortHoldsState := by
  intro s hp
  simp [step, fetch, hp]

/-! ## What a command leaves on the port

`exec` never writes the port; `step` takes the executed command off it. -/

/-- What a command answers when its payload has the shape of `zero`, and when it has not. -/
def RefusesShapesOtherThan (zero : Payload) (s : State) (o : Host.Outcome State Fault Refusal) :
    Prop :=
  if sameShape (inPayload s) zero = true then ∃ t, o = .next t else o = .refused .payloadShape

section

variable (s : State) (n : Nat)

theorem withNone_shape (f : State → State) : RefusesShapesOtherThan .none s (withNone s f) := by
  unfold RefusesShapesOtherThan withNone
  cases inPayload s <;> simp [sameShape]

theorem withWords_shape (f : List Word → State → State) :
    RefusesShapesOtherThan (.words (List.replicate n 0)) s (withWords n s f) := by
  unfold RefusesShapesOtherThan withWords
  cases inPayload s with
  | words l => by_cases hl : l.length = n <;> simp [sameShape, hl]
  | _ => simp [sameShape]

theorem withBytes_shape (f : List Byte → State → State) :
    RefusesShapesOtherThan (.bytes (List.replicate n 0)) s (withBytes n s f) := by
  unfold RefusesShapesOtherThan withBytes
  cases inPayload s with
  | bytes l => by_cases hl : l.length = n <;> simp [sameShape, hl]
  | _ => simp [sameShape]

theorem withSamples_shape (f : List Sample → State → State) :
    RefusesShapesOtherThan (.samples (List.replicate n 0)) s (withSamples n s f) := by
  unfold RefusesShapesOtherThan withSamples
  cases inPayload s with
  | samples l => by_cases hl : l.length = n <;> simp [sameShape, hl]
  | _ => simp [sameShape]

end

/-- Settles O7: every command has one of the four payload forms. -/
theorem onlyMalformedPayloadsAreRefused : Obligations.OnlyMalformedPayloadsAreRefused := by
  intro i s
  suffices RefusesShapesOtherThan (zeroInput s.cfg i) s (exec i s) from this
  cases i with
  | codecXchg =>
    rw [exec, execCodecXchg]
    exact withWords_shape s _ _
  | usbSof =>
    rw [exec, execUsbSof]
    exact withBytes_shape s _ _
  | rsShrink16 => exact withSamples_shape s _ _
  | rsStretch16 => exact withSamples_shape s _ _
  | rsShrink32 => exact withWords_shape s _ _
  | rsStretch32 => exact withWords_shape s _ _
  | _ =>
    simp only [exec, execNop, execCntAdj, execReqReset, execOverload, execSetRate, execSetMute,
      execSetVol, execSetAlt, execRdReg, execRdFlags]
    exact withNone_shape s _

end Sys2Proof.Proofs.Port

/-! What a command can do, said once (42_transport.md R173 to R187, 43_control_status.md): one inductive
relation for the control commands, one for each exchange, and the inversion of `exec` into them. -/

namespace Sys2Proof.Proofs.Outcomes

open Sys2Proof Sys2Proof.Machine Sys2Proof.Laws Sys2Proof.Proofs.Transport

/-! ## The commands that are no exchange -/

/-- `u` is what a command that is no exchange makes of `s` before it answers. -/
inductive ControlDoes (s : State) : Instr → State → Prop where
  | nothing {i : Instr} (hcodec : i ≠ .codecXchg) (husb : i ≠ .usbSof) (hflags : i ≠ .rdFlags) :
      ControlDoes s i s
  | cntAdj (d : BitVec 16) :
      ControlDoes s (.cntAdj d) { s with cfsc := wrapU32 ((s.cfsc.toNat : Int) + d.toInt) }
  | reqReset : ControlDoes s .reqReset { s with state := .needsReset }
  | overload : ControlDoes s .overload (raise .overload s)
  | setRate {r : BitVec 24} (hrate : rateSupported r = true) :
      ControlDoes s (.setRate r) { s with rate := r.setWidth 32 }
  | setMute (a : BitVec 8) (m : Bool) :
      ControlDoes s (.setMute a m) { s with mute := s.mute.set a.toNat m }
  | setVol (a : BitVec 8) (v : BitVec 16) :
      ControlDoes s (.setVol a v) { s with volume := s.volume.set a.toNat v }
  | setAlt (out inn : Bool) :
      ControlDoes s (.setAlt out inn) { s with outActive := out, inActive := inn }
  | rdFlags : ControlDoes s .rdFlags { s with flags := 0 }

theorem control_cases {i : Instr} {s t : State} (hcodec : i ≠ .codecXchg) (husb : i ≠ .usbSof)
    (h : exec i s = .next t) :
    ∃ status data out u, ControlDoes s i u ∧ t = respond status data out u := by
  cases i with
  | codecXchg => exact absurd rfl hcodec
  | usbSof => exact absurd rfl husb
  | nop =>
    simp only [exec, execNop, withNone_next_iff] at h
    obtain ⟨-, rfl⟩ := h
    exact ⟨_, _, _, _, .nothing hcodec husb nofun, rfl⟩
  | cntAdj d =>
    simp only [exec, execCntAdj, withNone_next_iff] at h
    obtain ⟨-, rfl⟩ := h
    exact ⟨_, _, _, _, .cntAdj d, rfl⟩
  | reqReset =>
    simp only [exec, execReqReset, withNone_next_iff] at h
    obtain ⟨-, rfl⟩ := h
    exact ⟨_, _, _, _, .reqReset, rfl⟩
  | overload =>
    simp only [exec, execOverload, withNone_next_iff] at h
    obtain ⟨-, rfl⟩ := h
    exact ⟨_, _, _, _, .overload, rfl⟩
  | setRate r =>
    simp only [exec, execSetRate, withNone_next_iff] at h
    obtain ⟨-, rfl⟩ := h
    split
    · exact ⟨_, _, _, _, .setRate ‹_›, rfl⟩
    · exact ⟨_, _, _, _, .nothing hcodec husb nofun, rfl⟩
  | setMute a m =>
    simp only [exec, execSetMute, withNone_next_iff] at h
    obtain ⟨-, rfl⟩ := h
    split
    · exact ⟨_, _, _, _, .setMute a m, rfl⟩
    · exact ⟨_, _, _, _, .nothing hcodec husb nofun, rfl⟩
  | setVol a v =>
    simp only [exec, execSetVol, withNone_next_iff] at h
    obtain ⟨-, rfl⟩ := h
    split
    · exact ⟨_, _, _, _, .setVol a v, rfl⟩
    · exact ⟨_, _, _, _, .nothing hcodec husb nofun, rfl⟩
  | setAlt out inn =>
    simp only [exec, execSetAlt, withNone_next_iff] at h
    obtain ⟨-, rfl⟩ := h
    exact ⟨_, _, _, _, .setAlt out inn, rfl⟩
  | rdReg a =>
    simp only [exec, execRdReg, withNone_next_iff] at h
    obtain ⟨-, rfl⟩ := h
    split <;> exact ⟨_, _, _, _, .nothing hcodec husb nofun, rfl⟩
  | rdFlags =>
    simp only [exec, execRdFlags, withNone_next_iff] at h
    obtain ⟨-, rfl⟩ := h
    exact ⟨_, _, _, _, .rdFlags, rfl⟩
  | rsShrink16 =>
    obtain ⟨p, -, -, rfl⟩ := (withSamples_next_iff ..).1 h
    exact ⟨_, _, _, _, .nothing hcodec husb nofun, rfl⟩
  | rsStretch16 =>
    obtain ⟨p, -, -, rfl⟩ := (withSamples_next_iff ..).1 h
    exact ⟨_, _, _, _, .nothing hcodec husb nofun, rfl⟩
  | rsShrink32 =>
    obtain ⟨p, -, -, rfl⟩ := (withWords_next_iff ..).1 h
    exact ⟨_, _, _, _, .nothing hcodec husb nofun, rfl⟩
  | rsStretch32 =>
    obtain ⟨p, -, -, rfl⟩ := (withWords_next_iff ..).1 h
    exact ⟨_, _, _, _, .nothing hcodec husb nofun, rfl⟩

/-! ## CODEC_XCHG -/

/-- Both rings pass the consistency check of R67. -/
def RingsAgree (s : State) : Prop :=
  consistent s.cfg.cap s.tx = true ∧ consistent s.cfg.cap s.rx = true

theorem ringsAgree_iff (s : State) :
    (consistent s.cfg.cap s.tx && consistent s.cfg.cap s.rx) = true ↔ RingsAgree s :=
  Bool.and_eq_true _ _ ▸ Iff.rfl

/-- TX after a priming block (R175). -/
def primedTx (smp : List Sample) (s : State) : Ring :=
  if 0 < min s.cfg.blockLen (s.cfg.normalSize - s.tx.used.toNat) then
    rbWrite s.cfg.cap s.tx
      (smp.take (min s.cfg.blockLen (s.cfg.normalSize - s.tx.used.toNat)))
  else s.tx

theorem codecPriming_eq (smp : List Sample) (s : State) :
    codecPriming smp s = ({ s with tx := primedTx smp s }, silentWords s.cfg.blockLen) := by
  simp only [codecPriming, primedTx]
  split <;> rfl

/-- The state after a block of the non-resampled strategy (R176). -/
def afterDirectBlock (smp : List Sample) (s : State) : State :=
  { s with
    tx := rbWrite s.cfg.cap s.tx (directBlock s.cfg (pendingMode s) smp)
    rx := rbAdvance s.cfg.cap s.rx (directLength s)
    corrPending := false }

/-- The state after a block of a batch (R177, R178). -/
def afterBatchBlock (smp : List Sample) (s : State) : State :=
  { s with
    tx := batchTx smp s
    rx := rbAdvance s.cfg.cap (batchRx s) s.cfg.blockLen
    corrPending := if s.bphase.val = 0 then false else s.corrPending
    bphase := if s.bphase.val = 0 then 1 else if s.bphase.val = 1 then 2 else 0
    batchMode := if s.bphase.val = 2 then .none else blockMode s
    bb := putBlock s.cfg.blockLen s.bphase.val s.bb smp }

/-- `u` and `out` are what the codec side makes of a block `smp` and the state `s` after the `cfsc`
update. -/
inductive CodecDoes (smp : List Sample) (s : State) : State → List Word → Prop where
  | reinit (hstate : s.state = .needsReset) :
      CodecDoes smp s (transportReinit s) (silentWords s.cfg.blockLen)
  | inconsistent (hstate : s.state ≠ .needsReset) (hrings : ¬RingsAgree s) :
      CodecDoes smp s (raise .consistency s) (silentWords s.cfg.blockLen)
  | priming (hstate : isPriming s.state = true) (hrings : RingsAgree s) :
      CodecDoes smp s { s with tx := primedTx smp s } (silentWords s.cfg.blockLen)
  | direct (hstate : isSteady s.state = true) (hrings : RingsAgree s)
      (hcfg : s.cfg.resampled = false) (htx : s.tx.used.toNat + directLength s ≤ s.cfg.cap)
      (hrx : max s.cfg.blockLen (directLength s) ≤ s.rx.used.toNat) :
      CodecDoes smp s (afterDirectBlock smp s) ((oldest s.cfg.cap s.rx s.cfg.blockLen).map s2c)
  | batch (hstate : isSteady s.state = true) (hrings : RingsAgree s)
      (hcfg : s.cfg.resampled = true) (hovf : ¬BlockOverflows s) (hunf : ¬BlockUnderflows s) :
      CodecDoes smp s (afterBatchBlock smp s)
        ((oldest s.cfg.cap (batchRx s) s.cfg.blockLen).map s2c)
  | failed {ovf unf : Bool} (hstate : isSteady s.state = true) (hrings : RingsAgree s)
      (hfail : (ovf || unf) = true) (hchecks : CodecBlockFails s) :
      CodecDoes smp s (raiseIf unf .underflow (raiseIf ovf .overflow s))
        (silentWords s.cfg.blockLen)

theorem codecDirect_does {smp : List Sample} {s : State} (hlen : smp.length = s.cfg.blockLen)
    (hstate : isSteady s.state = true) (hrings : RingsAgree s) (hcfg : s.cfg.resampled = false) :
    CodecDoes smp s (codecDirect smp s).1 (codecDirect smp s).2 := by
  have hblock := directBlock_length s.cfg (correctionMode s) hlen
  rw [correctedLen_block] at hblock
  rcases codecDirect_cases smp s with ⟨htx, hrx, h⟩ | ⟨txOk, rxOk, htxOk, hrxOk, hfail, h⟩
  · rw [hblock] at htx
    rw [correctedLen_block] at hrx
    rw [h, rbPeek_eq_oldest, correctedLen_block, correctionMode_eq_pendingMode]
    exact .direct hstate hrings hcfg htx hrx
  · rw [hblock] at htxOk
    rw [correctedLen_block] at hrxOk
    rw [h]
    have hraised : (!txOk || !rxOk) = true := by rw [← Bool.not_and, hfail]; rfl
    refine .failed hstate hrings hraised (.inl ⟨hcfg, ?_⟩)
    rw [← Nat.not_le, ← Nat.not_le, ← htxOk, ← hrxOk]
    simpa using hraised

theorem codecResampled_does {smp : List Sample} {s : State} (hstate : isSteady s.state = true)
    (hrings : RingsAgree s) (hcfg : s.cfg.resampled = true) :
    CodecDoes smp s (codecResampled smp s).1 (codecResampled smp s).2 := by
  rcases codecResampled_cases smp s with ⟨hovf, hunf, h⟩ | ⟨hfail, h⟩ <;> rw [h]
  · rw [batchBlock_batchStart]
    exact .batch hstate hrings hcfg (by simp [← resampledOvf_iff, hovf])
      (by simp [← resampledUnf_iff, hunf])
  · refine .failed hstate hrings hfail (.inr ⟨hcfg, ?_⟩)
    rwa [← resampledOvf_iff, ← resampledUnf_iff, ← Bool.or_eq_true]

theorem codecExchange_does {d2h : List Word} {s : State} (hlen : d2h.length = s.cfg.blockLen) :
    CodecDoes (d2h.map c2s) s (codecExchange d2h s).1 (codecExchange d2h s).2 := by
  have hsmp : (d2h.map c2s).length = s.cfg.blockLen := by rwa [List.length_map]
  rcases codecExchange_cases d2h s with ⟨hs, h⟩ | ⟨hs, hc, h⟩ | ⟨hc, ⟨hs, h⟩ | ⟨hs, hr, h⟩ | ⟨hs, hr, h⟩⟩
    <;> rw [h]
  · exact .reinit hs
  · exact .inconsistent hs (by rw [← ringsAgree_iff, hc]; exact Bool.false_ne_true)
  · rw [codecPriming_eq]
    exact .priming hs ((ringsAgree_iff s).1 hc)
  · exact codecDirect_does hsmp hs ((ringsAgree_iff s).1 hc) hr
  · exact codecResampled_does hs ((ringsAgree_iff s).1 hc) hr

/-- What CODEC_XCHG can do. -/
theorem codecXchg_cases {s t : State} (h : exec .codecXchg s = .next t) :
    ∃ d2h u out, inPayload s = .words d2h ∧ d2h.length = s.cfg.blockLen
      ∧ CodecDoes (d2h.map c2s) (countBlock s) u out ∧ t = respondWake out u := by
  simp only [exec, execCodecXchg, withWords_next_iff] at h
  obtain ⟨d2h, hp, hlen, rfl⟩ := h
  exact ⟨d2h, _, _, hp, hlen, codecExchange_does hlen, rfl⟩

/-! ## USB_SOF -/

/-- The state after a steady frame was transferred both ways (R184). -/
def movedFrame (rxf : List Sample) (s : State) : State :=
  { s with
    tx := rbAdvance s.cfg.cap s.tx s.cfg.transfer
    rx := rbWrite s.cfg.cap s.rx rxf }

/-- `u` and `out` are what the USB side makes of a frame `rxf` and the state `s` after the drift
tracker. -/
inductive UsbDoes (rxf : List Sample) (s : State) : State → List Sample → Prop where
  | discarded (hstate : s.state = .needsReset) : UsbDoes rxf s s (silence s.cfg.transfer)
  | inconsistent (hstate : s.state ≠ .needsReset) (hrings : ¬RingsAgree s) :
      UsbDoes rxf s (raise .consistency s) (silence s.cfg.transfer)
  | primingFull (hstate : isPriming s.state = true) (hrings : RingsAgree s)
      (hfull : s.cfg.cap < s.rx.used.toNat + s.cfg.transfer) :
      UsbDoes rxf s (raise .overflow s) (silence s.cfg.transfer)
  | primingStays (hstate : isPriming s.state = true) (hrings : RingsAgree s)
      (hroom : s.rx.used.toNat + s.cfg.transfer ≤ s.cfg.cap) :
      UsbDoes rxf s { s with rx := rbWrite s.cfg.cap s.rx rxf } (silence s.cfg.transfer)
  | primingExits (hstate : isPriming s.state = true) (hrings : RingsAgree s)
      (hroom : s.rx.used.toNat + s.cfg.transfer ≤ s.cfg.cap)
      (htx : s.tx.used.toNat = s.cfg.normalSize) (hrx : s.cfg.transfer ≤ s.rx.used.toNat) :
      UsbDoes rxf s
        { s with rx := clampRing s.cfg (rbWrite s.cfg.cap s.rx rxf), state := .normal }
        (silence s.cfg.transfer)
  | moved (hstate : isSteady s.state = true) (hrings : RingsAgree s)
      (htx : s.cfg.transfer ≤ s.tx.used.toNat)
      (hroom : s.rx.used.toNat + s.cfg.transfer ≤ s.cfg.cap) :
      UsbDoes rxf s (schedule (leaveCorrection (movedFrame rxf s)))
        (oldest s.cfg.cap s.tx s.cfg.transfer)
  | failed {txOk rxOk : Bool} (hstate : isSteady s.state = true) (hrings : RingsAgree s)
      (htx : txOk = true ↔ s.cfg.transfer ≤ s.tx.used.toNat)
      (hrx : rxOk = true ↔ s.rx.used.toNat + s.cfg.transfer ≤ s.cfg.cap)
      (hfail : (txOk && rxOk) = false) :
      UsbDoes rxf s (usbFailed txOk rxOk s) (silence s.cfg.transfer)

theorem usbPriming_does {rxf : List Sample} {s : State} (hlen : rxf.length = s.cfg.transfer)
    (hstate : isPriming s.state = true) (hrings : RingsAgree s) :
    UsbDoes rxf s (usbPriming rxf s).1 (usbPriming rxf s).2 := by
  by_cases hfull : s.cfg.cap < s.rx.used.toNat + s.cfg.transfer
  · rw [usbPriming_overflow hfull]
    exact .primingFull hstate hrings hfull
  · have hroom := Nat.not_lt.1 hfull
    obtain ⟨hstays, hexits⟩ := usbPriming_room hlen hroom
    by_cases hexit : s.tx.used.toNat = s.cfg.normalSize
        ∧ 2 * s.cfg.transfer ≤ s.rx.used.toNat + s.cfg.transfer
    · rw [hexits hexit]
      exact .primingExits hstate hrings hroom hexit.1 (by omega)
    · rw [hstays hexit]
      exact .primingStays hstate hrings hroom

theorem usbSteady_does {rxf : List Sample} {s : State} (hstate : isSteady s.state = true)
    (hrings : RingsAgree s) : UsbDoes rxf s (usbSteady rxf s).1 (usbSteady rxf s).2 := by
  rcases usbSteady_cases rxf s with ⟨htx, hroom, h⟩ | ⟨txOk, rxOk, htx, hrx, hfail, h⟩ <;> rw [h]
  · rw [rbPeek_eq_oldest]
    exact .moved hstate hrings htx hroom
  · exact .failed hstate hrings htx hrx hfail

theorem usbExchange_does {rxf : List Sample} {s : State} (hlen : rxf.length = s.cfg.transfer) :
    UsbDoes rxf s (usbExchange rxf s).1 (usbExchange rxf s).2 := by
  rcases usbExchange_cases rxf s with ⟨hs, h⟩ | ⟨hs, hc, h⟩ | ⟨hc, ⟨hs, h⟩ | ⟨hs, h⟩⟩ <;> rw [h]
  · exact .discarded hs
  · exact .inconsistent hs (by rw [← ringsAgree_iff, hc]; exact Bool.false_ne_true)
  · exact usbPriming_does hlen hs ((ringsAgree_iff s).1 hc)
  · exact usbSteady_does hs ((ringsAgree_iff s).1 hc)

/-- What USB_SOF can do. -/
theorem usbSof_cases {s t : State} (h : exec .usbSof s = .next t) :
    ∃ rxb u out, inPayload s = .bytes rxb ∧ rxb.length = 2 * s.cfg.transfer
      ∧ UsbDoes (samplesOfBytes rxb) (driftFrame s) u out
      ∧ t = respond .ok 0 (.bytes (bytesOfSamples out)) u := by
  simp only [exec, execUsbSof, withBytes_next_iff] at h
  obtain ⟨rxb, hp, hlen, rfl⟩ := h
  exact ⟨rxb, _, _, hp, hlen, usbExchange_does (by simpa using samplesOfBytes_length hlen), rfl⟩

end Sys2Proof.Proofs.Outcomes

/-! The rules of the whole machine (10_state.md, 42_transport.md section 1): which fields a command can
write, how flags and counters move, when an exchange is silent, and the transitions of the transport
state. -/

namespace Sys2Proof.Proofs.WholeMachine

open Sys2Proof Sys2Proof.Machine Sys2Proof.Laws Sys2Proof.Proofs.Drift Sys2Proof.Proofs.Transport
  Sys2Proof.Proofs.Outcomes

/-! ## Frames of the two exchanges -/

/-- CODEC_XCHG, after its `cfsc` update, writes the rings, `state`, the sequencing fields, the flags and
the counters only. -/
theorem codecDoes_frame {smp : List Sample} {s u : State} {out : List Word}
    (h : CodecDoes smp s u out) : u = { s with
      tx := u.tx
      rx := u.rx
      state := u.state
      corrPending := u.corrPending
      bphase := u.bphase
      batchMode := u.batchMode
      bb := u.bb
      flags := u.flags
      ovfCount := u.ovfCount
      unfCount := u.unfCount } := by
  cases h with
  | failed => rw [raiseIf_raiseIf_frame]
  | _ => rfl

theorem schedule_frame (s : State) : schedule s = { s with
      state := (schedule s).state
      corrPending := (schedule s).corrPending
      corrCounter := (schedule s).corrCounter
      sampleOffset := (schedule s).sampleOffset } := by
  rcases schedule_cases s with ⟨-, h⟩ | ⟨-, -, -, h⟩ | ⟨-, -, -, h⟩ <;> rw [h]

/-- R185 for the checks as the model holds them. -/
theorem usbFailed_eq_of_checks {txOk rxOk : Bool} (hfail : (txOk && rxOk) = false) (s : State) :
    let refill := s.cfg.underflowRefill = true ∧ txOk = false ∧ ¬rxOk = false
    usbFailed txOk rxOk s = { s with
      flags := s.flags ||| flagIf (txOk = false) 0b0100 ||| flagIf (rxOk = false) 0b0010
      ovfCount := s.ovfCount + oneIf (rxOk = false)
      unfCount := s.unfCount + oneIf (txOk = false)
      state := if refill then .fillingUnderflow else .needsReset
      corrPending := if refill then false else s.corrPending
      bphase := if refill then 0 else s.bphase
      batchMode := if refill then .none else s.batchMode } :=
  usbFailed_eq Iff.rfl Iff.rfl (Bool.and_eq_false_iff.1 hfail) s

/-- USB_SOF, after the drift tracker, writes the rings, `state`, the sequencing fields, the flags and the
counters, and `sample_offset` and `corr_counter` where it schedules; never the batch buffer. -/
theorem usbDoes_frame {rxf : List Sample} {s u : State} {out : List Sample}
    (h : UsbDoes rxf s u out) : u = { s with
      tx := u.tx
      rx := u.rx
      state := u.state
      sampleOffset := u.sampleOffset
      corrCounter := u.corrCounter
      corrPending := u.corrPending
      bphase := u.bphase
      batchMode := u.batchMode
      flags := u.flags
      ovfCount := u.ovfCount
      unfCount := u.unfCount } := by
  cases h with
  | moved => rw [schedule_frame]; rfl
  | failed _ _ _ _ hfail => rw [usbFailed_eq_of_checks hfail]
  | _ => rfl

/-! ## Who writes a register -/

/-- Settles O52: the control commands one by one, the exchanges by their frames. -/
theorem onlyItsCommandsWriteARegister : Obligations.OnlyItsCommandsWriteARegister := by
  intro i s t h
  by_cases hcodec : i = .codecXchg
  · subst hcodec
    obtain ⟨d2h, u, out, -, -, hdoes, rfl⟩ := codecXchg_cases h
    rw [codecDoes_frame hdoes]
    simp
  by_cases husb : i = .usbSof
  · subst husb
    obtain ⟨rxb, u, out, -, -, hdoes, rfl⟩ := usbSof_cases h
    rw [usbDoes_frame hdoes, driftFrame_frame]
    simp
  obtain ⟨status, data, out, u, hdoes, rfl⟩ := control_cases hcodec husb h
  cases hdoes <;> simp

theorem exec_port {i : Instr} {s t : State} (h : exec i s = .next t) : t.port = s.port :=
  (onlyItsCommandsWriteARegister i s t h).2.1

theorem exec_cfg {i : Instr} {s t : State} (h : exec i s = .next t) : t.cfg = s.cfg :=
  (onlyItsCommandsWriteARegister i s t h).1

/-- Settles O5: `exec` leaves the port alone, so what `step` drops is the command it executed. -/
theorem stepRunsDecodedCommand : Obligations.StepRunsDecodedCommand := by
  intro s c rest i hp hd
  have hstep : step s = retire (exec i s) := by simp only [step, fetch, hp, List.head?_cons, hd]
  rw [hstep]
  cases hexec : exec i s with
  | next t => simp only [retire_next, exec_port hexec, hp, List.tail_cons]
  | fault r => rfl
  | refused r => rfl

theorem primedTx_rd (smp : List Sample) (s : State) : (primedTx smp s).rd = s.tx.rd := by
  unfold primedTx
  split <;> rfl

theorem batchTx_rd (smp : List Sample) (s : State) : (batchTx smp s).rd = s.tx.rd := by
  unfold batchTx
  split <;> rfl

theorem rxCorrect_wr (p : Params) (m : BatchMode) (r : Ring) : (rxCorrect p m r).wr = r.wr := by
  cases m <;> rfl

theorem batchRx_wr (s : State) : (batchRx s).wr = s.rx.wr := by
  unfold batchRx
  split
  · rw [rxCorrect_wr]
  · rfl

/-- Settles O53: the cursors and storage of the other side are in no outcome but the three named ones. -/
theorem eachSideWritesItsOwnCursors : Obligations.EachSideWritesItsOwnCursors := by
  intro s t
  constructor
  · intro h
    obtain ⟨rxb, u, out, -, -, hdoes, rfl⟩ := usbSof_cases h
    have hbb : u.bb = s.bb := by rw [usbDoes_frame hdoes, driftFrame_frame]
    suffices u.tx.wr = s.tx.wr ∧ u.tx.buf = s.tx.buf
        ∧ (u.rx.rd = s.rx.rd ∨ (isPriming s.state = true ∧ u.state = .normal)) from
      ⟨this.1, this.2.1, hbb, this.2.2⟩
    cases hdoes with
    | primingExits hstate => exact ⟨by simp, by simp, .inr ⟨by simpa using hstate, rfl⟩⟩
    | moved => rw [schedule_frame]; simp [movedFrame]
    | failed _ _ _ _ hfail => rw [usbFailed_eq_of_checks hfail]; simp
    | _ => simp
  · intro h
    obtain ⟨d2h, u, out, -, -, hdoes, rfl⟩ := codecXchg_cases h
    cases hdoes with
    | reinit hstate => exact .inr ⟨hstate, rfl⟩
    | inconsistent => exact .inl ⟨rfl, rfl, .inl rfl⟩
    | priming => exact .inl ⟨primedTx_rd _ _, rfl, .inl rfl⟩
    | direct => exact .inl ⟨rfl, rfl, .inl rfl⟩
    | batch hstate _ hcfg =>
      refine .inl ⟨batchTx_rd _ (countBlock s), batchRx_wr (countBlock s), ?_⟩
      by_cases hstart : startsCorrection (countBlock s)
      · exact .inr ⟨hcfg, hstate, hstart⟩
      · exact .inl (congrArg Ring.buf (batchRx_of_not_starts hstart) :)
    | failed => exact .inl (by rw [raiseIf_raiseIf_frame]; exact ⟨rfl, rfl, .inl rfl⟩)

/-! ## Flags and counters -/

theorem setFlag_getLsbD (c : Cause) (f : BitVec 4) (k : Nat) :
    (setFlag c f).getLsbD k = (f.getLsbD k || (flagBit c).getLsbD k) := by simp [setFlag]

theorem and_setFlag (c : Cause) (f : BitVec 4) : f &&& setFlag c f = f := by
  have hmask : ∀ f m : BitVec 4, f &&& (f ||| m) = f := by decide
  exact hmask f (flagBit c)

theorem overload_getLsbD {k : Nat} (hk : 1 ≤ k) : (flagBit .overload).getLsbD k = false := by
  exact Nat.testBit_lt_two_pow (Nat.one_lt_two_pow (by omega))

/-- What an exchange may do to the flags and the counters: flags stay, bit 0 is not for it, and a counter
grows by one only beside its flag (R35, R36). -/
structure ErrorsCounted (s u : State) : Prop where
  sticky : s.flags &&& u.flags = s.flags
  no_overload : u.flags.getLsbD 0 = true → s.flags.getLsbD 0 = true
  ovf : u.ovfCount = s.ovfCount ∨ (u.ovfCount = s.ovfCount + 1 ∧ u.flags.getLsbD 1 = true)
  unf : u.unfCount = s.unfCount ∨ (u.unfCount = s.unfCount + 1 ∧ u.flags.getLsbD 2 = true)

theorem errorsCounted_of_eq {s u : State} (hflags : u.flags = s.flags)
    (hovf : u.ovfCount = s.ovfCount) (hunf : u.unfCount = s.unfCount) : ErrorsCounted s u where
  sticky := by rw [hflags, BitVec.and_self]
  no_overload := by rw [hflags]; exact id
  ovf := .inl hovf
  unf := .inl hunf

theorem errorsCounted_consistency (s : State) : ErrorsCounted s (raise .consistency s) where
  sticky := and_setFlag _ _
  no_overload := by
    rw [raise_flags, setFlag_getLsbD, Bool.or_eq_true]
    exact fun h => h.resolve_right nofun
  ovf := .inl rfl
  unf := .inl rfl

/-- Overflow, Underflow, or both, in either order. -/
theorem errorsCounted_of_checks {s u : State} {o n : Prop} [Decidable o] [Decidable n]
    (hflags : u.flags = s.flags ||| flagIf o 0b0010 ||| flagIf n 0b0100)
    (hovf : u.ovfCount = s.ovfCount + oneIf o) (hunf : u.unfCount = s.unfCount + oneIf n) :
    ErrorsCounted s u := by
  have hsticky : ∀ f m k : BitVec 4, f &&& (f ||| m ||| k) = f := by decide
  refine ⟨by rw [hflags, hsticky], ?_, ?_, ?_⟩ <;> rw [hflags]
  · by_cases o <;> by_cases n <;> simp [flagIf, *]
  · by_cases o <;> simp [flagIf, oneIf, *]
  · by_cases n <;> simp [flagIf, oneIf, *]

theorem errorsCounted_raiseIf (ovf unf : Bool) (s : State) :
    ErrorsCounted s (raiseIf unf .underflow (raiseIf ovf .overflow s)) := by
  rw [raiseIf_underflow (u := unf = true) Iff.rfl, raiseIf_overflow (o := ovf = true) Iff.rfl]
  exact errorsCounted_of_checks (o := ovf = true) (n := unf = true) rfl rfl rfl

theorem codecDoes_errorsCounted {smp : List Sample} {s u : State} {out : List Word}
    (h : CodecDoes smp s u out) : ErrorsCounted s u := by
  cases h with
  | inconsistent => exact errorsCounted_consistency s
  | failed => exact errorsCounted_raiseIf _ _ s
  | _ => exact errorsCounted_of_eq rfl rfl rfl

theorem usbDoes_errorsCounted {rxf : List Sample} {s u : State} {out : List Sample}
    (h : UsbDoes rxf s u out) : ErrorsCounted s u := by
  cases h with
  | inconsistent => exact errorsCounted_consistency s
  | primingFull => exact errorsCounted_raiseIf true false s
  | moved => rw [schedule_frame]; exact errorsCounted_of_eq rfl rfl rfl
  | failed _ _ _ _ hfail =>
    rw [usbFailed_eq_of_checks hfail]
    exact errorsCounted_of_checks (by rw [BitVec.or_assoc, BitVec.or_comm (flagIf _ _),
      ← BitVec.or_assoc]) rfl rfl
  | _ => exact errorsCounted_of_eq rfl rfl rfl

/-- Settles O50: the exchanges by what they may do to the flags, OVERLOAD and RD_FLAGS by their update. -/
theorem flagsAreSticky : Obligations.FlagsAreSticky := by
  intro i s t h
  by_cases hcodec : i = .codecXchg
  · subst hcodec
    obtain ⟨d2h, u, out, -, -, hdoes, rfl⟩ := codecXchg_cases h
    obtain ⟨hsticky, hbit0, hovf, hunf⟩ := codecDoes_errorsCounted hdoes
    exact ⟨fun _ => hsticky, nofun, fun h => .inl (hbit0 h), fun _ _ _ => .inr (.inl rfl), hovf,
      hunf, fun h => absurd rfl h⟩
  by_cases husb : i = .usbSof
  · subst husb
    obtain ⟨rxb, u, out, -, -, hdoes, rfl⟩ := usbSof_cases h
    obtain ⟨hsticky, hbit0, hovf, hunf⟩ := usbDoes_errorsCounted hdoes
    simp only [driftFrame_flags, driftFrame_ovfCount, driftFrame_unfCount] at hsticky hbit0 hovf hunf
    exact ⟨fun _ => hsticky, nofun, fun h => .inl (hbit0 h), fun _ _ _ => .inr (.inr rfl), hovf,
      hunf, fun _ h => absurd rfl h⟩
  obtain ⟨status, data, out, u, hdoes, rfl⟩ := control_cases hcodec husb h
  cases hdoes with
  | overload =>
    refine ⟨fun _ => and_setFlag _ _, nofun, fun _ => .inr rfl, fun k hk hbit => .inl ?_, .inl rfl,
      .inl rfl, fun _ _ => ⟨rfl, rfl⟩⟩
    rw [respond_flags, raise_flags, setFlag_getLsbD, overload_getLsbD hk, Bool.or_false] at hbit
    exact hbit
  | rdFlags =>
    exact ⟨fun h => absurd rfl h, fun _ => rfl, fun h => absurd h (by simp),
      fun _ _ h => absurd h (by simp),
      .inl rfl, .inl rfl, fun _ _ => ⟨rfl, rfl⟩⟩
  | nothing _ _ hflags =>
    exact ⟨fun _ => BitVec.and_self, fun h => absurd h hflags, .inl, fun _ _ => .inl, .inl rfl,
      .inl rfl, fun _ _ => ⟨rfl, rfl⟩⟩
  | _ =>
    exact ⟨fun _ => BitVec.and_self, nofun, .inl, fun _ _ => .inl, .inl rfl, .inl rfl,
      fun _ _ => ⟨rfl, rfl⟩⟩

/-! ## Silence -/

/-- The conditions of R295 under which an exchange from `s` to `t` answers silence. -/
def CallsForSilence (s t : State) : Prop :=
  isSteady s.state = false ∨ t.flags ≠ s.flags ∨ t.ovfCount ≠ s.ovfCount ∨ t.unfCount ≠ s.unfCount
    ∨ t.state = .needsReset

theorem not_callsForSilence {s t : State} (hs : isSteady s.state = true)
    (ht : isSteady t.state = true) (hflags : t.flags = s.flags) (hovf : t.ovfCount = s.ovfCount)
    (hunf : t.unfCount = s.unfCount) : ¬CallsForSilence s t := by
  have hne := steady_not_needsReset ht
  simp [CallsForSilence, *]

theorem isSteady_leaveCorrection {s : State} (h : isSteady s.state = true) :
    isSteady (leaveCorrection s).state = true := by
  rw [leaveCorrection_state]
  split
  · rfl
  · exact h

theorem isSteady_schedule {s : State} (h : isSteady s.state = true) :
    isSteady (schedule s).state = true := by
  rcases schedule_cases s with ⟨-, h'⟩ | ⟨-, -, -, h'⟩ | ⟨-, -, -, h'⟩ <;> rw [h']
  · exact h
  · rfl
  · rfl

theorem codecDoes_silent {smp : List Sample} {s u : State} {out : List Word}
    (h : CodecDoes smp s u out) (hsilent : CallsForSilence s u) :
    out = silentWords s.cfg.blockLen := by
  cases h with
  | direct hstate => exact absurd hsilent (not_callsForSilence hstate hstate rfl rfl rfl)
  | batch hstate => exact absurd hsilent (not_callsForSilence hstate hstate rfl rfl rfl)
  | _ => rfl

theorem usbDoes_silent {rxf : List Sample} {s u : State} {out : List Sample}
    (h : UsbDoes rxf s u out) (hsilent : CallsForSilence s u) : out = silence s.cfg.transfer := by
  cases h with
  | moved hstate =>
    refine absurd hsilent (not_callsForSilence hstate
      (isSteady_schedule (isSteady_leaveCorrection hstate)) ?_ ?_ ?_) <;> rw [schedule_frame] <;> rfl
  | _ => rfl

/-- Settles O51: only an exchange that moved samples answers more than silence, and that one raises
nothing. -/
theorem silenceUnlessSteadyAndSound : Obligations.SilenceUnlessSteadyAndSound := by
  intro i s t hi h hsilent
  rcases hi with rfl | rfl
  · obtain ⟨d2h, u, out, -, -, hdoes, rfl⟩ := codecXchg_cases h
    refine ⟨fun _ => ?_, nofun⟩
    rw [codecDoes_silent hdoes hsilent]
    rfl
  · obtain ⟨rxb, u, out, -, -, hdoes, rfl⟩ := usbSof_cases h
    refine ⟨nofun, fun _ => ?_⟩
    have hdrift : CallsForSilence (driftFrame s) u := by simpa [CallsForSilence] using hsilent
    rw [usbDoes_silent hdoes hdrift, bytesOfSamples_silence, driftFrame_cfg]
    rfl

/-! ## Scheduled corrections -/

theorem wrapI16_sub_chans_toInt {x : BitVec 16} (hx : 0 < x.toInt) (p : Params) :
    (wrapI16 (x.toInt - p.chans)).toInt = x.toInt - p.chans := by
  have hle := chans_le p
  have hlt := x.toInt_lt
  exact BitVec.toInt_ofInt_eq_self (by decide) (by omega) (by omega)

theorem wrapI16_add_chans_toInt {x : BitVec 16} (hx : x.toInt < 0) (p : Params) :
    (wrapI16 (x.toInt + p.chans)).toInt = x.toInt + p.chans := by
  have hle := chans_le p
  have hge := x.le_toInt
  exact BitVec.toInt_ofInt_eq_self (by decide) (by omega) (by omega)

/-- What a USB frame may schedule, for a tracker that left the state `s` (R187). -/
def SchedulesOneFrame (s u : State) : Prop :=
  (u.sampleOffset = s.sampleOffset
      ∧ (u.corrPending = true → s.corrPending = true)
      ∧ (u.state = .codecRemove ∨ u.state = .codecDuplicate → u.state = s.state))
    ∨ (0 < s.sampleOffset.toInt ∧ u.state = .codecRemove ∧ u.corrPending = true
      ∧ u.corrCounter = 0 ∧ u.sampleOffset.toInt = s.sampleOffset.toInt - s.cfg.chans)
    ∨ (s.sampleOffset.toInt < 0 ∧ u.state = .codecDuplicate ∧ u.corrPending = true
      ∧ u.corrCounter = 0 ∧ u.sampleOffset.toInt = s.sampleOffset.toInt + s.cfg.chans)

theorem schedule_schedulesOneFrame (s : State) : SchedulesOneFrame s (schedule s) := by
  rcases schedule_cases s with ⟨-, h⟩ | ⟨-, -, hpos, h⟩ | ⟨-, -, hneg, h⟩ <;> rw [h]
  · exact .inl ⟨rfl, id, fun _ => rfl⟩
  · exact .inr (.inl ⟨hpos, rfl, rfl, rfl, wrapI16_sub_chans_toInt hpos s.cfg⟩)
  · exact .inr (.inr ⟨hneg, rfl, rfl, rfl, wrapI16_add_chans_toInt hneg s.cfg⟩)

/-- R186 leaves a correction state or stays in it; it enters none. -/
theorem leaveCorrection_enters_none {s : State}
    (h : (leaveCorrection s).state = .codecRemove ∨ (leaveCorrection s).state = .codecDuplicate) :
    (leaveCorrection s).state = s.state := by
  rw [leaveCorrection_state] at h ⊢
  split at h
  · simp at h
  · rw [if_neg ‹_›]

theorem usbDoes_schedulesOneFrame {rxf : List Sample} {s u : State} {out : List Sample}
    (h : UsbDoes rxf s u out) : SchedulesOneFrame s u := by
  cases h with
  | discarded => exact .inl ⟨rfl, id, fun _ => rfl⟩
  | inconsistent => exact .inl ⟨rfl, id, by simp⟩
  | primingFull => exact .inl ⟨rfl, id, by simp⟩
  | primingStays => exact .inl ⟨rfl, id, fun _ => rfl⟩
  | primingExits => exact .inl ⟨rfl, id, by simp⟩
  | moved =>
    rcases schedule_schedulesOneFrame (leaveCorrection (movedFrame rxf s)) with
      ⟨hoffset, hpending, hstate⟩ | hremove | hduplicate
    · refine .inl ⟨hoffset, hpending, fun hu => ?_⟩
      have hleave := hstate hu
      rw [hleave] at hu ⊢
      exact leaveCorrection_enters_none hu
    · exact .inr (.inl hremove)
    · exact .inr (.inr hduplicate)
  | failed _ _ _ _ hfail =>
    rw [usbFailed_eq_of_checks hfail]
    refine .inl ⟨rfl, fun h => ?_, fun h => ?_⟩
    · dsimp only at h
      split at h
      · cases h
      · exact h
    · dsimp only at h
      split at h <;> simp at h

/-- Settles O24: the tracker first, then what the exchange may schedule. -/
theorem correctionMovesOffsetByOneFrame : Obligations.CorrectionMovesOffsetByOneFrame := by
  intro s t h
  obtain ⟨rxb, u, out, -, -, hdoes, rfl⟩ := usbSof_cases h
  have hschedules := usbDoes_schedulesOneFrame hdoes
  simp only [SchedulesOneFrame, driftFrame_cfg, driftFrame_state, driftFrame_corrPending]
    at hschedules
  exact hschedules

/-! ## Transitions -/

/-- The transitions of CODEC_XCHG (R171). -/
theorem codecDoes_transition {smp : List Sample} {s u : State} {out : List Word}
    (h : CodecDoes smp s u out) (hne : u.state ≠ s.state) :
    (s.state = .needsReset ∧ u.state = .init)
      ∨ (isPriming s.state = true ∧ u.state = .needsReset ∧ ¬RingsAgree s)
      ∨ (isSteady s.state = true ∧ u.state = .needsReset
        ∧ (¬RingsAgree s ∨ CodecBlockFails s)) := by
  cases h with
  | reinit hstate => exact .inl ⟨hstate, rfl⟩
  | inconsistent hstate hrings =>
    rcases transport_cases s.state with hx | hx | hx
    · exact absurd hx hstate
    · exact .inr (.inl ⟨hx, rfl, hrings⟩)
    · exact .inr (.inr ⟨hx, rfl, .inl hrings⟩)
  | failed hstate _ hfail hchecks =>
    exact .inr (.inr ⟨hstate, by rw [raiseIf_raiseIf_state, Bool.or_comm, if_pos hfail],
      .inr hchecks⟩)
  | _ => exact absurd rfl hne

/-- A state that R186 makes Normal, or finds so. -/
theorem leaves_normal {pending : Bool} {x : Transport}
    (h : (if pending = false then .normal else x) = Transport.normal) :
    x = .normal ∨ pending = false := by
  cases pending
  · exact .inr rfl
  · exact .inl h

/-- The transitions of USB_SOF after the drift tracker (R171). -/
theorem usbDoes_transition {rxf : List Sample} {s u : State} {out : List Sample}
    (h : UsbDoes rxf s u out) (hne : u.state ≠ s.state) :
    let moves := RingsAgree s ∧ s.cfg.transfer ≤ s.tx.used.toNat
      ∧ s.rx.used.toNat + s.cfg.transfer ≤ s.cfg.cap
    let due := (s.state = .normal ∨ s.corrPending = false)
      ∧ s.corrInterval.toNat ≤ (s.corrCounter + 1).toNat
    (isPriming s.state = true ∧ u.state = .normal ∧ RingsAgree s
        ∧ s.tx.used.toNat = s.cfg.normalSize ∧ s.cfg.transfer ≤ s.rx.used.toNat)
      ∨ (isPriming s.state = true ∧ u.state = .needsReset
        ∧ (¬RingsAgree s ∨ s.cfg.cap < s.rx.used.toNat + s.cfg.transfer))
      ∨ (isSteady s.state = true ∧ u.state = .codecRemove
        ∧ moves ∧ due ∧ 0 < s.sampleOffset.toInt)
      ∨ (isSteady s.state = true ∧ u.state = .codecDuplicate
        ∧ moves ∧ due ∧ s.sampleOffset.toInt < 0)
      ∨ ((s.state = .codecRemove ∨ s.state = .codecDuplicate) ∧ u.state = .normal
        ∧ moves ∧ s.corrPending = false)
      ∨ (isSteady s.state = true ∧ u.state = .needsReset
        ∧ (¬RingsAgree s ∨ (s.tx.used.toNat < s.cfg.transfer ∧ s.cfg.underflowRefill = false)
          ∨ s.cfg.cap < s.rx.used.toNat + s.cfg.transfer))
      ∨ (isSteady s.state = true ∧ u.state = .fillingUnderflow ∧ RingsAgree s
        ∧ s.cfg.underflowRefill = true ∧ s.tx.used.toNat < s.cfg.transfer
        ∧ s.rx.used.toNat + s.cfg.transfer ≤ s.cfg.cap) := by
  intro moves due
  cases h with
  | discarded => exact absurd rfl hne
  | primingStays => exact absurd rfl hne
  | inconsistent hstate hrings =>
    rcases transport_cases s.state with hx | hx | hx
    · exact absurd hx hstate
    · exact .inr (.inl ⟨hx, rfl, .inl hrings⟩)
    · exact .inr (.inr (.inr (.inr (.inr (.inl ⟨hx, rfl, .inl hrings⟩)))))
  | primingFull hstate hrings hfull => exact .inr (.inl ⟨hstate, rfl, .inr hfull⟩)
  | primingExits hstate hrings _ htx hrx => exact .inl ⟨hstate, rfl, hrings, htx, hrx⟩
  | moved hstate hrings htx hroom =>
    have hmoves : moves := ⟨hrings, htx, hroom⟩
    have hleft : leaveCorrection (movedFrame rxf s) = { movedFrame rxf s with
        state := if s.corrPending = false then .normal else s.state
        corrCounter := s.corrCounter + 1 } := leaveCorrection_steady hstate
    rcases schedule_cases (leaveCorrection (movedFrame rxf s)) with
      ⟨-, h⟩ | ⟨hnormal, hdue, hpos, h⟩ | ⟨hnormal, hdue, hneg, h⟩ <;> rw [h] at hne ⊢
    · rw [hleft] at hne ⊢
      have hclaimed : s.corrPending = false := by
        by_contra hpending
        exact hne (if_neg hpending)
      have hnotNormal : s.state ≠ .normal := fun hx => hne ((if_pos hclaimed).trans hx.symm)
      have hcorr : s.state = .codecRemove ∨ s.state = .codecDuplicate := by
        cases hx : s.state <;> simp_all [isSteady]
      exact .inr (.inr (.inr (.inr (.inl ⟨hcorr, if_pos hclaimed, hmoves, hclaimed⟩))))
    · rw [hleft] at hnormal hdue
      exact .inr (.inr (.inl ⟨hstate, rfl, hmoves, ⟨leaves_normal hnormal, hdue⟩, hpos⟩))
    · rw [hleft] at hnormal hdue
      exact .inr (.inr (.inr (.inl ⟨hstate, rfl, hmoves, ⟨leaves_normal hnormal, hdue⟩, hneg⟩)))
  | @failed txOk rxOk hstate hrings htx hrx hfail =>
    rw [usbFailed_eq_of_checks hfail]
    have htx' : txOk = false ↔ s.tx.used.toNat < s.cfg.transfer := by
      rw [← Bool.not_eq_true, htx, Nat.not_le]
    have hrx' : rxOk = false ↔ s.cfg.cap < s.rx.used.toNat + s.cfg.transfer := by
      rw [← Bool.not_eq_true, hrx, Nat.not_le]
    rw [Bool.and_eq_false_iff, htx', hrx'] at hfail
    simp only [htx', hrx', Nat.not_lt]
    split
    · rename_i hrefill
      obtain ⟨hcfg, hshort, hroom⟩ := hrefill
      exact .inr (.inr (.inr (.inr (.inr (.inr ⟨hstate, rfl, hrings, hcfg, hshort, hroom⟩)))))
    · rename_i hrefill
      refine .inr (.inr (.inr (.inr (.inr (.inl ⟨hstate, rfl, .inr ?_⟩)))))
      rcases hfail with hshort | hfull
      · by_cases hroom : s.rx.used.toNat + s.cfg.transfer ≤ s.cfg.cap
        · exact .inl ⟨hshort, Bool.eq_false_iff.2 fun hcfg => hrefill ⟨hcfg, hshort, hroom⟩⟩
        · exact .inr (Nat.not_le.1 hroom)
      · exact .inr hfull

/-- Settles O49: the two exchanges by their transitions, REQ_RESET and OVERLOAD by their update. -/
theorem transportTransitionsAreListed : Obligations.TransportTransitionsAreListed := by
  intro i s t h hne sound d frameMoves due
  by_cases hcodec : i = .codecXchg
  · subst hcodec
    obtain ⟨d2h, u, out, -, -, hdoes, rfl⟩ := codecXchg_cases h
    rcases codecDoes_transition hdoes hne with ⟨hs, hu⟩ | ⟨hs, hu, hrings⟩ | ⟨hs, hu, hwhy⟩
    · exact .inr (.inl ⟨rfl, hs, hu⟩)
    · exact .inr (.inr (.inl ⟨rfl, hs, hu, hrings⟩))
    · exact .inr (.inr (.inr (.inl ⟨rfl, hs, hu, hwhy⟩)))
  by_cases husb : i = .usbSof
  · subst husb
    obtain ⟨rxb, u, out, -, -, hdoes, rfl⟩ := usbSof_cases h
    have hcases := usbDoes_transition hdoes (by simpa using hne)
    simp only [RingsAgree, driftFrame_cfg, driftFrame_state, driftFrame_tx, driftFrame_rx,
      driftFrame_corrPending, driftFrame_corrCounter] at hcases
    rcases hcases with hx | hx | hx | hx | hx | hx | hx
    · exact .inr (.inr (.inr (.inr (.inl ⟨rfl, hx⟩))))
    · exact .inr (.inr (.inr (.inr (.inr (.inl ⟨rfl, hx⟩)))))
    · exact .inr (.inr (.inr (.inr (.inr (.inr (.inl ⟨rfl, hx⟩))))))
    · exact .inr (.inr (.inr (.inr (.inr (.inr (.inr (.inl ⟨rfl, hx⟩)))))))
    · exact .inr (.inr (.inr (.inr (.inr (.inr (.inr (.inr (.inl ⟨rfl, hx⟩))))))))
    · exact .inr (.inr (.inr (.inr (.inr (.inr (.inr (.inr (.inr (.inl ⟨rfl, hx⟩)))))))))
    · exact .inr (.inr (.inr (.inr (.inr (.inr (.inr (.inr (.inr (.inr ⟨rfl, hx⟩)))))))))
  obtain ⟨status, data, out, u, hdoes, rfl⟩ := control_cases hcodec husb h
  cases hdoes with
  | reqReset => exact .inl ⟨.inl rfl, rfl⟩
  | overload => exact .inl ⟨.inr rfl, rfl⟩
  | _ => exact absurd rfl hne

end Sys2Proof.Proofs.WholeMachine

/-! The non-resampled exchange (42_transport.md R176): a block whose ring checks pass, and one whose checks
fail. -/

namespace Sys2Proof.Proofs.DirectExchange

open Sys2Proof Sys2Proof.Machine Sys2Proof.Laws Sys2Proof.Proofs.Transport Sys2Proof.Proofs.Outcomes

theorem directBlock_length_eq {smp : List Sample} {s : State} (h : smp.length = s.cfg.blockLen) :
    (directBlock s.cfg (pendingMode s) smp).length = directLength s := by
  rw [directBlock_length _ _ h, ← correctionMode_eq_pendingMode, correctedLen_block]

theorem codecDirect_room {smp : List Sample} {s : State} (hlen : smp.length = s.cfg.blockLen)
    (htx : s.tx.used.toNat + directLength s ≤ s.cfg.cap)
    (hrx : max s.cfg.blockLen (directLength s) ≤ s.rx.used.toNat) :
    codecDirect smp s
      = (afterDirectBlock smp s, (oldest s.cfg.cap s.rx s.cfg.blockLen).map s2c) := by
  rcases codecDirect_cases smp s with ⟨-, -, h⟩ | ⟨txOk, rxOk, htxOk, hrxOk, hfail, -⟩
  · rw [h, rbPeek_eq_oldest, correctedLen_block, correctionMode_eq_pendingMode]
    rfl
  · rw [correctionMode_eq_pendingMode, directBlock_length_eq hlen] at htxOk
    rw [correctedLen_block] at hrxOk
    rw [htxOk.2 htx, hrxOk.2 hrx] at hfail
    cases hfail

theorem codecDirect_fails {smp : List Sample} {s : State} (hlen : smp.length = s.cfg.blockLen)
    (hfail : s.cfg.cap < s.tx.used.toNat + directLength s
      ∨ s.rx.used.toNat < max s.cfg.blockLen (directLength s)) :
    ∃ ovf unf : Bool, (ovf = true ↔ s.cfg.cap < s.tx.used.toNat + directLength s)
      ∧ (unf = true ↔ s.rx.used.toNat < max s.cfg.blockLen (directLength s))
      ∧ codecDirect smp s
        = (raiseIf unf .underflow (raiseIf ovf .overflow s), silentWords s.cfg.blockLen) := by
  rcases codecDirect_cases smp s with ⟨htx, hrx, -⟩ | ⟨txOk, rxOk, htxOk, hrxOk, -, h⟩
  · rw [correctionMode_eq_pendingMode, directBlock_length_eq hlen] at htx
    rw [correctedLen_block] at hrx
    omega
  · rw [correctionMode_eq_pendingMode, directBlock_length_eq hlen] at htxOk
    rw [correctedLen_block] at hrxOk
    refine ⟨!txOk, !rxOk, ?_, ?_, h⟩
    · rw [Bool.not_eq_true', ← Bool.not_eq_true, htxOk, Nat.not_le]
    · rw [Bool.not_eq_true', ← Bool.not_eq_true, hrxOk, Nat.not_le]

/-- Settles O28: the block of R176 on the state after the `cfsc` update. -/
theorem directExchangeMovesOneBlock : Obligations.DirectExchangeMovesOneBlock := by
  intro s d2h hp hl hs hr htx hrx n ch smp txd adv hroom henough
  have hexchange : codecExchange d2h (countBlock s) = codecDirect smp (countBlock s) :=
    codecExchange_direct hs (by simp [htx.cursors, hrx.cursors]) hr
  have hsmp : smp.length = s.cfg.blockLen := by simpa [smp] using hl
  have htxd : txd = directBlock s.cfg (pendingMode s) smp := by
    cases h : pendingMode s <;> simp [txd, directBlock, h, n, ch]
  have hadv : adv = directLength s := rfl
  rw [htxd] at hroom ⊢
  have hroom' : s.tx.used.toNat + directLength s ≤ s.cfg.cap := by
    rwa [directBlock_length_eq hsmp] at hroom
  have hdirect := codecDirect_room (s := countBlock s) hsmp hroom' henough
  refine ⟨rbWrite s.cfg.cap s.tx _, rbAdvance s.cfg.cap s.rx adv, ?_,
    rbWrite_stored (cap_pos _) (cap_lt_pow _) htx.buf_wf hroom,
    rbAdvance_consumed (cap_pos _) (cap_lt_pow _) (by omega)⟩
  rw [exec_codecXchg_of hp hl (hexchange.trans hdirect), countBlock_eq]
  rfl

/-- Settles O29: the checks that failed are the ones raised. -/
theorem directExchangeFailsWhole : Obligations.DirectExchangeFailsWhole := by
  intro s d2h hp hl hs hr htx hrx n len ovf unf hfail
  have hexchange : codecExchange d2h (countBlock s) = codecDirect (d2h.map c2s) (countBlock s) :=
    codecExchange_direct hs (by simp [htx, hrx]) hr
  obtain ⟨o, u, ho, hu, hdirect⟩ := codecDirect_fails (s := countBlock s) (smp := d2h.map c2s)
    (by simpa using hl) hfail
  rw [exec_codecXchg_of hp hl (hexchange.trans hdirect),
    raiseIf_underflow_overflow (o := ovf) (u := unf) ho hu hfail, countBlock_eq]
  rfl

end Sys2Proof.Proofs.DirectExchange

/-! The invariant of the machine (10_state.md R40, R41; 42_transport.md R188): it holds at reset, every
outcome of every command keeps it, and so it holds of every state a run reaches. -/

namespace Sys2Proof.Proofs.Invariant

open Sys2Proof Sys2Proof.Machine Sys2Proof.Laws Sys2Proof.Proofs.Drift Sys2Proof.Proofs.Transport
  Sys2Proof.Proofs.Control Sys2Proof.Proofs.Outcomes Sys2Proof.Proofs.WholeMachine

section

variable {s : State}

theorem inv_ringsAgree (hi : Inv s) : RingsAgree s := ⟨hi.tx.cursors, hi.rx.cursors⟩

/-! ## Updates of single fields -/

theorem inv_needsReset (hi : Inv s) : Inv { s with state := .needsReset } :=
  { hi with
    pending := fun _ => .inr (.inr rfl)
    priming := nofun
    init_blocks := nofun
    refill := nofun }

theorem inv_raise (c : Cause) (hi : Inv s) : Inv (raise c s) := { inv_needsReset hi with }

theorem inv_raiseIf (b : Bool) (c : Cause) (hi : Inv s) : Inv (raiseIf b c s) := by
  cases b
  · exact hi
  · exact inv_raise c hi

theorem inv_respond (status : Status) (data : Word) (out : Payload) (hi : Inv s) :
    Inv (respond status data out s) := { hi with }

theorem inv_respondWake (out : List Word) (hi : Inv s) : Inv (respondWake out s) := { hi with }

theorem inv_port (l : List Command) (hi : Inv s) : Inv { s with port := l } := { hi with }

theorem inv_countBlock (hi : Inv s) : Inv (countBlock s) := { hi with }

/-! ## The commands that are no exchange -/

theorem setWidth_rate_ok {r : BitVec 24} (h : rateSupported r = true) :
    r.setWidth 32 = (44100 : Word) ∨ r.setWidth 32 = (48000 : Word)
      ∨ r.setWidth 32 = (96000 : Word) := by
  rcases (rateSupported_iff r).1 h with rfl | rfl | rfl <;> decide

theorem controlDoes_inv {i : Instr} {u : State} (h : ControlDoes s i u) (hi : Inv s) : Inv u := by
  cases h with
  | nothing => exact hi
  | cntAdj => exact { hi with }
  | reqReset => exact inv_needsReset hi
  | overload => exact inv_raise _ hi
  | setRate hrate => exact { hi with rate_ok := setWidth_rate_ok hrate }
  | setMute => exact { hi with mute_len := by simpa using hi.mute_len }
  | setVol => exact { hi with volume_len := by simpa using hi.volume_len }
  | setAlt => exact { hi with }
  | rdFlags => exact { hi with }

/-! ## CODEC_XCHG -/

theorem inv_transportReinit (hi : Inv s) : Inv (transportReinit s) :=
  { hi with
    tx := ringOk_reset _
    rx := ringOk_reset _
    bb_len := by simp [silence]
    pending := nofun
    batch := fun h => absurd rfl h
    direct := fun _ => ⟨rfl, rfl, rfl⟩
    priming := fun _ => ⟨rfl, rfl, rfl, Nat.zero_le _⟩
    init_blocks := fun _ => Nat.zero_mod _
    refill := nofun }

/-- R175: TX grows by what of the block fits below NORMAL_SIZE. -/
theorem primedTx_used {smp : List Sample} (htx : RingOk s.cfg s.tx)
    (hlen : smp.length = s.cfg.blockLen) :
    (primedTx smp s).used.toNat
      = s.tx.used.toNat + min s.cfg.blockLen (s.cfg.normalSize - s.tx.used.toNat) := by
  have hcap := htx.used_le
  have hlt := cap_lt_pow s.cfg
  have hsize := normalSize_le_cap s.cfg
  unfold primedTx
  split
  · rw [rbWrite_used _ _ _ (by rw [List.length_take]; omega), List.length_take]
    omega
  · omega

/-- What divides the block length, NORMAL_SIZE and the occupancy divides what a priming block stores. -/
theorem dvd_primed {k : Nat} (hblock : k ∣ s.cfg.blockLen) (hsize : k ∣ s.cfg.normalSize)
    (hused : k ∣ s.tx.used.toNat) :
    k ∣ min s.cfg.blockLen (s.cfg.normalSize - s.tx.used.toNat) := by
  rcases min_choice s.cfg.blockLen (s.cfg.normalSize - s.tx.used.toNat) with h | h <;> rw [h]
  · exact hblock
  · exact Nat.dvd_sub hsize hused

theorem ringOk_primedTx {smp : List Sample} (htx : RingOk s.cfg s.tx)
    (hlen : smp.length = s.cfg.blockLen) : RingOk s.cfg (primedTx smp s) := by
  have hdvd := dvd_primed (chans_dvd_blockLen _) (chans_dvd_normalSize _)
    (Nat.dvd_of_mod_eq_zero htx.used_frames)
  have htake : (smp.take (min s.cfg.blockLen (s.cfg.normalSize - s.tx.used.toNat))).length
      = min s.cfg.blockLen (s.cfg.normalSize - s.tx.used.toNat) := by
    rw [List.length_take]
    omega
  have hsize := normalSize_le_cap s.cfg
  have hcap := htx.used_le
  unfold primedTx
  split
  · exact ringOk_rbWrite htx (by rw [htake]; omega) (by rwa [htake])
  · exact htx

theorem inv_priming {smp : List Sample} (hi : Inv s) (hlen : smp.length = s.cfg.blockLen)
    (hstate : isPriming s.state = true) : Inv { s with tx := primedTx smp s } := by
  obtain ⟨hpending, hphase, hmode, hfill⟩ := hi.priming hstate
  have hused := primedTx_used hi.tx hlen
  have hle : (primedTx smp s).used.toNat ≤ s.cfg.normalSize := by omega
  exact { hi with
    tx := ringOk_primedTx hi.tx hlen
    priming := fun _ => ⟨hpending, hphase, hmode, hle⟩
    init_blocks := fun hinit => by
      have hblocks := Nat.dvd_of_mod_eq_zero (hi.init_blocks hinit)
      rw [hused]
      exact Nat.mod_eq_zero_of_dvd (Dvd.dvd.add hblocks
        (dvd_primed (Nat.dvd_refl _) (blockLen_dvd_normalSize _) hblocks)) }

theorem directLength_dvd (s : State) : s.cfg.chans ∣ directLength s := by
  rw [← correctedLen_block]
  exact correctedLen_dvd _ _ (chans_dvd_blockLen _)

theorem steady_ne {x y : Transport} (h : isSteady x = true) (hy : isSteady y = false) : x ≠ y := by
  rintro rfl
  rw [h] at hy
  cases hy

theorem inv_direct {smp : List Sample} (hi : Inv s) (hlen : smp.length = s.cfg.blockLen)
    (hstate : isSteady s.state = true) (htx : s.tx.used.toNat + directLength s ≤ s.cfg.cap)
    (hrx : directLength s ≤ s.rx.used.toNat) : Inv (afterDirectBlock smp s) := by
  have hblock := DirectExchange.directBlock_length_eq hlen
  exact { hi with
    tx := ringOk_rbWrite hi.tx (by rw [hblock]; exact htx)
      (by rw [hblock]; exact directLength_dvd s)
    rx := ringOk_rbAdvance hi.rx hrx (directLength_dvd s)
    pending := nofun
    priming := fun h => absurd h (by simp [afterDirectBlock, steady_not_priming hstate])
    init_blocks := fun h => absurd h (steady_ne hstate rfl) }

theorem ringOk_batchRx (hrx : RingOk s.cfg s.rx) (hovf : ¬BlockOverflows s)
    (hunf : ¬BlockUnderflows s) : RingOk s.cfg (batchRx s) := by
  unfold batchRx
  split
  · rename_i hstart
    refine ringOk_rxCorrect hrx (fun hmode => ?_) (fun hmode => ?_)
    · have hT : s.cfg.transfer ≤ s.rx.used.toNat :=
        Nat.not_lt.1 fun h => hunf (.inl ⟨⟨hstart, hmode⟩, h⟩)
      have := transfer_eq s.cfg
      omega
    · exact Nat.not_lt.1 fun h => hovf (.inl ⟨hstart, hmode, h⟩)
  · exact hrx

theorem ringOk_batchTx {smp : List Sample} (htx : RingOk s.cfg s.tx)
    (hbb : s.bb.length = s.cfg.transfer) (hlen : smp.length = s.cfg.blockLen)
    (hovf : ¬BlockOverflows s) : RingOk s.cfg (batchTx smp s) := by
  have hout : (batchOutput s.cfg (blockMode s)
      (putBlock s.cfg.blockLen s.bphase.val s.bb smp)).length = batchLength s := by
    rw [batchOutput_length _ _ (putBlock_length s.bphase.isLt hbb hlen), correctedLen_batch]
  unfold batchTx
  split
  · rename_i hlast
    refine ringOk_rbWrite htx ?_ ?_ <;> rw [hout]
    · exact Nat.not_lt.1 fun h => hovf (.inr ⟨hlast, h⟩)
    · rw [← correctedLen_batch]
      exact correctedLen_dvd _ _ (chans_dvd_transfer _)
  · exact htx

/-- R188 (d): a mode is held in phases 1 and 2 only. -/
theorem batchMode_phase (b : Fin 3) (m : BatchMode)
    (h : (if b.val = 2 then BatchMode.none else m) ≠ .none) :
    (if b.val = 0 then 1 else if b.val = 1 then 2 else 0 : Fin 3) ≠ 0 := by
  have hlt := b.isLt
  split
  · decide
  · split
    · decide
    · exact absurd (if_pos (by omega)) h

theorem inv_batch {smp : List Sample} (hi : Inv s) (hlen : smp.length = s.cfg.blockLen)
    (hstate : isSteady s.state = true) (hcfg : s.cfg.resampled = true) (hovf : ¬BlockOverflows s)
    (hunf : ¬BlockUnderflows s) : Inv (afterBatchBlock smp s) :=
  { hi with
    tx := ringOk_batchTx hi.tx hi.bb_len hlen hovf
    rx := ringOk_rbAdvance (ringOk_batchRx hi.rx hovf hunf) (batchRx_used hi.rx hovf hunf)
      (chans_dvd_blockLen _)
    bb_len := putBlock_length s.bphase.isLt hi.bb_len hlen
    pending := fun h => hi.pending (by
      dsimp only [afterBatchBlock] at h
      split at h
      · cases h
      · exact h)
    batch := fun h => ⟨hcfg, batchMode_phase _ _ h⟩
    direct := fun h => absurd (hcfg.symm.trans h) (by decide)
    priming := fun h => absurd h (by simp [afterBatchBlock, steady_not_priming hstate])
    init_blocks := fun h => absurd h (steady_ne hstate rfl) }

theorem codecDoes_inv {smp : List Sample} {u : State} {out : List Word}
    (h : CodecDoes smp s u out) (hlen : smp.length = s.cfg.blockLen) (hi : Inv s) : Inv u := by
  cases h with
  | reinit => exact inv_transportReinit hi
  | inconsistent => exact inv_raise _ hi
  | priming hstate => exact inv_priming hi hlen hstate
  | direct hstate _ _ htx hrx => exact inv_direct hi hlen hstate htx (by omega)
  | batch hstate _ hcfg hovf hunf => exact inv_batch hi hlen hstate hcfg hovf hunf
  | failed => exact inv_raiseIf _ _ (inv_raiseIf _ _ hi)

/-! ## USB_SOF -/

theorem wrapU32_intervalOf_ne_zero (p : Params) (offset dwOk : BitVec 16) :
    wrapU32 (intervalOf p offset dwOk) ≠ 0 := by
  intro h
  have hnat := congrArg BitVec.toNat h
  rw [wrapU32_intervalOf_toNat] at hnat
  have hmin := p.min_pos
  simp at hnat
  omega

theorem inv_driftFrame (hi : Inv s) : Inv (driftFrame s) := by
  by_cases hlast : s.wfc.val = 99
  · by_cases hsum : windowSum s = 0
    · rw [driftFrame_clean hlast hsum]
      exact { hi with }
    · rw [driftFrame_dirty hlast hsum]
      exact { hi with interval := fun h => absurd h (wrapU32_intervalOf_ne_zero _ _ _) }
  · obtain ⟨frames, -, h⟩ := driftFrame_open hlast
    rw [h]
    exact { hi with }

theorem ringOk_clampRing {p : Params} {r : Ring} (h : RingOk p r) : RingOk p (clampRing p r) := by
  have hcap := cap_ge_transfers p
  have hlt := h.wr_lt
  have hused := clampRing_used p r
  have hrd := clampRing_rd p r
  have hframes := transfer_eq p
  refine ringOk_of (by omega) (by rw [hrd]; exact Nat.mod_lt _ (cap_pos p)) ?_ ?_ ?_ h.buf_wf h.buf_lt
  · rw [hused, hrd, Nat.mod_add_mod, show r.wr.toNat + p.cap - 2 * p.transfer + 2 * p.transfer
      = r.wr.toNat + p.cap by omega, Nat.add_mod_right, Nat.mod_eq_of_lt hlt]
    rfl
  · rw [hused]
    exact (chans_dvd_transfer p).mul_left 2
  · rw [hrd]
    refine (Nat.dvd_mod_iff (chans_dvd_cap p)).2 (Nat.dvd_sub ?_ ((chans_dvd_transfer p).mul_left 2))
    exact Dvd.dvd.add (Nat.dvd_of_mod_eq_zero h.wr_frames) (chans_dvd_cap p)

theorem ringOk_storeFrame {rxf : List Sample} {r : Ring} {p : Params} (h : RingOk p r)
    (hlen : rxf.length = p.transfer) (hroom : r.used.toNat + p.transfer ≤ p.cap) :
    RingOk p (rbWrite p.cap r rxf) :=
  ringOk_rbWrite h (by omega) (by rw [hlen]; exact chans_dvd_transfer p)

theorem inv_primingExits {rxf : List Sample} (hi : Inv s) (hlen : rxf.length = s.cfg.transfer)
    (hstate : isPriming s.state = true) (hroom : s.rx.used.toNat + s.cfg.transfer ≤ s.cfg.cap) :
    Inv { s with rx := clampRing s.cfg (rbWrite s.cfg.cap s.rx rxf), state := .normal } := by
  obtain ⟨hpending, -, -, -⟩ := hi.priming hstate
  exact { hi with
    rx := ringOk_clampRing (ringOk_storeFrame hi.rx hlen hroom)
    pending := fun h => absurd (hpending.symm.trans h) (by decide)
    priming := nofun
    init_blocks := nofun
    refill := nofun }

theorem inv_movedFrame {rxf : List Sample} (hi : Inv s) (hlen : rxf.length = s.cfg.transfer)
    (hstate : isSteady s.state = true) (htx : s.cfg.transfer ≤ s.tx.used.toNat)
    (hroom : s.rx.used.toNat + s.cfg.transfer ≤ s.cfg.cap) : Inv (movedFrame rxf s) :=
  { hi with
    tx := ringOk_rbAdvance hi.tx htx (chans_dvd_transfer _)
    rx := ringOk_storeFrame hi.rx hlen hroom
    priming := fun h => absurd h (by simp [movedFrame, steady_not_priming hstate])
    init_blocks := fun h => absurd h (steady_ne hstate rfl) }

theorem inv_leaveCorrection (hi : Inv s) (hstate : isSteady s.state = true) :
    Inv (leaveCorrection s) := by
  rw [leaveCorrection_steady hstate]
  by_cases h : s.corrPending = false
  · rw [if_pos h]
    exact { hi with
      pending := fun hp => absurd (h.symm.trans hp) Bool.false_ne_true
      priming := nofun
      init_blocks := nofun
      refill := nofun }
  · rw [if_neg h]
    exact { hi with }

/-- A correction is scheduled from a non-zero offset only, so an interval has been set (R161 e). -/
theorem inv_schedule (hi : Inv s) : Inv (schedule s) := by
  have hinterval : s.sampleOffset.toInt ≠ 0 → s.corrInterval ≠ 0 := fun hne h =>
    hne (by rw [hi.interval h]; rfl)
  rcases schedule_cases s with ⟨-, h⟩ | ⟨-, -, hpos, h⟩ | ⟨-, -, hneg, h⟩ <;> rw [h]
  · exact hi
  · exact { hi with
      pending := fun _ => .inl rfl
      priming := nofun
      init_blocks := nofun
      refill := nofun
      interval := fun h => absurd h (hinterval (by omega)) }
  · exact { hi with
      pending := fun _ => .inr (.inl rfl)
      priming := nofun
      init_blocks := nofun
      refill := nofun
      interval := fun h => absurd h (hinterval (by omega)) }

/-- R185: the refill primes again from a TX that holds less than a frame. -/
theorem inv_usbFailed {txOk rxOk : Bool} (hi : Inv s)
    (htx : txOk = true ↔ s.cfg.transfer ≤ s.tx.used.toNat) (hfail : (txOk && rxOk) = false) :
    Inv (usbFailed txOk rxOk s) := by
  rw [usbFailed_eq_of_checks hfail]
  by_cases h : s.cfg.underflowRefill = true ∧ txOk = false ∧ ¬rxOk = false
  · simp only [h]
    obtain ⟨hcfg, hshort, -⟩ := h
    have hsize : s.cfg.transfer ≤ s.cfg.normalSize := s.cfg.normal_ge
    rw [← Bool.not_eq_true, htx] at hshort
    have hle : s.tx.used.toNat ≤ s.cfg.normalSize := by omega
    exact { hi with
      pending := nofun
      batch := fun h => absurd rfl h
      direct := fun hd => ⟨rfl, rfl, (hi.direct hd).2.2⟩
      priming := fun _ => ⟨rfl, rfl, rfl, hle⟩
      init_blocks := nofun
      refill := fun _ => hcfg }
  · simp only [h, if_false]
    exact { inv_needsReset hi with }

theorem usbDoes_inv {rxf : List Sample} {u : State} {out : List Sample}
    (h : UsbDoes rxf s u out) (hlen : rxf.length = s.cfg.transfer) (hi : Inv s) : Inv u := by
  cases h with
  | discarded => exact hi
  | inconsistent => exact inv_raise _ hi
  | primingFull => exact inv_raise _ hi
  | primingStays _ _ hroom => exact { hi with rx := ringOk_storeFrame hi.rx hlen hroom }
  | primingExits hstate _ hroom => exact inv_primingExits hi hlen hstate hroom
  | moved hstate _ htx hroom =>
    exact inv_schedule (inv_leaveCorrection (inv_movedFrame hi hlen hstate htx hroom) hstate)
  | failed _ _ htx _ hfail => exact inv_usbFailed hi htx hfail

end

/-! ## Every command, every step, every run -/

theorem exec_inv {i : Instr} {s t : State} (hi : Inv s) (h : exec i s = .next t) : Inv t := by
  by_cases hcodec : i = .codecXchg
  · subst hcodec
    obtain ⟨d2h, u, out, -, hlen, hdoes, rfl⟩ := codecXchg_cases h
    exact inv_respondWake _ (codecDoes_inv hdoes (by simpa using hlen) (inv_countBlock hi))
  by_cases husb : i = .usbSof
  · subst husb
    obtain ⟨rxb, u, out, -, hlen, hdoes, rfl⟩ := usbSof_cases h
    exact inv_respond _ _ _ (usbDoes_inv hdoes (by simpa using samplesOfBytes_length hlen)
      (inv_driftFrame hi))
  obtain ⟨status, data, out, u, hdoes, rfl⟩ := control_cases hcodec husb h
  exact inv_respond _ _ _ (controlDoes_inv hdoes hi)

/-- Settles O46: an idle step, an illegal word, or a command of which every outcome keeps Inv. -/
theorem stepKeepsInvariant : Obligations.StepKeepsInvariant := by
  intro s t hi h
  rcases step_next_cases h with ⟨-, rfl⟩ | ⟨c, rest, why, -, -, rfl⟩ | ⟨c, rest, i, u, -, -, hu, rfl⟩
  · exact hi
  · exact inv_port _ (inv_respond _ _ _ hi)
  · exact inv_port _ (exec_inv hi hu)

theorem step_cfg {s t : State} (h : step s = .next t) : t.cfg = s.cfg := by
  rcases step_next_cases h with ⟨-, rfl⟩ | ⟨c, rest, why, -, -, rfl⟩ | ⟨c, rest, i, u, -, -, hu, rfl⟩
  · rfl
  · rfl
  · exact (exec_cfg hu :)

theorem inv_resetOf (p : Params) : Inv (State.resetOf p) where
  tx := ringOk_reset p
  rx := ringOk_reset p
  mute_len := List.length_replicate
  volume_len := List.length_replicate
  bb_len := List.length_replicate
  rate_ok := .inr (.inl rfl)
  pending := nofun
  batch := fun h => absurd rfl h
  direct := fun _ => ⟨rfl, rfl, rfl⟩
  priming := fun _ => ⟨rfl, rfl, rfl, Nat.zero_le _⟩
  init_blocks := fun _ => Nat.zero_mod _
  refill := nofun
  interval := fun _ => rfl

/-- Settles O45. -/
theorem resetMeetsInvariant : Obligations.ResetMeetsInvariant := ⟨inv_resetOf _, inv_resetOf⟩

theorem run_succ {k : Nat} {s t : State}
    (h : Host.Core.run Sys2Proof.core (k + 1) s = .next t) :
    ∃ u : State, step s = .next u ∧ Host.Core.run Sys2Proof.core k u = .next t := by
  simp only [Host.Core.run] at h
  split at h
  case h_1 u hstep => exact ⟨u, hstep, h⟩
  all_goals cases h

/-- What holds and is kept by every step is kept by every run. -/
theorem run_inv (k : Nat) : ∀ {s t : State}, Inv s →
    Host.Core.run Sys2Proof.core k s = .next t → Inv t ∧ t.cfg = s.cfg := by
  induction k with
  | zero =>
    rintro s t hi ⟨⟩
    exact ⟨hi, rfl⟩
  | succ k ih =>
    intro s t hi h
    obtain ⟨u, hstep, hrun⟩ := run_succ h
    obtain ⟨ht, hcfg⟩ := ih (stepKeepsInvariant s u hi hstep) hrun
    exact ⟨ht, hcfg.trans (step_cfg hstep)⟩

/-- Settles O47: the invariant at reset, carried along the run. -/
theorem everyRunFromResetIsSound : Obligations.EveryRunFromResetIsSound :=
  fun p cmds k _ h => run_inv k (inv_port cmds (inv_resetOf p)) h

/-! ## No consistency error -/

theorem raiseIf_cons {c : Cause} (hc : c ≠ .consistency) (b : Bool) (s : State) :
    (raiseIf b c s).flags.getLsbD 3 = s.flags.getLsbD 3 := by
  cases b
  · rfl
  · have hbit : (flagBit c).getLsbD 3 = false := by
      cases c
      case consistency => exact absurd rfl hc
      all_goals rfl
    rw [raiseIf, if_pos rfl, raise_flags, setFlag_getLsbD, hbit, Bool.or_false]

theorem codecDoes_cons {smp : List Sample} {s u : State} {out : List Word}
    (h : CodecDoes smp s u out) (hrings : RingsAgree s) :
    u.flags.getLsbD 3 = s.flags.getLsbD 3 := by
  cases h with
  | inconsistent _ hno => exact absurd hrings hno
  | failed => rw [raiseIf_cons (c := .underflow) nofun, raiseIf_cons (c := .overflow) nofun]
  | _ => rfl

theorem usbDoes_cons {rxf : List Sample} {s u : State} {out : List Sample}
    (h : UsbDoes rxf s u out) (hrings : RingsAgree s) :
    u.flags.getLsbD 3 = s.flags.getLsbD 3 := by
  cases h with
  | inconsistent _ hno => exact absurd hrings hno
  | primingFull => exact raiseIf_cons (c := .overflow) nofun true s
  | moved => rw [schedule_frame]; rfl
  | @failed txOk rxOk =>
    have hraised : (usbFailed txOk rxOk s).flags.getLsbD 3
        = (raiseIf (!rxOk) .overflow (raiseIf (!txOk) .underflow s)).flags.getLsbD 3 := by
      unfold usbFailed
      split <;> rfl
    rw [hraised, raiseIf_cons (c := .overflow) nofun, raiseIf_cons (c := .underflow) nofun]
  | _ => rfl

theorem controlDoes_cons {i : Instr} {s u : State} (h : ControlDoes s i u)
    (hcons : s.flags.getLsbD 3 = false) : u.flags.getLsbD 3 = false := by
  cases h with
  | overload => exact (raiseIf_cons (c := .overload) nofun true s).trans hcons
  | rdFlags => exact BitVec.getLsbD_zero
  | _ => exact hcons

theorem exec_cons {i : Instr} {s t : State} (hi : Inv s) (h : exec i s = .next t)
    (hcons : s.flags.getLsbD 3 = false) : t.flags.getLsbD 3 = false := by
  by_cases hcodec : i = .codecXchg
  · subst hcodec
    obtain ⟨d2h, u, out, -, -, hdoes, rfl⟩ := codecXchg_cases h
    exact (codecDoes_cons hdoes (inv_ringsAgree (inv_countBlock hi))).trans hcons
  by_cases husb : i = .usbSof
  · subst husb
    obtain ⟨rxb, u, out, -, -, hdoes, rfl⟩ := usbSof_cases h
    have hkept := usbDoes_cons hdoes (inv_ringsAgree (inv_driftFrame hi))
    rw [driftFrame_flags] at hkept
    exact hkept.trans hcons
  obtain ⟨status, data, out, u, hdoes, rfl⟩ := control_cases hcodec husb h
  exact (controlDoes_cons hdoes hcons :)

/-- Settles O48: the rings of a sound state pass the check, and nothing else sets the bit. -/
theorem noConsistencyErrorFromSoundState : Obligations.NoConsistencyErrorFromSoundState := by
  intro s t hi h hcons
  rcases step_next_cases h with ⟨-, rfl⟩ | ⟨c, rest, why, -, -, rfl⟩ | ⟨c, rest, i, u, -, -, hu, rfl⟩
  · exact hcons
  · exact hcons
  · exact (exec_cons hi hu hcons :)

end Sys2Proof.Proofs.Invariant

/-! Further laws of the resampler (40_resampler.md R120, R127, R133) and the bytes of a USB frame
(20_memory.md R70). -/

namespace Sys2Proof.Proofs.ResamplerLaws

open Sys2Proof Sys2Proof.Machine Sys2Proof.Laws Sys2Proof.Proofs.Resampler

/-- Settles O9. -/
theorem sampleLerpIsExact : Obligations.SampleLerpIsExact := fun a b _ hf => lerpSample_toInt a b hf

/-! ## One output sample -/

/-- Bounds of both ends bound the sample between them (R120 c). -/
theorem lerpSample_bounds {a b : Sample} {lo hi : Int} {f : Nat} (hf : f ≤ 65536)
    (ha : lo ≤ a.toInt ∧ a.toInt ≤ hi) (hb : lo ≤ b.toInt ∧ b.toInt ≤ hi) :
    lo ≤ (lerpSample a b f).toInt ∧ (lerpSample a b f).toInt ≤ hi := by
  obtain ⟨hmin, hmax⟩ := lerp_mem a.toInt b.toInt (f := f) (by omega) (by omega)
  rw [lerpSample_toInt a b hf]
  omega

/-- Between a rising pair, a larger fraction gives no smaller sample. -/
theorem lerpSample_mono {a b : Sample} {f g : Nat} (hab : a.toInt ≤ b.toInt) (hfg : f ≤ g)
    (hg : g ≤ 65536) : (lerpSample a b f).toInt ≤ (lerpSample a b g).toInt := by
  have hprod : (b.toInt - a.toInt) * f ≤ (b.toInt - a.toInt) * g :=
    mul_le_mul_of_nonneg_left (by omega) (by omega)
  rw [lerpSample_toInt a b (hfg.trans hg), lerpSample_toInt a b hg, lerp_eq, lerp_eq]
  omega

theorem lerpSample_mem_of_le {a b : Sample} {f : Nat} (hab : a.toInt ≤ b.toInt) (hf : f ≤ 65536) :
    a.toInt ≤ (lerpSample a b f).toInt ∧ (lerpSample a b f).toInt ≤ b.toInt :=
  lerpSample_bounds hf ⟨le_refl _, hab⟩ ⟨hab, le_refl _⟩

/-! ## The two operators -/

/-- Settles O12: each output sample lies between two input samples. -/
theorem resampledSamplesStayInRange : Obligations.ResampledSamplesStayInRange := by
  intro ch src c lo hi hc hbounds
  constructor
  · intro i hi
    rw [frameSample_shrink src hi hc]
    exact lerpSample_bounds (by omega) (hbounds i (by omega)) (hbounds (i + 1) (by omega))
  · intro i hi
    rw [frameSample_stretch src hi hc]
    exact lerpSample_bounds (by omega) (hbounds _ (by omega)) (hbounds _ (by omega))

/-- Settles O14: each output sample is made of two input samples of its channel. -/
theorem channelsAreIndependentLanes : Obligations.ChannelsAreIndependentLanes := by
  intro ch src src' c hc hsame
  constructor
  · intro i hi
    rw [frameSample_shrink src hi hc, frameSample_shrink src' hi hc, hsame i (by omega),
      hsame (i + 1) (by omega)]
  · intro i hi
    rw [frameSample_stretch src hi hc, frameSample_stretch src' hi hc, hsame _ (by omega),
      hsame _ (by omega)]

/-- Settles O13: neighbouring output frames of shrink, and the inner ones of stretch, have an input frame
between them; the first two and the last two frames of stretch lie between the same pair. -/
theorem resamplerKeepsOrder : Obligations.ResamplerKeepsOrder := by
  intro ch src c hc hmono
  constructor
  · intro i hi
    rw [frameSample_shrink src (by omega) hc, frameSample_shrink src (by omega) hc]
    exact (lerpSample_mem_of_le (hmono i (by omega)) (by omega)).2.trans
      (lerpSample_mem_of_le (hmono (i + 1) (by omega)) (by omega)).1
  · intro i hi
    have hrow : ∀ k, 1 ≤ k → k ≤ 47 →
        frameSample ch.count (stretch ch.count src) k c = lerpSample (frameSample ch.count src (k - 1) c)
          (frameSample ch.count src k c) (65536 - 1366 * k) := fun k h1 h47 =>
      frameSample_stretch_inner src h1 h47 hc
    have hpair : ∀ k, 1 ≤ k → k ≤ 47 → (frameSample ch.count src (k - 1) c).toInt
        ≤ (frameSample ch.count src k c).toInt := fun k h1 h47 => by
      have h := hmono (k - 1) (by omega)
      rwa [Nat.sub_add_cancel h1] at h
    rcases (by omega : i = 0 ∨ i = 47 ∨ (1 ≤ i ∧ i ≤ 46)) with rfl | rfl | ⟨h1, h46⟩
    · rw [frameSample_stretch src (by decide) hc, frameSample_stretch src (by decide) hc]
      exact lerpSample_mono (hmono 0 (by decide)) (by decide) (by decide)
    · rw [frameSample_stretch src (by decide) hc, frameSample_stretch src (by decide) hc]
      exact lerpSample_mono (hmono 46 (by decide)) (by decide) (by decide)
    · rw [hrow i h1 (by omega), hrow (i + 1) (by omega) (by omega)]
      exact (lerpSample_mem_of_le (hpair i h1 (by omega)) (by omega)).2.trans
        (lerpSample_mem_of_le (hpair (i + 1) (by omega) (by omega)) (by omega)).1

/-! ## The bytes of a USB frame -/

/-- Two bytes as one two's-complement sample, low byte first. -/
theorem append_toInt (hi lo : Byte) :
    (hi ++ lo : Sample).toInt
      = ((lo.toNat + 256 * hi.toNat : Nat) : Int) - (if 128 ≤ hi.toNat then 65536 else 0) := by
  have hlo := lo.isLt
  have hhi := hi.isLt
  have happ : (hi ++ lo : Sample).toNat = lo.toNat + 256 * hi.toNat := by
    rw [BitVec.toNat_append, ← Nat.shiftLeft_add_eq_or_of_lt hlo, Nat.shiftLeft_eq]
    omega
  rw [BitVec.toInt_eq_toNat_cond, happ]
  split <;> split <;> omega

theorem samplesOfBytes_getD_toInt : ∀ {n : Nat} {l : List Byte}, l.length = 2 * n → ∀ k < n,
    ((samplesOfBytes l).getD k 0).toInt =
      (((l.getD (2 * k) 0).toNat + 256 * (l.getD (2 * k + 1) 0).toNat : Nat) : Int)
        - (if 128 ≤ (l.getD (2 * k + 1) 0).toNat then 65536 else 0)
  | n + 1, lo :: hi :: l, _, 0, _ => append_toInt hi lo
  | n + 1, lo :: hi :: l, h, k + 1, hk => by
    have ih := samplesOfBytes_getD_toInt (n := n) (l := l) (by simp at h; omega) k (by omega)
    have hlow : (lo :: hi :: l).getD (2 * (k + 1)) 0 = l.getD (2 * k) 0 := rfl
    have hhigh : (lo :: hi :: l).getD (2 * (k + 1) + 1) 0 = l.getD (2 * k + 1) 0 := rfl
    rw [hlow, hhigh]
    exact ih
  | n + 1, [_], h, _, _ => by simp at h; omega
  | n + 1, [], h, _, _ => by simp at h

theorem bytesOfSamples_samplesOfBytes : ∀ {n : Nat} {l : List Byte}, l.length = 2 * n →
    bytesOfSamples (samplesOfBytes l) = l
  | _, [], _ => rfl
  | n + 1, lo :: hi :: l, h => by
    have hlow : (hi ++ lo : Sample).extractLsb' 0 8 = lo := BitVec.extractLsb'_append_eq_right
    have hhigh : (hi ++ lo : Sample).extractLsb' 8 8 = hi := BitVec.extractLsb'_append_eq_left
    rw [samplesOfBytes, bytesOfSamples, hlow, hhigh,
      bytesOfSamples_samplesOfBytes (n := n) (by simp at h; omega)]
  | n, [_], h => by simp at h; omega
  | 0, _ :: _ :: _, h => by simp at h

theorem samplesOfBytes_bytesOfSamples : ∀ v : List Sample, samplesOfBytes (bytesOfSamples v) = v
  | [] => rfl
  | x :: v => by
    have hx : x.extractLsb' 8 8 ++ x.extractLsb' 0 8 = x :=
      (BitVec.extractLsb'_append_extractLsb'_eq_extractLsb' rfl).trans BitVec.extractLsb'_eq_self
    rw [bytesOfSamples, samplesOfBytes, hx, samplesOfBytes_bytesOfSamples v]

/-- Settles O16: the value of a sample, and the two round trips. -/
theorem usbFramesAreLittleEndian : Obligations.UsbFramesAreLittleEndian :=
  ⟨fun _ _ h => ⟨samplesOfBytes_length h, samplesOfBytes_getD_toInt h,
    bytesOfSamples_samplesOfBytes h⟩,
    fun v => ⟨bytesOfSamples_length v, samplesOfBytes_bytesOfSamples v⟩⟩

end Sys2Proof.Proofs.ResamplerLaws

/-! Rings as queues (20_memory.md R64 to R68): the live samples after each ring operation, and that the
operations never show what a free location holds. -/

namespace Sys2Proof.Proofs.Queue

open Sys2Proof Sys2Proof.Machine Sys2Proof.Laws Sys2Proof.Proofs.Transport

/-- The live samples of a ring, oldest first. -/
def live (cap : Nat) (r : Ring) : List Sample := oldest cap r r.used.toNat

@[simp] theorem live_length (cap : Nat) (r : Ring) : (live cap r).length = r.used.toNat :=
  oldest_length cap r _

theorem oldest_getElem {cap : Nat} {r : Ring} {n k : Nat} (h : k < (oldest cap r n).length) :
    (oldest cap r n)[k] = memRead r.buf ((r.rd.toNat + k) % cap) := by simp [oldest]

theorem live_getElem {cap : Nat} {r : Ring} {k : Nat} (h : k < (live cap r).length) :
    (live cap r)[k] = memRead r.buf ((r.rd.toNat + k) % cap) := oldest_getElem h

/-- What an exchange reads is the front of the live samples (R65). -/
theorem oldest_eq_take_live {cap : Nat} {r : Ring} {n : Nat} (h : n ≤ r.used.toNat) :
    oldest cap r n = (live cap r).take n := by
  refine List.ext_getElem (by simp [h]) fun k h1 h2 => ?_
  rw [List.getElem_take, live_getElem, oldest_getElem]

/-- A run no longer than the ring touches no location twice (R61). -/
theorem mod_run_inj {cap a j k : Nat} (hj : j < cap) (hk : k < cap)
    (h : (a + j) % cap = (a + k) % cap) : j = k :=
  wrapAddr_run_inj (cap := cap) a hj hk (by
    rw [← Int.natCast_add, ← Int.natCast_add, wrapAddr_natCast, wrapAddr_natCast, h])

/-! ## The operations on the live samples -/

/-- R65: reading takes samples from the front. -/
theorem live_of_consumed {cap : Nat} {r r' : Ring} {n : Nat} (h : Consumed cap r r' n) :
    live cap r' = (live cap r).drop n := by
  obtain ⟨-, hbuf, hrd, hused⟩ := h
  refine List.ext_getElem (by simp; omega) fun k h1 h2 => ?_
  rw [List.getElem_drop, live_getElem, live_getElem, hbuf, hrd, Nat.mod_add_mod, Nat.add_assoc]

/-- R64: writing puts samples behind the live ones. -/
theorem live_of_stored {cap : Nat} {r r' : Ring} {v : List Sample} (h : Stored cap r r' v)
    (hwr : r.wr.toNat = (r.rd.toNat + r.used.toNat) % cap)
    (hroom : r.used.toNat + v.length ≤ cap) : live cap r' = live cap r ++ v := by
  obtain ⟨hrd, -, hused, hat, hother⟩ := h
  refine List.ext_getElem (by simp [hused]) fun k h1 h2 => ?_
  have hk : k < r.used.toNat + v.length := by simpa [hused] using h1
  have hrun : ∀ j, (r.wr.toNat + j) % cap = (r.rd.toNat + (r.used.toNat + j)) % cap := fun j => by
    rw [hwr, Nat.mod_add_mod, Nat.add_assoc]
  rw [live_getElem, hrd, List.getElem_append]
  split
  · rename_i hold
    rw [live_length] at hold
    rw [live_getElem]
    refine hother _ fun j hj heq => ?_
    rw [hrun] at heq
    have := mod_run_inj (by omega) (by omega) heq
    omega
  · rename_i hnew
    rw [live_length] at hnew
    have hval := hat (k - r.used.toNat) (by omega)
    rw [hrun, Nat.add_sub_cancel' (by omega)] at hval
    simpa using hval

/-- R177: an in-place correction replaces the `T` oldest samples by `v`. -/
theorem live_of_corrected {cap rd used T : Nat} {r r' : Ring} {v : List Sample}
    (h : Corrected cap r r' rd used v) (hrd : (rd + v.length) % cap = (r.rd.toNat + T) % cap)
    (hused : used + T = r.used.toNat + v.length) (hT : T ≤ r.used.toNat) (hcap : used ≤ cap) :
    live cap r' = v ++ (live cap r).drop T := by
  obtain ⟨-, hrd', hused', hat, hother⟩ := h
  refine List.ext_getElem (by simp; omega) fun k h1 h2 => ?_
  have hk : k < used := by simpa [hused'] using h1
  rw [live_getElem, hrd', List.getElem_append]
  split
  · exact hat k ‹_›
  · rename_i hrest
    rw [List.getElem_drop, live_getElem, hother]
    · have hloc : rd + k = rd + v.length + (k - v.length) := by omega
      rw [hloc, ← Nat.mod_add_mod, hrd, Nat.mod_add_mod, Nat.add_assoc]
    · intro j hj heq
      have := mod_run_inj (by omega) (by omega) heq
      omega

theorem live_rbAdvance {p : Params} {r : Ring} {n : Nat} (h : n ≤ r.used.toNat) :
    live p.cap (rbAdvance p.cap r n) = (live p.cap r).drop n :=
  live_of_consumed (rbAdvance_consumed (cap_pos p) (cap_lt_pow p) h)

theorem live_rbWrite {p : Params} {r : Ring} {v : List Sample} (hr : RingOk p r)
    (hroom : r.used.toNat + v.length ≤ p.cap) :
    live p.cap (rbWrite p.cap r v) = live p.cap r ++ v :=
  live_of_stored (rbWrite_stored (cap_pos p) (cap_lt_pow p) hr.buf_wf hroom) (ringOk_wr hr) hroom

/-- Settles O20: writing appends to the live samples, reading drops from their front. -/
theorem ringIsFirstInFirstOut : Obligations.RingIsFirstInFirstOut :=
  fun _ _ hr => ⟨fun _ hroom => live_rbWrite hr hroom, fun _ hn =>
    ⟨(rbPeek_eq_oldest _ _ _).trans (oldest_eq_take_live hn), live_rbAdvance hn⟩⟩

/-- R183: the clamp keeps the newest `2 T` samples. -/
theorem live_clampRing {p : Params} {r : Ring} (hr : RingOk p r)
    (h : 2 * p.transfer ≤ r.used.toNat) :
    live p.cap (clampRing p r) = (live p.cap r).drop (r.used.toNat - 2 * p.transfer) := by
  have hused := clampRing_used p r
  have hbound := cap_ge_transfers p
  refine live_of_consumed ⟨rfl, rfl, ?_, by omega⟩
  have hq := Nat.div_add_mod (r.rd.toNat + r.used.toNat) p.cap
  rw [clampRing_rd, ringOk_wr hr]
  calc ((r.rd.toNat + r.used.toNat) % p.cap + p.cap - 2 * p.transfer) % p.cap
      = (p.cap * ((r.rd.toNat + r.used.toNat) / p.cap)
          + ((r.rd.toNat + r.used.toNat) % p.cap + p.cap - 2 * p.transfer)) % p.cap :=
        (Nat.mul_add_mod _ _ _).symm
    _ = (r.rd.toNat + (r.used.toNat - 2 * p.transfer) + p.cap) % p.cap := by
        congr 1
        omega
    _ = (r.rd.toNat + (r.used.toNat - 2 * p.transfer)) % p.cap := Nat.add_mod_right _ _

/-- What an in-place correction makes of the live samples (R177). -/
def correctedLive (p : Params) (m : BatchMode) (l : List Sample) : List Sample :=
  match m with
  | .none => l
  | .remove => stretch p.chans (l.take p.transfer) ++ l.drop p.transfer
  | .duplicate => shrink p.chans (l.take p.transfer) ++ l.drop p.transfer

theorem live_rxCorrect {p : Params} {m : BatchMode} {r : Ring} (hr : RingOk p r)
    (hu : m ≠ .none → p.transfer ≤ r.used.toNat)
    (ho : m = .remove → r.used.toNat + p.chans ≤ p.cap) :
    live p.cap (rxCorrect p m r) = correctedLive p m (live p.cap r) := by
  have hframes := transfer_eq p
  have hcap := hr.used_le
  cases m with
  | none => rfl
  | remove =>
    have hT := hu (by decide)
    have h := rxCorrect_remove hr.buf_wf (ho rfl)
    rw [oldest_eq_take_live hT] at h
    refine live_of_corrected h ?_ ?_ hT (ho rfl)
    · rw [wrapAddr_sub (show p.chans ≤ r.rd.toNat + p.cap by omega), Nat.mod_add_mod, stretch_length,
        show r.rd.toNat + p.cap - p.chans + 49 * p.chans = r.rd.toNat + p.transfer + p.cap by omega,
        Nat.add_mod_right]
    · simp; omega
  | duplicate =>
    have hT := hu (by decide)
    have h := rxCorrect_duplicate hr.buf_wf (show p.chans ≤ r.used.toNat by omega)
    rw [oldest_eq_take_live hT] at h
    refine live_of_corrected h ?_ ?_ hT (by omega)
    · rw [Nat.mod_add_mod, shrink_length,
        show r.rd.toNat + p.chans + 47 * p.chans = r.rd.toNat + p.transfer by omega]
    · simp; omega

/-! ## Rings that differ in free locations only -/

section

variable {p : Params} {r r' : Ring}

theorem sameLive_refl (cap : Nat) (r : Ring) : SameLive cap r r := ⟨rfl, rfl, rfl, rfl⟩

theorem sameLive_iff {cap : Nat} : SameLive cap r r' ↔
    r'.rd = r.rd ∧ r'.wr = r.wr ∧ r'.used = r.used ∧ live cap r' = live cap r := by
  unfold SameLive live
  constructor <;> rintro ⟨hrd, hwr, hused, h⟩ <;> refine ⟨hrd, hwr, hused, ?_⟩
  · rwa [hused]
  · rwa [hused] at h

/-- Such a ring is the other one with another storage. -/
theorem sameLive_eq {cap : Nat} (h : SameLive cap r r') : r' = { r with buf := r'.buf } := by
  obtain ⟨hrd, hwr, hused, -⟩ := h
  rw [← hrd, ← hwr, ← hused]

theorem sameLive_oldest {cap n : Nat} (h : SameLive cap r r') (hn : n ≤ r.used.toNat) :
    oldest cap r' n = oldest cap r n := by
  obtain ⟨-, -, hused, hlive⟩ := sameLive_iff.1 h
  rw [oldest_eq_take_live hn, oldest_eq_take_live (by rwa [hused]), hlive]

theorem sameLive_rbAdvance {n : Nat} (h : SameLive p.cap r r') (hn : n ≤ r.used.toNat) :
    SameLive p.cap (rbAdvance p.cap r n) (rbAdvance p.cap r' n) := by
  obtain ⟨hrd, hwr, hused, hlive⟩ := sameLive_iff.1 h
  refine sameLive_iff.2 ⟨?_, hwr, ?_, ?_⟩
  · simp only [rbAdvance, hrd]
  · simp only [rbAdvance, hused]
  · rw [live_rbAdvance hn, live_rbAdvance (by rwa [hused]), hlive]

theorem sameLive_rbWrite {v : List Sample} (h : SameLive p.cap r r') (hr : RingOk p r)
    (hr' : RingOk p r') (hroom : r.used.toNat + v.length ≤ p.cap) :
    SameLive p.cap (rbWrite p.cap r v) (rbWrite p.cap r' v) := by
  obtain ⟨hrd, hwr, hused, hlive⟩ := sameLive_iff.1 h
  refine sameLive_iff.2 ⟨hrd, ?_, ?_, ?_⟩
  · simp only [rbWrite, hwr]
  · simp only [rbWrite, hused]
  · rw [live_rbWrite hr hroom, live_rbWrite hr' (by rwa [hused]), hlive]

theorem sameLive_clampRing (h : SameLive p.cap r r') (hr : RingOk p r) (hr' : RingOk p r')
    (hn : 2 * p.transfer ≤ r.used.toNat) :
    SameLive p.cap (clampRing p r) (clampRing p r') := by
  obtain ⟨-, hwr, hused, hlive⟩ := sameLive_iff.1 h
  refine sameLive_iff.2 ⟨?_, hwr, rfl, ?_⟩
  · simp only [clampRing, hwr]
  · rw [live_clampRing hr hn, live_clampRing hr' (by rwa [hused]), hlive, hused]

theorem rxCorrect_cursors (m : BatchMode) (hrd : r'.rd = r.rd) (hused : r'.used = r.used) :
    (rxCorrect p m r').rd = (rxCorrect p m r).rd
      ∧ (rxCorrect p m r').used = (rxCorrect p m r).used := by
  cases m <;> simp only [rxCorrect, hrd, hused, and_self]

theorem sameLive_rxCorrect {m : BatchMode} (h : SameLive p.cap r r') (hr : RingOk p r)
    (hr' : RingOk p r') (hu : m ≠ .none → p.transfer ≤ r.used.toNat)
    (ho : m = .remove → r.used.toNat + p.chans ≤ p.cap) :
    SameLive p.cap (rxCorrect p m r) (rxCorrect p m r') := by
  obtain ⟨hrd, hwr, hused, hlive⟩ := sameLive_iff.1 h
  obtain ⟨hrd', hused'⟩ := rxCorrect_cursors (p := p) m hrd hused
  refine sameLive_iff.2 ⟨hrd', ?_, hused', ?_⟩
  · rw [WholeMachine.rxCorrect_wr, WholeMachine.rxCorrect_wr, hwr]
  · rw [live_rxCorrect hr hu ho, live_rxCorrect hr' (by rwa [hused]) (by rwa [hused]), hlive]

end

end Sys2Proof.Proofs.Queue

/-! Free locations (20_memory.md R68): two sound states that differ in them only are taken by every
command to two such states with the same answer. -/

namespace Sys2Proof.Proofs.FreeLocations

open Sys2Proof Sys2Proof.Machine Sys2Proof.Laws Sys2Proof.Proofs.Transport
  Sys2Proof.Proofs.Outcomes Sys2Proof.Proofs.Queue

/-- Two states that differ in free locations of the rings only. -/
structure Twins (s s' : State) : Prop where
  rest : s' = { s with tx := s'.tx, rx := s'.rx }
  tx : SameLive s.cfg.cap s.tx s'.tx
  rx : SameLive s.cfg.cap s.rx s'.rx

/-- A state with other storages and the same cursors and occupancies: no check tells it from `s`. -/
def withStorage (s : State) (m n : Memory) : State :=
  { s with tx := { s.tx with buf := m }, rx := { s.rx with buf := n } }

theorem twins_storage {s s' : State} (h : Twins s s') :
    s' = withStorage s s'.tx.buf s'.rx.buf := by
  obtain ⟨hrest, htx, hrx⟩ := h
  rw [hrest, withStorage, ← sameLive_eq htx, ← sameLive_eq hrx]

section

variable {s : State} {m n : Memory}

/-- `f` neither reads nor writes the rings, and keeps the parameters. -/
def IgnoresRings (f : State → State) : Prop :=
  ∀ (s : State) (a b : Ring),
    f { s with tx := a, rx := b } = { f s with tx := a, rx := b } ∧ (f s).cfg = s.cfg

theorem twins_of_ignoresRings {f : State → State} (hf : IgnoresRings f) {s' : State}
    (h : Twins s s') : Twins (f s) (f s') := by
  obtain ⟨hrest, htx, hrx⟩ := h
  have hs : f s = { f s with tx := s.tx, rx := s.rx } := (hf s s.tx s.rx).1
  have hs' : f s' = { f s with tx := s'.tx, rx := s'.rx } := by
    rw [hrest]
    exact (hf s s'.tx s'.rx).1
  have hcfg := (hf s s.tx s.rx).2
  rw [hs']
  refine ⟨rfl, ?_, ?_⟩ <;> rw [hs] <;> simpa only [hcfg]

theorem raiseIf_ignoresRings (b : Bool) (c : Cause) : IgnoresRings (raiseIf b c) := by
  intro s x y
  cases b <;> exact ⟨rfl, rfl⟩

theorem leaveCorrection_ignoresRings : IgnoresRings leaveCorrection := fun _ _ _ => ⟨rfl, rfl⟩

theorem schedule_ignoresRings : IgnoresRings schedule := by
  intro s a b
  refine ⟨?_, by rw [WholeMachine.schedule_frame]⟩
  simp only [schedule]
  split
  · split <;> rfl
  · rfl

theorem usbFailed_ignoresRings (txOk rxOk : Bool) : IgnoresRings (usbFailed txOk rxOk) := by
  intro s a b
  simp only [usbFailed]
  cases txOk <;> cases rxOk <;> cases s.cfg.underflowRefill <;> exact ⟨rfl, rfl⟩

theorem driftFrame_ignoresRings : IgnoresRings driftFrame := by
  intro s a b
  refine ⟨?_, Drift.driftFrame_cfg s⟩
  by_cases hlast : s.wfc.val = 99
  · by_cases hsum : Drift.windowSum s = 0
    · rw [Drift.driftFrame_clean hlast hsum,
        Drift.driftFrame_clean (s := { s with tx := a, rx := b }) hlast hsum]
    · rw [Drift.driftFrame_dirty hlast hsum,
        Drift.driftFrame_dirty (s := { s with tx := a, rx := b }) hlast hsum]
      rfl
  · obtain ⟨frames, hframes, h⟩ := Drift.driftFrame_open hlast
    obtain ⟨frames', hframes', h'⟩ :=
      Drift.driftFrame_open (s := { s with tx := a, rx := b }) hlast
    obtain rfl : frames' = frames := Fin.ext (hframes'.trans hframes.symm)
    rw [h, h']
    rfl

theorem twins_raiseIf (b : Bool) (c : Cause) {s' : State} (h : Twins s s') :
    Twins (raiseIf b c s) (raiseIf b c s') :=
  twins_of_ignoresRings (raiseIf_ignoresRings b c) h

/-- Two results of an exchange: twin states and the same samples. -/
structure TwinResults {α : Type} (x x' : State × List α) : Prop where
  states : Twins x.1 x'.1
  out : x'.2 = x.2

/-! ### The codec side -/

theorem codecPriming_twins {smp : List Sample} (h : Twins s (withStorage s m n)) (hi : Inv s)
    (hi' : Inv (withStorage s m n)) :
    TwinResults (codecPriming smp s) (codecPriming smp (withStorage s m n)) := by
  have htx : SameLive s.cfg.cap (primedTx smp s) (primedTx smp (withStorage s m n)) := by
    have hprimed : primedTx smp (withStorage s m n)
        = if 0 < min s.cfg.blockLen (s.cfg.normalSize - s.tx.used.toNat) then
            rbWrite s.cfg.cap (withStorage s m n).tx
              (smp.take (min s.cfg.blockLen (s.cfg.normalSize - s.tx.used.toNat)))
          else (withStorage s m n).tx := rfl
    rw [hprimed, primedTx]
    split
    · refine sameLive_rbWrite h.tx hi.tx hi'.tx ?_
      have hsize := normalSize_le_cap s.cfg
      rw [List.length_take]
      omega
    · exact h.tx
  rw [codecPriming_eq, codecPriming_eq]
  exact ⟨⟨rfl, htx, h.rx⟩, rfl⟩

theorem codecDirect_twins {smp : List Sample} (h : Twins s (withStorage s m n)) (hi : Inv s)
    (hi' : Inv (withStorage s m n)) (hlen : smp.length = s.cfg.blockLen) :
    TwinResults (codecDirect smp s) (codecDirect smp (withStorage s m n)) := by
  by_cases hfail : s.cfg.cap < s.tx.used.toNat + directLength s
      ∨ s.rx.used.toNat < max s.cfg.blockLen (directLength s)
  · obtain ⟨ovf, unf, ho, hu, heq⟩ := DirectExchange.codecDirect_fails hlen hfail
    obtain ⟨ovf', unf', ho', hu', heq'⟩ :=
      DirectExchange.codecDirect_fails (s := withStorage s m n) hlen hfail
    obtain rfl : ovf' = ovf := Bool.eq_iff_iff.2 (ho'.trans ho.symm)
    obtain rfl : unf' = unf := Bool.eq_iff_iff.2 (hu'.trans hu.symm)
    rw [heq, heq']
    exact ⟨twins_raiseIf _ _ (twins_raiseIf _ _ h), rfl⟩
  · obtain ⟨htx, hrx⟩ := not_or.1 hfail
    have hroom := Nat.not_lt.1 htx
    have henough := Nat.not_lt.1 hrx
    rw [DirectExchange.codecDirect_room hlen hroom henough,
      DirectExchange.codecDirect_room (s := withStorage s m n) hlen hroom henough]
    have hblock := DirectExchange.directBlock_length_eq hlen
    have hread : s.cfg.blockLen ≤ s.rx.used.toNat := by omega
    exact ⟨⟨rfl, sameLive_rbWrite h.tx hi.tx hi'.tx (by rwa [hblock]),
      sameLive_rbAdvance h.rx (by omega)⟩, congrArg (List.map s2c) (sameLive_oldest h.rx hread)⟩

theorem batchRx_twins (h : Twins s (withStorage s m n)) (hi : Inv s)
    (hi' : Inv (withStorage s m n)) (hovf : ¬BlockOverflows s) (hunf : ¬BlockUnderflows s) :
    SameLive s.cfg.cap (batchRx s) (batchRx (withStorage s m n)) := by
  have hbatch : batchRx (withStorage s m n) = if s.bphase.val = 0 then
      rxCorrect s.cfg (pendingMode s) (withStorage s m n).rx else (withStorage s m n).rx := rfl
  rw [hbatch, batchRx]
  split
  · rename_i hstart
    exact sameLive_rxCorrect h.rx hi.rx hi'.rx
      (fun hmode => Nat.not_lt.1 fun hlt => hunf (.inl ⟨⟨hstart, hmode⟩, hlt⟩))
      (fun hmode => Nat.not_lt.1 fun hlt => hovf (.inl ⟨hstart, hmode, hlt⟩))
  · exact h.rx

theorem batchTx_twins {smp : List Sample} (h : Twins s (withStorage s m n)) (hi : Inv s)
    (hi' : Inv (withStorage s m n)) (hlen : smp.length = s.cfg.blockLen)
    (hovf : ¬BlockOverflows s) :
    SameLive s.cfg.cap (batchTx smp s) (batchTx smp (withStorage s m n)) := by
  have hbatch : batchTx smp (withStorage s m n) = if s.bphase.val = 2 then
      rbWrite s.cfg.cap (withStorage s m n).tx
        (batchOutput s.cfg (blockMode s) (putBlock s.cfg.blockLen s.bphase.val s.bb smp))
      else (withStorage s m n).tx := rfl
  rw [hbatch, batchTx]
  split
  · rename_i hlast
    refine sameLive_rbWrite h.tx hi.tx hi'.tx ?_
    rw [batchOutput_length _ _ (putBlock_length s.bphase.isLt hi.bb_len hlen), correctedLen_batch]
    exact Nat.not_lt.1 fun hlt => hovf (.inr ⟨hlast, hlt⟩)
  · exact h.tx

theorem codecResampled_twins {smp : List Sample} (h : Twins s (withStorage s m n)) (hi : Inv s)
    (hi' : Inv (withStorage s m n)) (hlen : smp.length = s.cfg.blockLen) :
    TwinResults (codecResampled smp s) (codecResampled smp (withStorage s m n)) := by
  have hchecks : resampledOvf (withStorage s m n) = resampledOvf s
      ∧ resampledUnf (withStorage s m n) = resampledUnf s := ⟨rfl, rfl⟩
  obtain ⟨hovf', hunf'⟩ := hchecks
  rcases codecResampled_cases smp s with ⟨hovf, hunf, heq⟩ | ⟨hfail, heq⟩ <;>
    rcases codecResampled_cases smp (withStorage s m n) with ⟨ho, hu, heq'⟩ | ⟨hf, heq'⟩
  · have hno : ¬BlockOverflows s := by simp [← resampledOvf_iff, hovf]
    have hnu : ¬BlockUnderflows s := by simp [← resampledUnf_iff, hunf]
    have hrx := batchRx_twins h hi hi' hno hnu
    have hused := batchRx_used hi.rx hno hnu
    rw [heq, heq', batchBlock_batchStart, batchBlock_batchStart]
    exact ⟨⟨rfl, batchTx_twins h hi hi' hlen hno, sameLive_rbAdvance hrx hused⟩,
      congrArg (List.map s2c) (sameLive_oldest hrx hused)⟩
  · simp [hovf', hunf', hovf, hunf] at hf
  · rw [hovf'] at ho
    rw [hunf'] at hu
    simp [ho, hu] at hfail
  · rw [heq, heq', hovf', hunf']
    exact ⟨twins_raiseIf _ _ (twins_raiseIf _ _ h), rfl⟩

theorem codecExchange_twins {d2h : List Word} (h : Twins s (withStorage s m n)) (hi : Inv s)
    (hi' : Inv (withStorage s m n)) (hlen : d2h.length = s.cfg.blockLen) :
    TwinResults (codecExchange d2h s) (codecExchange d2h (withStorage s m n)) := by
  have hsmp : (d2h.map c2s).length = s.cfg.blockLen := by rwa [List.length_map]
  rcases codecExchange_cases d2h s with
    ⟨hs, heq⟩ | ⟨hs, hc, heq⟩ | ⟨hc, ⟨hs, heq⟩ | ⟨hs, hr, heq⟩ | ⟨hs, hr, heq⟩⟩ <;> rw [heq]
  · rw [codecExchange_needsReset (s := withStorage s m n) hs]
    exact ⟨⟨rfl, sameLive_refl _ _, sameLive_refl _ _⟩, rfl⟩
  · rw [codecExchange_inconsistent (s := withStorage s m n) hs hc]
    exact ⟨twins_raiseIf true .consistency h, rfl⟩
  · rw [codecExchange_priming (s := withStorage s m n) hs hc]
    exact codecPriming_twins h hi hi'
  · rw [codecExchange_direct (s := withStorage s m n) hs hc hr]
    exact codecDirect_twins h hi hi' hsmp
  · rw [codecExchange_resampled (s := withStorage s m n) hs hc hr]
    exact codecResampled_twins h hi hi' hsmp

/-! ### The USB side -/

theorem usbPriming_twins {rxf : List Sample} (h : Twins s (withStorage s m n)) (hi : Inv s)
    (hi' : Inv (withStorage s m n)) (hlen : rxf.length = s.cfg.transfer) :
    TwinResults (usbPriming rxf s) (usbPriming rxf (withStorage s m n)) := by
  by_cases hfull : s.cfg.cap < s.rx.used.toNat + s.cfg.transfer
  · rw [usbPriming_overflow hfull, usbPriming_overflow (s := withStorage s m n) hfull]
    exact ⟨twins_raiseIf true .overflow h, rfl⟩
  · have hroom := Nat.not_lt.1 hfull
    have hroom' : s.rx.used.toNat + rxf.length ≤ s.cfg.cap := by rwa [hlen]
    have hrx := sameLive_rbWrite h.rx hi.rx hi'.rx hroom'
    obtain ⟨hstays, hexits⟩ := usbPriming_room hlen hroom
    obtain ⟨hstays', hexits'⟩ := usbPriming_room (s := withStorage s m n) hlen hroom
    by_cases hexit : s.tx.used.toNat = s.cfg.normalSize
        ∧ 2 * s.cfg.transfer ≤ s.rx.used.toNat + s.cfg.transfer
    · rw [hexits hexit, hexits' hexit]
      have hused : (rbWrite s.cfg.cap s.rx rxf).used.toNat = s.rx.used.toNat + rxf.length :=
        rbWrite_used _ _ _ (by have := cap_lt_pow s.cfg; omega)
      have htwo : 2 * s.cfg.transfer ≤ (rbWrite s.cfg.cap s.rx rxf).used.toNat := by omega
      exact ⟨⟨rfl, h.tx, sameLive_clampRing hrx (Invariant.ringOk_storeFrame hi.rx hlen hroom)
        (Invariant.ringOk_storeFrame hi'.rx hlen hroom) htwo⟩, rfl⟩
    · rw [hstays hexit, hstays' hexit]
      exact ⟨⟨rfl, h.tx, hrx⟩, rfl⟩

theorem usbSteady_twins {rxf : List Sample} (h : Twins s (withStorage s m n)) (hi : Inv s)
    (hi' : Inv (withStorage s m n)) (hlen : rxf.length = s.cfg.transfer) :
    TwinResults (usbSteady rxf s) (usbSteady rxf (withStorage s m n)) := by
  rcases usbSteady_cases rxf s with ⟨htx, hroom, heq⟩ | ⟨txOk, rxOk, htx, hrx, hfail, heq⟩ <;>
    rcases usbSteady_cases rxf (withStorage s m n) with
      ⟨htx', hroom', heq'⟩ | ⟨txOk', rxOk', htx', hrx', hfail', heq'⟩
  · have hmoved : Twins (movedFrame rxf s) (movedFrame rxf (withStorage s m n)) :=
      ⟨rfl, sameLive_rbAdvance h.tx htx, sameLive_rbWrite h.rx hi.rx hi'.rx (by rwa [hlen])⟩
    rw [heq, heq', rbPeek_eq_oldest, rbPeek_eq_oldest]
    exact ⟨twins_of_ignoresRings schedule_ignoresRings
      (twins_of_ignoresRings leaveCorrection_ignoresRings hmoved), sameLive_oldest h.tx htx⟩
  · rw [htx'.2 htx, hrx'.2 hroom] at hfail'
    cases hfail'
  · rw [htx.2 htx', hrx.2 hroom'] at hfail
    cases hfail
  · obtain rfl : txOk' = txOk := Bool.eq_iff_iff.2 (htx'.trans htx.symm)
    obtain rfl : rxOk' = rxOk := Bool.eq_iff_iff.2 (hrx'.trans hrx.symm)
    rw [heq, heq']
    exact ⟨twins_of_ignoresRings (usbFailed_ignoresRings _ _) h, rfl⟩

theorem usbExchange_twins {rxf : List Sample} (h : Twins s (withStorage s m n)) (hi : Inv s)
    (hi' : Inv (withStorage s m n)) (hlen : rxf.length = s.cfg.transfer) :
    TwinResults (usbExchange rxf s) (usbExchange rxf (withStorage s m n)) := by
  rcases usbExchange_cases rxf s with ⟨hs, heq⟩ | ⟨hs, hc, heq⟩ | ⟨hc, ⟨hs, heq⟩ | ⟨hs, heq⟩⟩ <;>
    rw [heq]
  · rw [usbExchange_needsReset (s := withStorage s m n) hs]
    exact ⟨h, rfl⟩
  · rw [usbExchange_inconsistent (s := withStorage s m n) hs hc]
    exact ⟨twins_raiseIf true .consistency h, rfl⟩
  · rw [usbExchange_priming (s := withStorage s m n) hs hc]
    exact usbPriming_twins h hi hi' hlen
  · rw [usbExchange_steady (s := withStorage s m n) hs hc]
    exact usbSteady_twins h hi hi' hlen

end

/-! ### The commands -/

theorem codecXchg_twins {s s' t : State} (h : Twins s s') (hi : Inv s) (hi' : Inv s')
    (hexec : exec .codecXchg s = .next t) :
    ∃ t', exec .codecXchg s' = .next t' ∧ Twins t t' := by
  simp only [exec, execCodecXchg, withWords_next_iff] at hexec
  obtain ⟨d2h, hp, hlen, rfl⟩ := hexec
  have hcount : Twins (countBlock s) (countBlock s') :=
    twins_of_ignoresRings (f := countBlock) (fun _ _ _ => ⟨rfl, rfl⟩) h
  have hstorage := twins_storage hcount
  have hres : TwinResults (codecExchange d2h (countBlock s)) (codecExchange d2h (countBlock s')) := by
    rw [hstorage] at hcount ⊢
    exact codecExchange_twins hcount (Invariant.inv_countBlock hi)
      (hstorage ▸ Invariant.inv_countBlock hi') hlen
  have hport : inPayload s' = inPayload s := by rw [h.rest]; rfl
  have hcfg : s'.cfg = s.cfg := by rw [h.rest]
  refine ⟨_, exec_codecXchg (hport.trans hp) (by rw [hcfg]; exact hlen), ?_⟩
  rw [hres.out]
  exact twins_of_ignoresRings (f := respondWake _) (fun _ _ _ => ⟨rfl, rfl⟩) hres.states

theorem usbSof_twins {s s' t : State} (h : Twins s s') (hi : Inv s) (hi' : Inv s')
    (hexec : exec .usbSof s = .next t) : ∃ t', exec .usbSof s' = .next t' ∧ Twins t t' := by
  simp only [exec, execUsbSof, withBytes_next_iff] at hexec
  obtain ⟨rxb, hp, hlen, rfl⟩ := hexec
  have hdrift : Twins (driftFrame s) (driftFrame s') :=
    twins_of_ignoresRings driftFrame_ignoresRings h
  have hstorage := twins_storage hdrift
  have hres : TwinResults (usbExchange (samplesOfBytes rxb) (driftFrame s))
      (usbExchange (samplesOfBytes rxb) (driftFrame s')) := by
    rw [hstorage] at hdrift ⊢
    exact usbExchange_twins hdrift (Invariant.inv_driftFrame hi)
      (hstorage ▸ Invariant.inv_driftFrame hi') (by simpa using samplesOfBytes_length hlen)
  have hport : inPayload s' = inPayload s := by rw [h.rest]; rfl
  have hcfg : s'.cfg = s.cfg := by rw [h.rest]
  refine ⟨_, exec_usbSof (hport.trans hp) (by rw [hcfg]; exact hlen), ?_⟩
  rw [hres.out]
  exact twins_of_ignoresRings (f := respond _ _ _) (fun _ _ _ => ⟨rfl, rfl⟩) hres.states

theorem respond_ignoresRings (status : Status) (data : Word) (out : Payload) :
    IgnoresRings (respond status data out) := fun _ _ _ => ⟨rfl, rfl⟩

theorem readReg_withStorage (s : State) (m n : Memory) (r : Reg) :
    readReg (withStorage s m n) r = readReg s r := by
  cases r <;> rfl

section

variable {s t : State} {m n : Memory}

theorem withNone_twins {f : State → State} (h : Twins s (withStorage s m n))
    (hexec : withNone s f = .next t) (hf : IgnoresRings f) :
    ∃ t', withNone (withStorage s m n) f = .next t' ∧ Twins t t' := by
  obtain ⟨hp, rfl⟩ := (withNone_next_iff ..).1 hexec
  exact ⟨_, withNone_eq f hp, twins_of_ignoresRings hf h⟩

theorem setRate_ignoresRings (r : BitVec 24) : IgnoresRings fun s =>
    if rateSupported r then respond .ok 0 .none { s with rate := r.setWidth 32 }
    else respond .rejected 0 .none s := by
  intro s a b
  dsimp only
  split <;> exact ⟨rfl, rfl⟩

theorem setMute_ignoresRings (a : BitVec 8) (v : Bool) : IgnoresRings fun s =>
    if chanIndexOk s.cfg.ch a then respond .ok 0 .none { s with mute := s.mute.set a.toNat v }
    else respond .illegal 0 .none s := by
  intro s x y
  dsimp only
  split <;> exact ⟨rfl, rfl⟩

theorem setVol_ignoresRings (a : BitVec 8) (v : BitVec 16) : IgnoresRings fun s =>
    if chanIndexOk s.cfg.ch a then respond .ok 0 .none { s with volume := s.volume.set a.toNat v }
    else respond .illegal 0 .none s := by
  intro s x y
  dsimp only
  split <;> exact ⟨rfl, rfl⟩

theorem control_twins {i : Instr} (h : Twins s (withStorage s m n)) (hcodec : i ≠ .codecXchg)
    (husb : i ≠ .usbSof) (hexec : exec i s = .next t) :
    ∃ t', exec i (withStorage s m n) = .next t' ∧ Twins t t' := by
  have htwins : ∀ {f : State → State}, IgnoresRings f → Twins (f s) (f (withStorage s m n)) :=
    fun hf => twins_of_ignoresRings hf h
  cases i with
  | codecXchg => exact absurd rfl hcodec
  | usbSof => exact absurd rfl husb
  | nop => exact withNone_twins h hexec (respond_ignoresRings _ _ _)
  | cntAdj d =>
    rw [exec, execCntAdj] at *
    exact withNone_twins h hexec fun _ _ _ => ⟨rfl, rfl⟩
  | reqReset =>
    rw [exec, execReqReset] at *
    exact withNone_twins h hexec fun _ _ _ => ⟨rfl, rfl⟩
  | overload =>
    rw [exec, execOverload] at *
    exact withNone_twins h hexec fun _ _ _ => ⟨rfl, rfl⟩
  | setRate r =>
    rw [exec, execSetRate] at *
    exact withNone_twins h hexec (setRate_ignoresRings r)
  | setMute a v =>
    rw [exec, execSetMute] at *
    exact withNone_twins h hexec (setMute_ignoresRings a v)
  | setVol a v =>
    rw [exec, execSetVol] at *
    exact withNone_twins h hexec (setVol_ignoresRings a v)
  | setAlt out inn =>
    rw [exec, execSetAlt] at *
    exact withNone_twins h hexec fun _ _ _ => ⟨rfl, rfl⟩
  | rdReg a =>
    rw [exec, execRdReg] at *
    obtain ⟨hp, rfl⟩ := (withNone_next_iff ..).1 hexec
    refine ⟨_, withNone_eq _ hp, ?_⟩
    have hcfg : (withStorage s m n).cfg = s.cfg := rfl
    cases hr : regOfIndex s.cfg.ch a <;> simp only [hcfg, hr, readReg_withStorage]
    · exact htwins (respond_ignoresRings _ _ _)
    · exact htwins (respond_ignoresRings _ _ _)
  | rdFlags =>
    rw [exec, execRdFlags] at *
    exact withNone_twins h hexec fun _ _ _ => ⟨rfl, rfl⟩
  | rsShrink16 =>
    obtain ⟨p, hp, hl, rfl⟩ := (withSamples_next_iff ..).1 hexec
    exact ⟨_, withSamples_eq _ hp hl, htwins (respond_ignoresRings _ _ _)⟩
  | rsStretch16 =>
    obtain ⟨p, hp, hl, rfl⟩ := (withSamples_next_iff ..).1 hexec
    exact ⟨_, withSamples_eq _ hp hl, htwins (respond_ignoresRings _ _ _)⟩
  | rsShrink32 =>
    obtain ⟨p, hp, hl, rfl⟩ := (withWords_next_iff ..).1 hexec
    exact ⟨_, withWords_eq _ hp hl, htwins (respond_ignoresRings _ _ _)⟩
  | rsStretch32 =>
    obtain ⟨p, hp, hl, rfl⟩ := (withWords_next_iff ..).1 hexec
    exact ⟨_, withWords_eq _ hp hl, htwins (respond_ignoresRings _ _ _)⟩

end

/-- Settles O21: the exchanges act on the live samples alone, and the other commands ignore the rings but
for the cursors and occupancies that RD_REG reads. -/
theorem freeLocationsNeverMatter : Obligations.FreeLocationsNeverMatter := by
  intro i s s' t hi hi' hrest htx hrx hexec
  have h : Twins s s' := ⟨hrest, htx, hrx⟩
  have hresult : ∃ t', exec i s' = .next t' ∧ Twins t t' := by
    by_cases hcodec : i = .codecXchg
    · subst hcodec
      exact codecXchg_twins h hi hi' hexec
    by_cases husb : i = .usbSof
    · subst husb
      exact usbSof_twins h hi hi' hexec
    have hstorage := twins_storage h
    rw [hstorage] at h ⊢
    exact control_twins h hcodec husb hexec
  obtain ⟨t', hexec', hrest', htx', hrx'⟩ := hresult
  have hcfg := WholeMachine.exec_cfg hexec
  rw [hcfg] at htx' hrx'
  exact ⟨t', hexec', hrest', htx', hrx'⟩

end Sys2Proof.Proofs.FreeLocations

/-! The indexed commands (43_control_status.md R224, R225, R227): SET_MUTE and SET_VOL on their entry,
RD_REG on the index map of 10_state.md R43. -/

namespace Sys2Proof.Proofs.Indexed

open Sys2Proof Sys2Proof.Machine Sys2Proof.Laws Sys2Proof.Proofs.Drift Sys2Proof.Proofs.Encoding

/-! ## Words -/

/-- A word of format AI as the number the statements write. -/
theorem wordAI_eq_ofNat (op a : BitVec 8) (imm : BitVec 16) :
    wordAI op a imm = BitVec.ofNat 32 (op.toNat * 2 ^ 24 + a.toNat * 2 ^ 16 + imm.toNat) := by
  rw [← wordAI_toNat, BitVec.ofNat_toNat, BitVec.setWidth_eq]

theorem encode_setMute (a : BitVec 8) (m : Bool) :
    encode (.setMute a m) = BitVec.ofNat 32 (0x21000000 + a.toNat * 2 ^ 16 + m.toNat) := by
  rw [encode, wordAI_eq_ofNat]
  cases m <;> rfl

theorem encode_setVol (a : BitVec 8) (v : BitVec 16) :
    encode (.setVol a v) = BitVec.ofNat 32 (0x22000000 + a.toNat * 2 ^ 16 + v.toNat) :=
  wordAI_eq_ofNat _ _ _

theorem encode_rdReg (a : BitVec 8) :
    encode (.rdReg a) = BitVec.ofNat 32 (0x30000000 + a.toNat * 2 ^ 16) :=
  wordAI_eq_ofNat _ _ _

/-- R92: bits 15:1 of a SET_MUTE word are 0. -/
theorem decode_setMute_mustBeZero (ch : Channels) (a : BitVec 8) {k : Nat} (hk : 1 < k)
    (hk16 : k < 2 ^ 16) :
    decode ch (BitVec.ofNat 32 (0x21000000 + a.toNat * 2 ^ 16 + k)) = .illegal .mustBeZero := by
  have himm : (BitVec.ofNat 16 k).toNat = k := by
    rw [BitVec.toNat_ofNat, Nat.mod_eq_of_lt hk16]
  have hword : BitVec.ofNat 32 (0x21000000 + a.toNat * 2 ^ 16 + k)
      = wordAI 0x21 a (BitVec.ofNat 16 k) := by
    rw [wordAI_eq_ofNat, himm]
    rfl
  have hhigh : ¬(BitVec.ofNat 16 k).extractLsb' 1 15 = 0#15 := by
    intro h
    have hnat := congrArg BitVec.toNat h
    rw [BitVec.extractLsb'_toNat, himm, Nat.shiftRight_eq_div_pow] at hnat
    simp at hnat
    omega
  rw [hword]
  generalize BitVec.ofNat 16 k = imm at hhigh ⊢
  simp [decode, decodeFields, hhigh]

/-! ## SET_MUTE and SET_VOL -/

section

variable {s : State} {a : BitVec 8}

theorem exec_setMute (m : Bool) (hp : inPayload s = .none) (ha : a.toNat ≤ s.cfg.chans) :
    exec (.setMute a m) s
      = .next (respond .ok 0 .none { s with mute := s.mute.set a.toNat m }) := by
  rw [exec, execSetMute, withNone_eq _ hp, if_pos ((chanIndexOk_iff _ _).2 ha)]

theorem exec_setVol (v : BitVec 16) (hp : inPayload s = .none) (ha : a.toNat ≤ s.cfg.chans) :
    exec (.setVol a v) s
      = .next (respond .ok 0 .none { s with volume := s.volume.set a.toNat v }) := by
  rw [exec, execSetVol, withNone_eq _ hp, if_pos ((chanIndexOk_iff _ _).2 ha)]

theorem exec_setMute_illegal (m : Bool) (hp : inPayload s = .none) (ha : s.cfg.chans < a.toNat) :
    exec (.setMute a m) s = .next (respond .illegal 0 .none s) := by
  rw [exec, execSetMute, withNone_eq _ hp,
    if_neg (mt (chanIndexOk_iff _ _).1 (Nat.not_le.2 ha))]

theorem exec_setVol_illegal (v : BitVec 16) (hp : inPayload s = .none)
    (ha : s.cfg.chans < a.toNat) :
    exec (.setVol a v) s = .next (respond .illegal 0 .none s) := by
  rw [exec, execSetVol, withNone_eq _ hp, if_neg (mt (chanIndexOk_iff _ _).1 (Nat.not_le.2 ha))]

end

/-- One entry of an array is written, the others stay. -/
theorem getD_set {α : Type} (l : List α) {i : Nat} (hi : i < l.length) (x d : α) (j : Nat) :
    (l.set i x).getD j d = if j = i then x else l.getD j d := by
  by_cases hj : j = i
  · subst hj
    simp [List.getD_eq_getElem?_getD, hi]
  · simp [List.getD_eq_getElem?_getD, hj, List.getElem?_set_ne (Ne.symm hj)]

/-- Settles O39: in range by the encoder and one list update, out of range by the two range checks. -/
theorem setMuteAndSetVolWriteOneEntry : Obligations.SetMuteAndSetVolWriteOneEntry := by
  intro s a m v muteWord volWord illegal
  have hmute : muteWord = encode (.setMute a m) := (encode_setMute a m).symm
  have hvol : volWord = encode (.setVol a v) := (encode_setVol a v).symm
  rw [hmute, hvol]
  refine ⟨fun ha => ?_, fun ha => ?_, fun k => decode_setMute_mustBeZero _ a⟩
  · have hwf : chanIndexOk s.cfg.ch a = true := (chanIndexOk_iff _ _).2 ha
    refine ⟨decode_encode hwf, decode_encode hwf, fun hp hml hvl => ⟨?_, ?_⟩⟩
    · exact ⟨_, exec_setMute m hp ha, by rw [List.length_set, hml],
        getD_set s.mute (by omega) m false⟩
    · exact ⟨_, exec_setVol v hp ha, by rw [List.length_set, hvl],
        getD_set s.volume (by omega) v 0⟩
  · have hwf : ¬chanIndexOk s.cfg.ch a = true := mt (chanIndexOk_iff _ _).1 (Nat.not_le.2 ha)
    exact ⟨decode_encode_of_not_wf hwf, decode_encode_of_not_wf hwf, fun hp =>
      ⟨exec_setMute_illegal m hp ha, exec_setVol_illegal v hp ha⟩⟩

/-! ## RD_REG -/

theorem exec_rdReg {s : State} {a : BitVec 8} {r : Reg} (hr : regOfIndex s.cfg.ch a = some r)
    (hp : inPayload s = .none) :
    exec (.rdReg a) s = .next (respond .ok (readReg s r) .none s) := by
  rw [exec, execRdReg, withNone_eq _ hp, hr]

theorem exec_rdReg_illegal {s : State} {a : BitVec 8} (hr : regOfIndex s.cfg.ch a = none)
    (hp : inPayload s = .none) :
    exec (.rdReg a) s = .next (respond .illegal 0 .none s) := by
  rw [exec, execRdReg, withNone_eq _ hp, hr]

/-- The rows of R43 below the channel entries: index and register. -/
def registerMap : List (BitVec 8 × Reg) :=
  [(0x00, .id), (0x01, .state), (0x02, .rate), (0x03, .alt), (0x04, .flags), (0x05, .ovfCount),
    (0x06, .unfCount), (0x07, .cap), (0x08, .normalSize), (0x09, .underflowMargin),
    (0x10, .txUsed), (0x11, .txRd), (0x12, .txWr), (0x14, .rxUsed), (0x15, .rxRd), (0x16, .rxWr),
    (0x20, .cfsc), (0x21, .sampleOffset), (0x22, .dwso), (0x23, .dwOk), (0x24, .corrInterval),
    (0x25, .corrCounter), (0x26, .wfc), (0x28, .seq)]

theorem regOfIndex_registerMap (ch : Channels) :
    ∀ e ∈ registerMap, regOfIndex ch e.1 = some e.2 := by
  cases ch <;> decide

theorem regOfIndex_channels (ch : Channels) :
    ∀ i < 5, i ≤ ch.count → regOfIndex ch (BitVec.ofNat 8 (0x40 + i)) = some (.mute i)
      ∧ regOfIndex ch (BitVec.ofNat 8 (0x50 + i)) = some (.vol i) := by
  cases ch <;> decide

theorem mem_registerMap_of_toNat : ∀ a : BitVec 8,
    a.toNat ≤ 0x09 ∨ a.toNat ∈ [0x10, 0x11, 0x12, 0x14, 0x15, 0x16,
      0x20, 0x21, 0x22, 0x23, 0x24, 0x25, 0x26, 0x28] → a ∈ registerMap.map Prod.fst := by
  decide

/-- An index that is on no row and in no channel range is not in the map (R43). -/
theorem regOfIndex_eq_none {ch : Channels} {a : BitVec 8} (hrows : a ∉ registerMap.map Prod.fst)
    (hchannels : ∀ i ≤ ch.count, a.toNat ≠ 0x40 + i ∧ a.toNat ≠ 0x50 + i) :
    regOfIndex ch a = none := by
  rw [← Option.not_isSome_iff_eq_none, regOfIndex_isSome_iff]
  rintro (h | h | ⟨hlo, hhi⟩ | ⟨hlo, hhi⟩)
  · exact hrows (mem_registerMap_of_toNat a (.inl h))
  · exact hrows (mem_registerMap_of_toNat a (.inr h))
  · exact (hchannels (a.toNat - 0x40) (by omega)).1 (by omega)
  · exact (hchannels (a.toNat - 0x50) (by omega)).2 (by omega)

/-! ### The values, as numbers -/

/-- R37. -/
theorem idValue_eq (p : Params) :
    idValue p = BitVec.ofNat 32 (48 * 256 + p.underflowRefill.toNat * 32
      + p.resampled.toNat * 16 + p.chans) := by
  unfold idValue Params.chans
  cases p.underflowRefill <;> cases p.resampled <;> cases p.ch <;> rfl

theorem ofBool_setWidth (b : Bool) : (BitVec.ofBool b).setWidth 32 = BitVec.ofNat 32 b.toNat := by
  cases b <;> rfl

/-- The rows the statements write are the map with the values RD_REG reads. -/
theorem registerRows_eq (s : State) :
    registerRows s = registerMap.map fun e => (e.1, readReg s e.2) := by
  have hid : _ = readReg s .id := (idValue_eq s.cfg).symm
  have hflags : BitVec.ofNat 32 s.flags.toNat = readReg s .flags := BitVec.ofNat_toNat _ _
  have hdwOk : BitVec.ofNat 32 s.dwOk.toNat = readReg s .dwOk := BitVec.ofNat_toNat _ _
  simp only [registerRows, registerMap, List.map_cons, List.map_nil, List.cons.injEq,
    Prod.mk.injEq, true_and, and_true]
  refine ⟨hid, ?state, rfl, ?alt, hflags, rfl, rfl, rfl, rfl, rfl, rfl, rfl, rfl, rfl, rfl, rfl, rfl,
    rfl, rfl, hdwOk, rfl, rfl, rfl, ?seq⟩
  case state =>
    rw [readReg]
    cases s.state <;> rfl
  case alt =>
    rw [readReg]
    cases s.inActive <;> cases s.outActive <;> rfl
  case seq =>
    rw [readReg]
    generalize s.bphase = b, s.corrPending = pending
    cases s.batchMode <;> revert b pending <;> decide

/-- A register of the map: its word, and what it answers. -/
theorem rdReg_reads {s : State} {a : BitVec 8} {r : Reg} {v : Word}
    (hr : regOfIndex s.cfg.ch a = some r) (hv : readReg s r = v) :
    decode s.cfg.ch (encode (.rdReg a)) = .command (.rdReg a)
      ∧ (inPayload s = .none → exec (.rdReg a) s = .next { s with reply := okReply v .none }) := by
  refine ⟨decode_encode (by simp [Instr.wf, hr]), fun hp => ?_⟩
  rw [exec_rdReg hr hp, hv]
  rfl

/-- Settles O41: row by row, channel by channel, and no index besides. -/
theorem rdRegReadsTheMap : Obligations.RdRegReadsTheMap := by
  intro s word reads
  have hword : word = fun a => encode (.rdReg a) := funext fun a => (encode_rdReg a).symm
  have hreads : ∀ {a r v}, regOfIndex s.cfg.ch a = some r → readReg s r = v → reads a v := by
    intro a r v hr hv
    simp only [reads, hword]
    exact rdReg_reads hr hv
  refine ⟨fun e he => ?_, fun i hi => ?_, fun a hrows hchannels => ?_⟩
  · rw [registerRows_eq] at he
    obtain ⟨row, hrow, rfl⟩ := List.mem_map.1 he
    exact hreads (regOfIndex_registerMap _ row hrow) rfl
  · have hsmall := chans_le s.cfg
    obtain ⟨hmute, hvol⟩ := regOfIndex_channels s.cfg.ch i (by omega) hi
    exact ⟨hreads hmute (ofBool_setWidth _), hreads hvol rfl⟩
  · have hnone : regOfIndex s.cfg.ch a = none := by
      refine regOfIndex_eq_none (fun ha => ?_) hchannels
      obtain ⟨row, hrow, rfl⟩ := List.mem_map.1 ha
      refine hrows (row.1, readReg s row.2) ?_ rfl
      rw [registerRows_eq]
      exact List.mem_map.2 ⟨row, hrow, rfl⟩
    rw [hword]
    exact ⟨decode_encode_of_not_wf (by simp [Instr.wf, hnone]), exec_rdReg_illegal hnone⟩

end Sys2Proof.Proofs.Indexed

/-! Runs of a few commands (42_transport.md R174, R188, R189; 41_drift.md R161): recovery after a reset
request, three blocks without a correction in either strategy, and one nominal millisecond. -/

namespace Sys2Proof.Proofs.Runs

open Sys2Proof Sys2Proof.Machine Sys2Proof.Laws Sys2Proof.Proofs.Drift Sys2Proof.Proofs.Transport
  Sys2Proof.Proofs.Control Sys2Proof.Proofs.Outcomes Sys2Proof.Proofs.Invariant

/-! ## Steps of a run -/

theorem step_command {s t : State} {c : Command} {rest : List Command} {i : Instr}
    (hp : s.port = c :: rest) (hd : decode s.cfg.ch c.cw = .command i)
    (hexec : exec i s = .next t) : step s = .next { t with port := rest } := by
  rw [WholeMachine.stepRunsDecodedCommand s c rest i hp hd, hexec]

theorem run_step {s u : State} (k : Nat) (h : step s = .next u) :
    Host.Core.run Sys2Proof.core (k + 1) s = Host.Core.run Sys2Proof.core k u := by
  have hcore : Sys2Proof.core.step s = .next u := h
  simp only [Host.Core.run, hcore]

theorem inPayload_cons {s : State} {c : Command} {rest : List Command} (hp : s.port = c :: rest) :
    inPayload s = c.payload := by simp [inPayload, fetch, hp]

theorem decode_codecXchg (ch : Channels) : decode ch 0x01000000 = .command .codecXchg :=
  decode_of_fields rfl rfl

theorem decode_usbSof (ch : Channels) : decode ch 0x02000000 = .command .usbSof :=
  decode_of_fields rfl rfl

/-! ## Recovery -/

/-- The state after a reset request, with the OVERLOAD flag or without (R221, R222). -/
def afterResetRequest (w : Word) (rest : List Command) (s : State) : State :=
  { s with
    flags := if w = 0x11000000 then s.flags ||| 0b0001 else s.flags
    state := .needsReset
    reply := okReply 0 .none
    port := rest }

theorem step_resetRequest {s : State} {w : Word} {rest : List Command}
    (hw : w = 0x11000000 ∨ w = 0x10000000)
    (hp : s.port = { cw := w, payload := .none } :: rest) :
    step s = .next (afterResetRequest w rest s) := by
  obtain ⟨hreset, hoverload, hexec⟩ := resetRequestsSetNeedsReset s
  obtain ⟨hexecReset, hexecOverload⟩ := hexec (inPayload_cons hp)
  rcases hw with rfl | rfl
  · exact step_command hp hoverload hexecOverload
  · exact step_command hp hreset hexecReset

/-- Settles O44: the request's step, then R172 in the state it leaves. -/
theorem nextCodecBlockRecovers : Obligations.NextCodecBlockRecovers := by
  intro s w b rest hw hp hb
  have hfirst := step_resetRequest hw hp
  have hpayload : inPayload (afterResetRequest w ({ cw := 0x01000000, payload := .words b } :: rest) s)
      = .words b := rfl
  have hsecond := step_command (rest := rest) rfl (decode_codecXchg _)
    (needsResetIsLeftByReinitialising _ b hpayload hb rfl)
  refine ⟨_, (run_step 1 hfirst).trans (run_step 0 hsecond), ?_⟩
  exact ⟨rfl, rfl, rfl, fun _ => ⟨rfl, rfl⟩, rfl, rfl, rfl, rfl, rfl, rfl⟩

/-! ## A block without a correction, in either strategy -/

/-- TX after such a block: the block itself, or the whole batch with its last block. -/
def plainTx (b : List Word) (s : State) : Ring :=
  if s.cfg.resampled = true then
    if s.bphase = 2 then
      rbWrite s.cfg.cap s.tx (putBlock s.cfg.blockLen s.bphase.val s.bb (b.map c2s))
    else s.tx
  else rbWrite s.cfg.cap s.tx (b.map c2s)

/-- The state after such a block. -/
def plainNext (b : List Word) (s : State) : State :=
  { s with
    cfsc := s.cfsc + BitVec.ofNat 32 s.cfg.blockLen
    tx := plainTx b s
    rx := rbAdvance s.cfg.cap s.rx s.cfg.blockLen
    bphase := if s.cfg.resampled = true then s.bphase + 1 else s.bphase
    bb := if s.cfg.resampled = true then putBlock s.cfg.blockLen s.bphase.val s.bb (b.map c2s)
      else s.bb
    reply := codecReply ((oldest s.cfg.cap s.rx s.cfg.blockLen).map s2c)
    port := s.port.tail }

/-- A sound steady state in which no correction is pending and no batch carries one. -/
structure Plain (s : State) : Prop where
  inv : Inv s
  steady : isSteady s.state = true
  pending : s.corrPending = false
  mode : s.batchMode = .none

theorem pendingMode_plain {s : State} (h : Plain s) : pendingMode s = .none := by
  simp only [pendingMode, h.pending]

theorem blockMode_plain {s : State} (h : Plain s) : blockMode s = .none := by
  unfold blockMode
  rw [pendingMode_plain h, h.mode, ite_self]

theorem directLength_plain {s : State} (h : Plain s) : directLength s = s.cfg.blockLen := by
  simp only [directLength, pendingMode_plain h]

/-- The samples such a block writes into TX. -/
def plainLength (s : State) : Nat :=
  if s.cfg.resampled = true then if s.bphase = 2 then s.cfg.transfer else 0 else s.cfg.blockLen

section

variable {s : State} {b : List Word}

theorem codecExchange_plain_direct (h : Plain s) (hr : s.cfg.resampled = false)
    (hlen : b.length = s.cfg.blockLen) (htx : s.tx.used.toNat + s.cfg.blockLen ≤ s.cfg.cap)
    (hrx : s.cfg.blockLen ≤ s.rx.used.toNat) :
    codecExchange b s = ({ s with
      tx := rbWrite s.cfg.cap s.tx (b.map c2s)
      rx := rbAdvance s.cfg.cap s.rx s.cfg.blockLen },
      (oldest s.cfg.cap s.rx s.cfg.blockLen).map s2c) := by
  have hlength := directLength_plain h
  rw [codecExchange_direct h.steady ((ringsAgree_iff s).2 (inv_ringsAgree h.inv)) hr,
    DirectExchange.codecDirect_room (by rwa [List.length_map]) (by rwa [hlength])
      (by rw [hlength, max_self]; exact hrx),
    afterDirectBlock, hlength, pendingMode_plain h, directBlock, ← h.pending]

theorem codecExchange_plain_batch (h : Plain s) (hr : s.cfg.resampled = true)
    (htx : s.bphase = 2 → s.tx.used.toNat + s.cfg.transfer ≤ s.cfg.cap)
    (hrx : s.cfg.blockLen ≤ s.rx.used.toNat) :
    codecExchange b s = ({ s with
      tx := if s.bphase = 2 then
          rbWrite s.cfg.cap s.tx (putBlock s.cfg.blockLen s.bphase.val s.bb (b.map c2s))
        else s.tx
      rx := rbAdvance s.cfg.cap s.rx s.cfg.blockLen
      bphase := s.bphase + 1
      bb := putBlock s.cfg.blockLen s.bphase.val s.bb (b.map c2s) },
      (oldest s.cfg.cap s.rx s.cfg.blockLen).map s2c) := by
  have hmode := blockMode_plain h
  have hnone := pendingMode_plain h
  have h2 : s.bphase = 2 ↔ s.bphase.val = 2 := Fin.ext_iff
  have hstart : ¬startsCorrection s := fun hs => hs.2 hnone
  have hlength : batchLength s = s.cfg.transfer := by simp only [batchLength, hmode]
  have hovf : resampledOvf s = false := by
    rw [← Bool.not_eq_true, resampledOvf_iff]
    rintro (⟨-, hremove, -⟩ | ⟨hlast, hfull⟩)
    · rw [hnone] at hremove
      cases hremove
    · rw [hlength] at hfull
      have := htx (h2.2 hlast)
      omega
  have hunf : resampledUnf s = false := by
    rw [← Bool.not_eq_true, resampledUnf_iff]
    rintro (⟨hs, -⟩ | ⟨-, hm, -⟩ | ⟨-, hm, -⟩ | ⟨-, hshort⟩)
    · exact hstart hs
    · rw [hnone] at hm
      cases hm
    · rw [hnone] at hm
      cases hm
    · omega
  rw [codecExchange_resampled h.steady ((ringsAgree_iff s).2 (inv_ringsAgree h.inv)) hr,
    codecResampled, hovf, hunf, if_neg (by decide), batchBlock_batchStart, batchRx_of_not_starts hstart,
    ← phase_succ, batchTx, hmode, batchOutput, ite_self, ← h.mode]
  simp only [h2, h.pending, ite_self]

/-- The exchange of either strategy, without a correction. -/
theorem codecExchange_plain (h : Plain s) (hlen : b.length = s.cfg.blockLen)
    (htx : s.tx.used.toNat + plainLength s ≤ s.cfg.cap)
    (hrx : s.cfg.blockLen ≤ s.rx.used.toNat) :
    codecExchange b s = ({ s with
      tx := plainTx b s
      rx := rbAdvance s.cfg.cap s.rx s.cfg.blockLen
      bphase := if s.cfg.resampled = true then s.bphase + 1 else s.bphase
      bb := if s.cfg.resampled = true then putBlock s.cfg.blockLen s.bphase.val s.bb (b.map c2s)
        else s.bb },
      (oldest s.cfg.cap s.rx s.cfg.blockLen).map s2c) := by
  unfold plainLength at htx
  unfold plainTx
  cases hr : s.cfg.resampled
  · simp only [hr, Bool.false_eq_true, if_false] at htx ⊢
    exact codecExchange_plain_direct h hr hlen htx hrx
  · simp only [hr, if_true] at htx ⊢
    exact codecExchange_plain_batch h hr (fun h2 => by rwa [if_pos h2] at htx) hrx

theorem step_plain {rest : List Command} (h : Plain s)
    (hp : s.port = { cw := 0x01000000, payload := .words b } :: rest)
    (hlen : b.length = s.cfg.blockLen) (htx : s.tx.used.toNat + plainLength s ≤ s.cfg.cap)
    (hrx : s.cfg.blockLen ≤ s.rx.used.toNat) : step s = .next (plainNext b s) := by
  have hcount : Plain (countBlock s) := ⟨inv_countBlock h.inv, h.steady, h.pending, h.mode⟩
  have hexec := exec_codecXchg_of (inPayload_cons hp) hlen
    (codecExchange_plain (s := countBlock s) hcount hlen htx hrx)
  rw [step_command hp (decode_codecXchg _) hexec, countBlock_eq, plainNext, hp]
  rfl

theorem plain_next (h : Plain s) (hstep : step s = .next (plainNext b s)) : Plain (plainNext b s) :=
  ⟨stepKeepsInvariant _ _ h.inv hstep, h.steady, h.pending, h.mode⟩

end

/-! ## Three such blocks -/

/-- Writing twice is writing the joined samples once (R64). -/
theorem rbWrite_append {p : Params} {r : Ring} {v w : List Sample}
    (hroom : r.used.toNat + v.length ≤ p.cap) :
    rbWrite p.cap (rbWrite p.cap r v) w = rbWrite p.cap r (v ++ w) := by
  have hlt := cap_lt_pow p
  have hwr := rbWrite_wr (cap_pos p) hlt r v
  have hused := rbWrite_used p.cap r v (by omega)
  have hstart : ((rbWrite p.cap r v).wr.toNat : Int) % p.cap
      = ((r.wr.toNat : Int) + v.length) % p.cap := by
    rw [hwr]
    push_cast
    exact Int.emod_emod_of_dvd _ (dvd_refl _)
  have hsecond : rbWrite p.cap (rbWrite p.cap r v) w = { r with
      buf := memWriteRun p.cap (memWriteRun p.cap r.buf r.wr.toNat v)
        ((rbWrite p.cap r v).wr.toNat : Int) w
      wr := wrapU32 (((rbWrite p.cap r v).wr.toNat + w.length) % p.cap : Nat)
      used := wrapU32 ((rbWrite p.cap r v).used.toNat + w.length) } := rfl
  rw [hsecond, memWriteRun_mod _ _ _ _ _ hstart, ← memWriteRun_append, hwr, hused, Nat.mod_add_mod,
    rbWrite, List.length_append]
  push_cast
  rw [Int.add_assoc, Int.add_assoc]

/-- The blocks collected so far stand in front of the batch buffer. -/
theorem take_putBlock {n k : Nat} {bb smp : List Sample} (hbb : k * n ≤ bb.length)
    (hlen : smp.length = n) : (putBlock n k bb smp).take ((k + 1) * n) = bb.take (k * n) ++ smp := by
  have hfront : (bb.take (k * n) ++ smp).length = (k + 1) * n := by
    rw [List.length_append, List.length_take, Nat.succ_mul]
    omega
  rw [putBlock, List.take_append_of_le_length (by rw [hfront]), List.take_of_length_le (by rw [hfront])]

/-- R178: after three blocks the batch buffer is the three blocks. -/
theorem putBlock_three {p : Params} {bb v1 v2 v3 : List Sample} (hbb : bb.length = p.transfer)
    (h1 : v1.length = p.blockLen) (h2 : v2.length = p.blockLen) (h3 : v3.length = p.blockLen) :
    putBlock p.blockLen 2 (putBlock p.blockLen 1 (putBlock p.blockLen 0 bb v1) v2) v3
      = v1 ++ v2 ++ v3 := by
  have hblocks := transfer_eq_blocks p
  have hlen1 := putBlock_length (phase := 0) (by decide) hbb h1
  have hlen2 := putBlock_length (phase := 1) (by decide) hlen1 h2
  have hfront1 := take_putBlock (k := 0) (bb := bb) (by omega) h1
  have hfront2 := take_putBlock (k := 1) (bb := putBlock p.blockLen 0 bb v1) (by omega) h2
  have hrest : (putBlock p.blockLen 1 (putBlock p.blockLen 0 bb v1) v2).drop (3 * p.blockLen) = [] :=
    List.drop_of_length_le (by omega)
  rw [putBlock, hfront2, hfront1, hrest, Nat.zero_mul, List.take_zero, List.nil_append,
    List.append_nil]

section

variable {s : State} {b1 b2 b3 : List Word} {rest : List Command}

/-- TX after each of three blocks of the non-resampled strategy. -/
theorem tx_three_direct (hr : s.cfg.resampled = false)
    (htx : s.tx.used.toNat + s.cfg.transfer ≤ s.cfg.cap) (h1 : b1.length = s.cfg.blockLen)
    (h2 : b2.length = s.cfg.blockLen) :
    (plainNext b1 s).tx = rbWrite s.cfg.cap s.tx (b1.map c2s)
      ∧ (plainNext b2 (plainNext b1 s)).tx
        = rbWrite s.cfg.cap s.tx (b1.map c2s ++ b2.map c2s)
      ∧ (plainNext b3 (plainNext b2 (plainNext b1 s))).tx
        = rbWrite s.cfg.cap s.tx (b1.map c2s ++ b2.map c2s ++ b3.map c2s) := by
  have hblocks := transfer_eq_blocks s.cfg
  have hdirect : ∀ (b : List Word) (u : State), u.cfg.resampled = false →
      (plainNext b u).tx = rbWrite u.cfg.cap u.tx (b.map c2s) := fun b u hu => by
    simp only [plainNext, plainTx, hu, Bool.false_eq_true, if_false]
  have htx1 := hdirect b1 s hr
  have htx2 := hdirect b2 (plainNext b1 s) hr
  have htx3 := hdirect b3 (plainNext b2 (plainNext b1 s)) hr
  rw [htx1] at htx2
  have htx2' := htx2.trans (rbWrite_append (p := s.cfg) (by rw [List.length_map]; omega))
  rw [htx2'] at htx3
  refine ⟨htx1, htx2', htx3.trans (rbWrite_append (p := s.cfg) ?_)⟩
  rw [List.length_append, List.length_map, List.length_map]
  omega

/-- TX after each of three blocks of the resampled strategy. -/
theorem tx_three_batch (hr : s.cfg.resampled = true) (hphase : s.bphase = 0)
    (hbb : s.bb.length = s.cfg.transfer) (h1 : b1.length = s.cfg.blockLen)
    (h2 : b2.length = s.cfg.blockLen) (h3 : b3.length = s.cfg.blockLen) :
    (plainNext b1 s).tx = s.tx
      ∧ (plainNext b2 (plainNext b1 s)).tx = s.tx
      ∧ (plainNext b3 (plainNext b2 (plainNext b1 s))).tx
        = rbWrite s.cfg.cap s.tx (b1.map c2s ++ b2.map c2s ++ b3.map c2s) := by
  have hbatch := putBlock_three (v1 := b1.map c2s) (v2 := b2.map c2s) (v3 := b3.map c2s) hbb
    (by rwa [List.length_map]) (by rwa [List.length_map]) (by rwa [List.length_map])
  simp [plainNext, plainTx, hr, hphase, hbatch]

theorem plainLength_direct (hr : s.cfg.resampled = false) : plainLength s = s.cfg.blockLen := by
  simp only [plainLength, hr, Bool.false_eq_true, if_false]

theorem plainLength_le (hr : s.cfg.resampled = true) : plainLength s ≤ s.cfg.transfer := by
  simp only [plainLength, hr, if_true]
  split <;> omega

/-- In either strategy TX has room for what each of the three blocks writes. -/
theorem room_three (hphase : s.bphase = 0) (hbb : s.bb.length = s.cfg.transfer)
    (htx : s.tx.used.toNat + s.cfg.transfer ≤ s.cfg.cap) (h1 : b1.length = s.cfg.blockLen)
    (h2 : b2.length = s.cfg.blockLen) (h3 : b3.length = s.cfg.blockLen) :
    s.tx.used.toNat + plainLength s ≤ s.cfg.cap
      ∧ (plainNext b1 s).tx.used.toNat + plainLength (plainNext b1 s) ≤ s.cfg.cap
      ∧ (plainNext b2 (plainNext b1 s)).tx.used.toNat
          + plainLength (plainNext b2 (plainNext b1 s)) ≤ s.cfg.cap := by
  have hblocks := transfer_eq_blocks s.cfg
  have hlt := cap_lt_pow s.cfg
  have hcfg1 : (plainNext b1 s).cfg = s.cfg := rfl
  have hcfg2 : (plainNext b2 (plainNext b1 s)).cfg = s.cfg := rfl
  cases hr : s.cfg.resampled
  · obtain ⟨htx1, htx2, -⟩ := tx_three_direct (b3 := b3) hr htx h1 h2
    have hused1 := rbWrite_used s.cfg.cap s.tx (b1.map c2s) (by rw [List.length_map]; omega)
    have hused2 := rbWrite_used s.cfg.cap s.tx (b1.map c2s ++ b2.map c2s)
      (by rw [List.length_append, List.length_map, List.length_map]; omega)
    rw [List.length_map] at hused1
    rw [List.length_append, List.length_map, List.length_map] at hused2
    rw [plainLength_direct hr, plainLength_direct (s := plainNext b1 s) hr,
      plainLength_direct (s := plainNext b2 (plainNext b1 s)) hr, htx1, htx2, hcfg1, hcfg2]
    omega
  · obtain ⟨htx1, htx2, -⟩ := tx_three_batch hr hphase hbb h1 h2 h3
    have hle0 := plainLength_le hr
    have hle1 := plainLength_le (s := plainNext b1 s) hr
    have hle2 := plainLength_le (s := plainNext b2 (plainNext b1 s)) hr
    rw [hcfg1] at hle1
    rw [hcfg2] at hle2
    rw [htx1, htx2]
    omega

theorem plainNext_rx_used (b : List Word) (hrx : s.cfg.blockLen ≤ s.rx.used.toNat) :
    (plainNext b s).rx.used.toNat = s.rx.used.toNat - s.cfg.blockLen := rbAdvance_used _ _ _ hrx

/-- Three blocks from a batch boundary, with room for them. -/
theorem step_three (h : Plain s) (hphase : s.bphase = 0)
    (htx : s.tx.used.toNat + s.cfg.transfer ≤ s.cfg.cap)
    (hrx : s.cfg.transfer ≤ s.rx.used.toNat) (h1 : b1.length = s.cfg.blockLen)
    (h2 : b2.length = s.cfg.blockLen) (h3 : b3.length = s.cfg.blockLen)
    (hp : s.port = { cw := 0x01000000, payload := .words b1 }
      :: { cw := 0x01000000, payload := .words b2 }
      :: { cw := 0x01000000, payload := .words b3 } :: rest) :
    step s = .next (plainNext b1 s)
      ∧ step (plainNext b1 s) = .next (plainNext b2 (plainNext b1 s))
      ∧ step (plainNext b2 (plainNext b1 s))
        = .next (plainNext b3 (plainNext b2 (plainNext b1 s))) := by
  have hblocks := transfer_eq_blocks s.cfg
  obtain ⟨hroom1, hroom2, hroom3⟩ := room_three hphase h.inv.bb_len htx h1 h2 h3
  have hrx0 : s.cfg.blockLen ≤ s.rx.used.toNat := by omega
  have hused1 := plainNext_rx_used b1 hrx0
  have hrx1 : s.cfg.blockLen ≤ (plainNext b1 s).rx.used.toNat := by omega
  have hused2 : (plainNext b2 (plainNext b1 s)).rx.used.toNat
      = (plainNext b1 s).rx.used.toNat - s.cfg.blockLen := plainNext_rx_used b2 hrx1
  have hrx2 : s.cfg.blockLen ≤ (plainNext b2 (plainNext b1 s)).rx.used.toNat := by omega
  have hport1 : (plainNext b1 s).port = _ := congrArg List.tail hp
  have hport2 : (plainNext b2 (plainNext b1 s)).port = _ := congrArg List.tail hport1
  have hstep1 := step_plain h hp h1 hroom1 hrx0
  have hplain1 := plain_next h hstep1
  have hstep2 := step_plain hplain1 hport1 h2 hroom2 hrx1
  have hplain2 := plain_next hplain1 hstep2
  exact ⟨hstep1, hstep2, step_plain hplain2 hport2 h3 hroom3 hrx2⟩

/-- What three such blocks leave, in either strategy: only the batch buffer tells them apart. -/
theorem plainNext_three (hphase : s.bphase = 0) (hbb : s.bb.length = s.cfg.transfer)
    (htx : s.tx.used.toNat + s.cfg.transfer ≤ s.cfg.cap) (h1 : b1.length = s.cfg.blockLen)
    (h2 : b2.length = s.cfg.blockLen) (h3 : b3.length = s.cfg.blockLen) :
    let u := plainNext b3 (plainNext b2 (plainNext b1 s))
    u = { s with
      cfsc := u.cfsc
      tx := rbWrite s.cfg.cap s.tx (b1.map c2s ++ b2.map c2s ++ b3.map c2s)
      rx := u.rx
      bb := u.bb
      reply := u.reply
      port := u.port } := by
  intro u
  have hbphase : u.bphase = s.bphase := by
    cases hr : s.cfg.resampled <;> simp [u, plainNext, hr, hphase]
  have htx3 : u.tx = rbWrite s.cfg.cap s.tx (b1.map c2s ++ b2.map c2s ++ b3.map c2s) := by
    cases hr : s.cfg.resampled
    · exact (tx_three_direct hr htx h1 h2).2.2
    · exact (tx_three_batch hr hphase hbb h1 h2 h3).2.2
  rw [← hbphase, ← htx3]
  rfl

end

/-! ## The two strategies -/

/-- The same block with RESAMPLED = 1. -/
def resampledTwin (s : State) : State := { s with cfg := { s.cfg with resampled := true } }

theorem ringOk_resampled {p : Params} {r : Ring} (h : RingOk p r) :
    RingOk { p with resampled := true } r := { h with }

theorem plain_resampledTwin {s : State} (h : Plain s) : Plain (resampledTwin s) :=
  ⟨{ h.inv with
      tx := ringOk_resampled h.inv.tx
      rx := ringOk_resampled h.inv.rx
      batch := fun hm => absurd h.mode hm
      direct := nofun }, h.steady, h.pending, h.mode⟩

/-- Settles O55: the same three steps from both states; RX and the answers do not depend on the strategy,
and TX holds the same samples after the third. -/
theorem batchEqualsThreeDirectBlocks : Obligations.BatchEqualsThreeDirectBlocks := by
  intro s b1 b2 b3 rest hi hsteady hr hpending htx hrx h1 h2 h3 hp s'
  obtain ⟨hphase, hmode, -⟩ := hi.direct hr
  have hplain : Plain s := ⟨hi, hsteady, hpending, hmode⟩
  have hplain' : Plain s' := plain_resampledTwin hplain
  obtain ⟨hs1, hs2, hs3⟩ := step_three hplain hphase htx hrx h1 h2 h3 hp
  obtain ⟨hs1', hs2', hs3'⟩ := step_three hplain' hphase htx hrx h1 h2 h3 hp
  refine ⟨fun k hk => ?_, _, _,
    (run_step 2 hs1).trans ((run_step 1 hs2).trans (run_step 0 hs3)),
    (run_step 2 hs1').trans ((run_step 1 hs2').trans (run_step 0 hs3')), ?_⟩
  · rcases (by omega : k = 0 ∨ k = 1 ∨ k = 2 ∨ k = 3) with rfl | rfl | rfl | rfl
    · exact ⟨s, s', rfl, rfl, rfl, rfl⟩
    · exact ⟨_, _, run_step 0 hs1, run_step 0 hs1', rfl, rfl⟩
    · exact ⟨_, _, (run_step 1 hs1).trans (run_step 0 hs2),
        (run_step 1 hs1').trans (run_step 0 hs2'), rfl, rfl⟩
    · exact ⟨_, _, (run_step 2 hs1).trans ((run_step 1 hs2).trans (run_step 0 hs3)),
        (run_step 2 hs1').trans ((run_step 1 hs2').trans (run_step 0 hs3')), rfl, rfl⟩
  · rw [plainNext_three (s := s') hphase hi.bb_len htx h1 h2 h3,
      plainNext_three (s := s) hphase hi.bb_len htx h1 h2 h3]
    rfl

/-! ## One nominal millisecond -/

/-- R150 to R157 when the frame brought exactly NOMINAL samples and no drift stands. -/
theorem driftFrame_nominal {s : State} (hcfsc : s.cfsc = BitVec.ofNat 32 s.cfg.nominal)
    (hdwso : s.dwso = 0) :
    (driftFrame s).dwso = 0 ∧ (driftFrame s).sampleOffset = s.sampleOffset := by
  have hwidth : (BitVec.ofNat 32 s.cfg.nominal).setWidth 16 = BitVec.ofNat 16 s.cfg.nominal := by
    refine BitVec.eq_of_toNat_eq ?_
    simp only [BitVec.toNat_setWidth, BitVec.toNat_ofNat]
    omega
  have hsum : windowSum s = 0 := by
    rw [windowSum, hcfsc, hdwso, hwidth, BitVec.sub_self]
    rfl
  by_cases hlast : s.wfc.val = 99
  · rw [driftFrame_clean hlast hsum]
    exact ⟨rfl, rfl⟩
  · obtain ⟨frames, -, h⟩ := driftFrame_open hlast
    rw [h]
    exact ⟨hsum, rfl⟩

/-- A steady frame in Normal without an offset: both rings move by a frame, nothing is scheduled. -/
theorem step_nominalFrame {s : State} {f : List Byte} {rest : List Command} (hi : Inv s)
    (hstate : s.state = .normal) (hpending : s.corrPending = false)
    (hcfsc : s.cfsc = BitVec.ofNat 32 s.cfg.nominal) (hdwso : s.dwso = 0)
    (hoffset : s.sampleOffset = 0) (htx : s.cfg.transfer ≤ s.tx.used.toNat)
    (hrx : s.rx.used.toNat + s.cfg.transfer ≤ s.cfg.cap) (hf : f.length = 2 * s.cfg.transfer)
    (hp : s.port = { cw := 0x02000000, payload := .bytes f } :: rest) :
    ∃ t, step s = .next t
      ∧ t.state = .normal ∧ t.bphase = s.bphase
      ∧ t.cfsc = 0 ∧ t.dwso = 0 ∧ t.sampleOffset = 0
      ∧ t.tx.used.toNat + s.cfg.transfer = s.tx.used.toNat
      ∧ t.rx.used.toNat = s.rx.used.toNat + s.cfg.transfer
      ∧ t.flags = s.flags ∧ t.corrCounter = s.corrCounter + 1 ∧ t.port = rest := by
  have hsteady : isSteady s.state = true := by rw [hstate]; rfl
  obtain ⟨hdwso', hoffset'⟩ := driftFrame_nominal hcfsc hdwso
  rw [hoffset] at hoffset'
  obtain ⟨tx', rx', hexec, htx', hrx'⟩ := steadyFrameTransfersBothWays s f (inPayload_cons hp) hf
    hsteady hi.tx hi.rx htx hrx
  obtain ⟨-, -, -, hconsumed⟩ := htx'
  obtain ⟨-, -, hstored, -⟩ := hrx'
  rw [samplesOfBytes_length hf] at hstored
  simp only [hoffset', ne_eq, not_true_eq_false, false_and, and_false, if_false] at hexec
  exact ⟨_, step_command hp (decode_usbSof _) hexec, by simp [hpending], driftFrame_bphase s,
    driftFrame_cfsc s, hdwso', rfl, hconsumed, hstored, driftFrame_flags s, rfl, rfl⟩

/-- Three blocks take one frame's samples from RX (R178). -/
theorem plainNext_three_rx_used {s : State} {b1 b2 b3 : List Word}
    (hrx : s.cfg.transfer ≤ s.rx.used.toNat) :
    (plainNext b3 (plainNext b2 (plainNext b1 s))).rx.used.toNat
      = s.rx.used.toNat - s.cfg.transfer := by
  have hblocks := transfer_eq_blocks s.cfg
  have hused1 := plainNext_rx_used b1 (show s.cfg.blockLen ≤ s.rx.used.toNat by omega)
  have hused2 : (plainNext b2 (plainNext b1 s)).rx.used.toNat
      = (plainNext b1 s).rx.used.toNat - s.cfg.blockLen :=
    plainNext_rx_used b2 (show s.cfg.blockLen ≤ (plainNext b1 s).rx.used.toNat by omega)
  have hused3 : (plainNext b3 (plainNext b2 (plainNext b1 s))).rx.used.toNat
      = (plainNext b2 (plainNext b1 s)).rx.used.toNat - s.cfg.blockLen :=
    plainNext_rx_used b3
      (show s.cfg.blockLen ≤ (plainNext b2 (plainNext b1 s)).rx.used.toNat by omega)
  omega

/-- Three blocks count exactly NOMINAL samples (R150, R173). -/
theorem plainNext_three_cfsc {s : State} (b1 b2 b3 : List Word) (hcfsc : s.cfsc = 0) :
    (plainNext b3 (plainNext b2 (plainNext b1 s))).cfsc = BitVec.ofNat 32 s.cfg.nominal := by
  rw [nominal_eq, transfer_eq_blocks, show 3 * s.cfg.blockLen = 0 + s.cfg.blockLen + s.cfg.blockLen
    + s.cfg.blockLen by omega, BitVec.ofNat_add, BitVec.ofNat_add, BitVec.ofNat_add]
  simp only [plainNext, hcfsc]
  rfl

/-- Nothing is pending in a sound state in Normal at a batch boundary. -/
theorem plain_normal {s : State} (hi : Inv s) (hstate : s.state = .normal) (hphase : s.bphase = 0) :
    Plain s where
  inv := hi
  steady := by rw [hstate]; rfl
  pending := Bool.eq_false_iff.2 fun hpend => by
    rcases hi.pending hpend with h | h | h <;> rw [hstate] at h <;> cases h
  mode := by_contra fun hmode => (hi.batch hmode).2 hphase

/-- Settles O54: three plain blocks count NOMINAL samples and move a frame each way, and the USB frame
moves it back. -/
theorem nominalMillisecondIsSteady : Obligations.NominalMillisecondIsSteady := by
  intro s b1 b2 b3 f rest hi hstate hphase hcfsc hdwso hoffset htx hrx h1 h2 h3 hf hp
  have hplain := plain_normal hi hstate hphase
  have hcap := normalSize_add_transfer_le_cap s.cfg
  have hbound := cap_ge_transfers s.cfg
  have hroom : s.tx.used.toNat + s.cfg.transfer ≤ s.cfg.cap := by omega
  have hblocks := transfer_eq_blocks s.cfg
  have hlt := cap_lt_pow s.cfg
  obtain ⟨hs1, hs2, hs3⟩ := step_three hplain hphase hroom (by omega) h1 h2 h3 hp
  have hu := plain_next (plain_next (plain_next hplain hs1) hs2) hs3
  have hleaves := plainNext_three hphase hi.bb_len hroom h1 h2 h3
  have hused := plainNext_three_rx_used (b1 := b1) (b2 := b2) (b3 := b3)
    (show s.cfg.transfer ≤ s.rx.used.toNat by omega)
  have hcount := plainNext_three_cfsc b1 b2 b3 hcfsc
  have hport : (plainNext b3 (plainNext b2 (plainNext b1 s))).port
      = { cw := 0x02000000, payload := .bytes f } :: rest :=
    congrArg (fun l => l.tail.tail.tail) hp
  have hwritten := rbWrite_used s.cfg.cap s.tx (b1.map c2s ++ b2.map c2s ++ b3.map c2s)
    (by simp only [List.length_append, List.length_map]; omega)
  simp only [List.length_append, List.length_map] at hwritten
  generalize plainNext b3 (plainNext b2 (plainNext b1 s)) = u at *
  have htxu : u.tx.used.toNat = s.tx.used.toNat + s.cfg.transfer := by
    rw [show u.tx = _ from congrArg State.tx hleaves, hwritten]
    omega
  have hcfg : u.cfg = s.cfg := by rw [hleaves]
  have hcounter : u.corrCounter = s.corrCounter := by rw [hleaves]
  have hflags : u.flags = s.flags := by rw [hleaves]
  have hphaseu : u.bphase = s.bphase := by rw [hleaves]
  obtain ⟨t, hs4, hstatet, hphaset, hcfsct, hdwsot, hoffsett, htxt, hrxt, hflagst, hcountert, hportt⟩ :=
    step_nominalFrame hu.inv (by rw [hleaves]; exact hstate) hu.pending (by rw [hcfg]; exact hcount)
      (by rw [hleaves]; exact hdwso) (by rw [hleaves]; exact hoffset) (by rw [hcfg]; omega)
      (by rw [hcfg]; omega) (by rw [hcfg]; exact hf) hport
  rw [hcfg] at htxt hrxt
  refine ⟨t, (run_step 3 hs1).trans ((run_step 2 hs2).trans ((run_step 1 hs3).trans (run_step 0 hs4))),
    stepKeepsInvariant _ _ hu.inv hs4, hstatet, by rw [hphaset, hphaseu, hphase], hcfsct, hdwsot,
    hoffsett, by omega, by omega, by rw [hflagst, hflags], by rw [hcountert, hcounter],
    (step_cfg hs4).trans hcfg, hportt⟩

end Sys2Proof.Proofs.Runs

/-! Padding bits (93_implementation_defined.md U14): the codec side reads a word only through `c2s`, and
what it does never depends on the port the word came from. -/

namespace Sys2Proof.Proofs.Padding

open Sys2Proof Sys2Proof.Machine Sys2Proof.Laws Sys2Proof.Proofs.Transport Sys2Proof.Proofs.Outcomes

/-- The same state with another command port. -/
def withPort (l : List Command) (s : State) : State := { s with port := l }

/-- The same outcome of an exchange with another command port. -/
def onPort (l : List Command) (x : State × List Word) : State × List Word := (withPort l x.1, x.2)

section

variable (l : List Command) (s : State)

theorem inPayload_withPort (c : Command) : inPayload (withPort (c :: l) s) = c.payload := rfl

theorem raiseIf_withPort (b : Bool) (c : Cause) :
    raiseIf b c (withPort l s) = withPort l (raiseIf b c s) := by
  cases b <;> cases c <;> rfl

theorem codecPriming_withPort (smp : List Sample) :
    codecPriming smp (withPort l s) = onPort l (codecPriming smp s) := by
  rw [codecPriming_eq, codecPriming_eq]
  rfl

theorem codecDirect_withPort (smp : List Sample) :
    codecDirect smp (withPort l s) = onPort l (codecDirect smp s) := by
  simp only [codecDirect, raiseIf_withPort]
  rw [apply_ite (onPort l)]
  rfl

theorem codecResampled_withPort (smp : List Sample) :
    codecResampled smp (withPort l s) = onPort l (codecResampled smp s) := by
  have hovf : resampledOvf (withPort l s) = resampledOvf s := rfl
  have hunf : resampledUnf (withPort l s) = resampledUnf s := rfl
  rw [codecResampled, codecResampled, hovf, hunf, raiseIf_withPort, raiseIf_withPort,
    batchBlock_batchStart, batchBlock_batchStart]
  split <;> rfl

theorem codecExchange_withPort (d2h : List Word) :
    codecExchange d2h (withPort l s) = onPort l (codecExchange d2h s) := by
  rcases codecExchange_cases d2h s with ⟨hs, h⟩ | ⟨hs, hc, h⟩ | ⟨hc, ⟨hs, h⟩ | ⟨hs, hr, h⟩ | ⟨hs, hr, h⟩⟩
    <;> rw [h]
  · exact codecExchange_needsReset (s := withPort l s) hs
  · exact codecExchange_inconsistent (s := withPort l s) hs hc
  · rw [codecExchange_priming (s := withPort l s) hs hc, codecPriming_withPort]
  · rw [codecExchange_direct (s := withPort l s) hs hc hr, codecDirect_withPort]
  · rw [codecExchange_resampled (s := withPort l s) hs hc hr, codecResampled_withPort]

end

theorem codecExchange_congr {p p' : List Word} (h : p.map c2s = p'.map c2s) (s : State) :
    codecExchange p s = codecExchange p' s := by
  rw [codecExchange, codecExchange, h]

/-- A command that takes words answers alike to two lists of words of one length, on two ports, when
what it does with them differs in the port only. -/
theorem withWords_withPort {n : Nat} {s t : State} {p p' : List Word} {c : Command}
    {rest : List Command} {f : List Word → State → State} (hp : inPayload s = .words p)
    (hlengths : p.length = p'.length)
    (hf : f p' (withPort ({ c with payload := .words p' } :: rest) s)
      = withPort ({ c with payload := .words p' } :: rest) (f p s))
    (h : withWords n s f = .next t) :
    withWords n (withPort ({ c with payload := .words p' } :: rest) s) f
      = .next (withPort ({ c with payload := .words p' } :: rest) t) := by
  obtain ⟨q, hq, hlen, rfl⟩ := (withWords_next_iff ..).1 h
  obtain rfl := Payload.words.inj (hp.symm.trans hq)
  rw [withWords_eq f (inPayload_withPort rest s _) (hlengths ▸ hlen), hf]

/-- Settles O19: the words are used through `c2s` only, which drops the padding. -/
theorem paddingBitsNeverMatter : Obligations.PaddingBitsNeverMatter := by
  intro i s t c rest p p' hi hport hpadding hexec
  have hsamples : p.map c2s = p'.map c2s := hpadding
  have hlengths : p.length = p'.length := by simpa using congrArg List.length hsamples
  have hp : inPayload s = .words p := by simp [inPayload, fetch, hport]
  have halike {n : Nat} {f : List Word → State → State} :=
    withWords_withPort (n := n) (t := t) (c := c) (rest := rest) (f := f) hp hlengths
  rcases hi with rfl | rfl | rfl
  · rw [exec, execCodecXchg] at hexec
    refine halike ?_ hexec
    rw [codecExchange_congr hsamples]
    exact congrArg (fun x : State × List Word => respondWake x.2 x.1)
      (codecExchange_withPort _ (countBlock s) p')
  · refine halike ?_ hexec
    rw [hsamples]
    rfl
  · refine halike ?_ hexec
    rw [hsamples]
    rfl

end Sys2Proof.Proofs.Padding
